-- ==== Sys2Proof/Word.lean ====
section
/-! DEFINITION. The widths of the engine's words and indices (10_state.md R21 to R29, 30_encoding.md R70). -/

namespace Sys2Proof

/-- One command word (R70). -/
abbrev Word := BitVec 16

/-- A symbol, 0..255 (R2, R72). -/
abbrev Symbol := BitVec 8

/-- A node handle: an index into the node arena, or `NONE` (R21, R22). -/
abbrev Handle := BitVec 10

/-- A node number (R21). -/
abbrev Number := BitVec 10

/-- A bit sequence, the first bit emitted or consumed at the head (R9). -/
abbrev Bits := List Bool

/-- The null handle 0x3FF, which never names an arena entry (R7, R22). -/
def NONE : Handle := 0x3FF#10

end Sys2Proof
end

