-- ==== Sys2Proof/Syntax.lean ====
section
/-! DEFINITION. The twelve commands, one constructor per row of the opcode map (30_encoding.md R77). -/

namespace Sys2Proof

/-- A command with its operands as R72 forms them. -/
inductive Instr where
  /-- discard the tree and reinitialise (R180) -/
  | reset
  /-- encode one symbol (R100) -/
  | enc (sym : Symbol)
  /-- decode one codeword (R110) -/
  | dec
  /-- append the top `n` bits of `bits` to IN_FIFO; `n` is 1..8 (R120) -/
  | push (n : Nat) (bits : BitVec 8)
  /-- read ROOT (R181) -/
  | rdroot
  /-- read NYT (R182) -/
  | rdnyt
  /-- read LAST (R183) -/
  | rdlast
  /-- read one SYMMAP entry (R184) -/
  | rdsym (sym : Symbol)
  /-- read one arena entry (R185) -/
  | rdnode (h : Handle)
  /-- read a node's path-code (R172) -/
  | code (h : Handle)
  /-- read one NUMMAP entry (R186) -/
  | rdnum (k : Number)
  /-- read the status word (R187) -/
  | rdstat
deriving DecidableEq, Repr

end Sys2Proof
end

