-- ==== Sys2Proof/WellFormed.lean ====
section
/-! DEFINITION. Which terms of `Instr` are commands (30_encoding.md R72, R89). -/

namespace Sys2Proof

/-- The operand ranges of R72 and R89. Symbols, handles and numbers fill their fields, so the one
range that a term can miss is PUSH's `n`, 1..8. -/
def Instr.wellFormed : Instr → Bool
  | .push n _ => decide (1 ≤ n) && decide (n ≤ 8)
  | .reset | .enc _ | .dec | .rdroot | .rdnyt | .rdlast | .rdsym _ | .rdnode _ | .code _
  | .rdnum _ | .rdstat => true

end Sys2Proof
end

