-- ==== Sys2Proof/Decode.lean ====
section
/-! DEFINITION. The decoder, total on every 16-bit word (30_encoding.md R80), the opcode map as a
table (R77), and the encoder (R89). -/

namespace Sys2Proof

/-- Why a word is illegal (R78). Both raise ILLEGAL_CMD. -/
inductive Illegal where
  /-- OP is 0x0, 0xD, 0xE or 0xF -/
  | opcode
  /-- a reserved bit of the word's format is 1 -/
  | reservedBits
deriving DecidableEq, Repr

/-- What a word decodes to (R80: `Command | Illegal`). -/
inductive Decoded where
  | command (i : Instr)
  | illegal (why : Illegal)
deriving DecidableEq, Repr

/-- `OP = w[15:12]` (R70). -/
def fieldOp (w : Word) : BitVec 4 := w.extractLsb' 12 4

/-- The symbol operand `w[7:0]` of format S (R72). -/
def fieldSym (w : Word) : Symbol := w.extractLsb' 0 8

/-- `NM1 = w[10:8]` of format P (R71). -/
def fieldNm1 (w : Word) : BitVec 3 := w.extractLsb' 8 3

/-- The bits operand `w[7:0]` of format P (R72). -/
def fieldBits (w : Word) : BitVec 8 := w.extractLsb' 0 8

/-- The handle operand `w[9:0]` of format H (R72). -/
def fieldHandle (w : Word) : Handle := w.extractLsb' 0 10

/-- The number operand `w[9:0]` of format K (R72). -/
def fieldNum (w : Word) : Number := w.extractLsb' 0 10

/-- Format N: all of `w[11:0]` is reserved (R71). -/
def formatN (w : Word) (i : Instr) : Decoded :=
  if w.extractLsb' 0 12 = 0#12 then .command i else .illegal .reservedBits

/-- Format S: `w[11:8]` is reserved (R71). -/
def formatS (w : Word) (mk : Symbol → Instr) : Decoded :=
  if w.extractLsb' 8 4 = 0#4 then .command (mk (fieldSym w)) else .illegal .reservedBits

/-- Format P: `w[11]` is reserved; the operand is `n = NM1 + 1` (R71, R72). -/
def formatP (w : Word) : Decoded :=
  if w.extractLsb' 11 1 = 0#1 then .command (.push ((fieldNm1 w).toNat + 1) (fieldBits w))
  else .illegal .reservedBits

/-- Formats H and K: `w[11:10]` is reserved (R71). -/
def formatH (w : Word) (mk : BitVec 10 → Instr) (operand : BitVec 10) : Decoded :=
  if w.extractLsb' 10 2 = 0#2 then .command (mk operand) else .illegal .reservedBits

/-- The decoder (R80). -/
def decode (w : Word) : Decoded :=
  match (fieldOp w).toNat with
  | 0x1 => formatN w .reset
  | 0x2 => formatS w .enc
  | 0x3 => formatN w .dec
  | 0x4 => formatP w
  | 0x5 => formatN w .rdroot
  | 0x6 => formatN w .rdnyt
  | 0x7 => formatN w .rdlast
  | 0x8 => formatS w .rdsym
  | 0x9 => formatH w .rdnode (fieldHandle w)
  | 0xA => formatH w .code (fieldHandle w)
  | 0xB => formatH w .rdnum (fieldNum w)
  | 0xC => formatN w .rdstat
  | _ => .illegal .opcode

/-- One row of the opcode map (R77). -/
structure OpcodeRow where
  mnemonic : String
  pattern : Word
  mask : Word
deriving DecidableEq, Repr

/-- The row of a command in the opcode map (R77: match and mask). -/
def opcodeRow : Instr → OpcodeRow
  | .reset => { mnemonic := "RESET", pattern := 0x1000#16, mask := 0xFFFF#16 }
  | .enc _ => { mnemonic := "ENC", pattern := 0x2000#16, mask := 0xFF00#16 }
  | .dec => { mnemonic := "DEC", pattern := 0x3000#16, mask := 0xFFFF#16 }
  | .push _ _ => { mnemonic := "PUSH", pattern := 0x4000#16, mask := 0xF800#16 }
  | .rdroot => { mnemonic := "RDROOT", pattern := 0x5000#16, mask := 0xFFFF#16 }
  | .rdnyt => { mnemonic := "RDNYT", pattern := 0x6000#16, mask := 0xFFFF#16 }
  | .rdlast => { mnemonic := "RDLAST", pattern := 0x7000#16, mask := 0xFFFF#16 }
  | .rdsym _ => { mnemonic := "RDSYM", pattern := 0x8000#16, mask := 0xFF00#16 }
  | .rdnode _ => { mnemonic := "RDNODE", pattern := 0x9000#16, mask := 0xFC00#16 }
  | .code _ => { mnemonic := "CODE", pattern := 0xA000#16, mask := 0xFC00#16 }
  | .rdnum _ => { mnemonic := "RDNUM", pattern := 0xB000#16, mask := 0xFC00#16 }
  | .rdstat => { mnemonic := "RDSTAT", pattern := 0xC000#16, mask := 0xFFFF#16 }

/-- The twelve rows, in the map's order (R77). -/
def opcodeTable : List OpcodeRow :=
  [.reset, .enc 0, .dec, .push 1 0, .rdroot, .rdnyt, .rdlast, .rdsym 0, .rdnode 0, .code 0,
    .rdnum 0, .rdstat].map opcodeRow

/-- A word selects a row when `(w & mask) = match` (R77). -/
def OpcodeRow.selects (r : OpcodeRow) (w : Word) : Bool := w &&& r.mask = r.pattern

/-- The word of a well-formed command (R89; R71 for the fields). -/
def encode : Instr → Word
  | .reset => 0x1#4 ++ 0#12
  | .enc sym => 0x2#4 ++ 0#4 ++ sym
  | .dec => 0x3#4 ++ 0#12
  | .push n bits => 0x4#4 ++ 0#1 ++ BitVec.ofNat 3 (n - 1) ++ bits
  | .rdroot => 0x5#4 ++ 0#12
  | .rdnyt => 0x6#4 ++ 0#12
  | .rdlast => 0x7#4 ++ 0#12
  | .rdsym sym => 0x8#4 ++ 0#4 ++ sym
  | .rdnode h => 0x9#4 ++ 0#2 ++ h
  | .code h => 0xA#4 ++ 0#2 ++ h
  | .rdnum k => 0xB#4 ++ 0#2 ++ k
  | .rdstat => 0xC#4 ++ 0#12

/-- The command word that a table row's `nbits` bits stand for: the bits above `nbits` are zero. A
command is one 16-bit word, bit 0 the least significant (R8, R70). -/
def tableWord (nbits w : Nat) : Word := BitVec.ofNat 16 (w % 2 ^ nbits)

/-- The command the decoder reads from an opcode-table word. -/
def decodeTableWord (nbits w : Nat) : Option Instr :=
  match decode (tableWord nbits w) with
  | .command i => some i
  | .illegal _ => none

end Sys2Proof
end

