-- ==== Sys2Proof/Config.lean ====
section
/-! DEFINITION. The implementation parameters (00_scope.md R7) and the fixed bounds derived from them. -/

namespace Sys2Proof

/-- The parameters that are fixed before power-on and that no command changes (R7, R20, R244).
DESIGN CHOICE (log entry 1): the record is carried in `State`, so that a claim over every state is a
claim over every legal engine. -/
structure Config where
  /-- the number of the initial root and of every later root -/
  maxNumber : Nat
  /-- the width of an unsigned node count -/
  countWidth : Nat
  /-- the capacity of the input FIFO in bits -/
  inDepth : Nat
deriving DecidableEq, Repr

/-- The default values of R7. -/
def Config.standard : Config := { maxNumber := 512, countWidth := 32, inDepth := 1024 }

/-- The legal ranges of R7. -/
def Config.wf (c : Config) : Bool :=
  decide (512 ≤ c.maxNumber) && decide (c.maxNumber ≤ 1022) && decide (2 ≤ c.countWidth)
    && decide (264 ≤ c.inDepth) && decide (c.inDepth ≤ 65535)

/-- `COUNT_MAX`, the largest representable count (R7). -/
def Config.countMax (c : Config) : Nat := 2 ^ c.countWidth - 1

/-- `PLATFORM_BASE`, the engine's place in a system's address space: OPEN, and no rule depends on it
(R58, decision D19; log entry 9). -/
opaque Config.platformBase : Nat

/-- `NUM_HANDLES` (R7). -/
def numHandles : Nat := 769

/-- `MAX_CODE_LEN`, the longest root-to-node path (R7, R165). -/
def maxCodeLen : Nat := 256

/-- `MAX_ENC_BITS`, the most bits one ENC emits (R7, R165). -/
def maxEncBits : Nat := 263

/-- `MAX_DEC_BITS`, the most bits one DEC consumes (R7, R165). -/
def maxDecBits : Nat := 264

end Sys2Proof
end

