-- ==== Sys2Proof/Machine/State.lean ====
section
/-! DEFINITION. The engine's state (10_state.md R20 to R32, R37), the responses (30_encoding.md R81),
and the reasons a step can stop. -/

namespace Sys2Proof.Machine

/-- One arena entry: the nine fields of R21. A count is a natural number that never exceeds COUNT_MAX
(R11, R101; log entry 7). -/
structure Node where
  live : Bool
  isNyt : Bool
  symv : Bool
  sym : Symbol
  count : Nat
  number : Number
  left : Handle
  right : Handle
  parent : Handle
deriving DecidableEq, Repr

/-- An array of handles, listed by index: indices strictly rising, no entry equal to NONE. An index
that is not listed reads as NONE, the reset contents of both maps (R26, R27, R37; log entry 6). -/
abbrev HandleMap := List (Nat × Handle)

/-- The code tree: what INSERT and UPDATE act on (R20 to R28). -/
structure CodeTree where
  /-- the allocated entries; entry `h` is the `h`-th, and an unallocated entry is absent (R22, R38) -/
  arena : List Node
  /-- NEXT_HANDLE (R23) -/
  nextHandle : Handle
  /-- ROOT (R24) -/
  root : Handle
  /-- NYT (R25) -/
  nyt : Handle
  /-- SYMMAP, indexed by symbol (R26) -/
  symMap : HandleMap
  /-- NUMMAP, indexed by node number (R27) -/
  numMap : HandleMap
  /-- NEXT_NUM, two's complement (R28) -/
  nextNum : BitVec 11
deriving DecidableEq, Repr

/-- The engine's fault reasons (60_exceptions.md R210). Codes 8..15 are reserved and have no
constructor (I14). A command that raises one goes on to a NEXT state: FAULT and ERRCODE are recorded
and the response is `ERR` (R211, R212; log entry 4), so `step` itself never stops with one. The view
of R227, in which the launch ends at the fault, is `launchStep` in `Sys2Proof/Safety.lean`. -/
inductive Fault where
  /-- code 1: any word that decodes to Illegal (R225). Safe: the effect is the spec's. -/
  | illegalCmd
  /-- code 2: DEC on an empty FIFO in the path, or with fewer than 8 payload bits (R111, R112). Safe. -/
  | incompleteStream
  /-- code 3: DEC of an escape that names a symbol with a leaf (R113). Safe. -/
  | dupSymbol
  /-- code 4: ENC or DEC when the root's count is COUNT_MAX (R101). Safe. -/
  | countSaturated
  /-- code 5: PUSH of bits that do not all fit (R121). Safe. -/
  | inOverflow
  /-- code 6: RDNODE or CODE of an unallocated handle, CODE of a historical node (R185, R172). Safe. -/
  | badHandle
  /-- code 7: RDNUM of a number above MAX_NUMBER (R186). Safe. -/
  | badNumber
deriving DecidableEq, Repr

/-- Why the model gives a step no meaning. -/
inductive Refusal where
  /-- an instruction without a meaning yet, named as the opcode table has it. Safe. Nothing raises it. -/
  | notModelled (mnemonic : String)
  /-- `step` on a state that no run produces, with any word (it fails `State.inv`); and, of the meanings themselves, ENC, DEC and
  CODE on a tree that breaks the invariants of R160 to R168, and RDNODE of a handle below NEXT_HANDLE
  with no entry. No command produces such a state and the spec has the model refuse it (R220, D26, I2;
  log entry 5). Safe. -/
  | illFormedState
deriving DecidableEq, Repr

/-- The one response of a command (R81), with the field widths of R83. -/
inductive Response where
  | ok
  | okBits (len : BitVec 9) (bits : Bits)
  | okSym (sym : Symbol) (nbits : BitVec 9)
  | okHandle (h : Handle)
  | okNode (r : Node)
  | okStatus (s : BitVec 64)
  | err (code : Fault) (nbits : BitVec 9)
  | rejected
deriving DecidableEq, Repr

/-- The whole state (R20), with the parameters it runs under and the transaction port. -/
structure State where
  /-- MAX_NUMBER, COUNT_WIDTH and IN_DEPTH (R7; log entry 1) -/
  cfg : Config
  /-- the arena, the two maps and the tree registers (R21 to R28) -/
  tree : CodeTree
  /-- LAST (R29) -/
  last : Handle
  /-- FAULT (R30) -/
  fault : Bool
  /-- ERRCODE (R30) -/
  errCode : BitVec 4
  /-- IN_FIFO, the oldest bit at the head (R32) -/
  inFifo : Bits
  /-- the model's own: the words the host has still to deliver, in issue order (R251, R257; log entry 2) -/
  cmds : List Word
  /-- the model's own: the response to the last command, none before the first (R81; log entry 3) -/
  resp : Option Response
  /-- the model's own: the symbols coded since reset, oldest first. No response and no other field depends
  on it; it is the ground on which a state is admitted (R220; log entry 13) -/
  coded : List Symbol
deriving DecidableEq, Repr

/-- The initial node, root and NYT in one (R37, R241). -/
def Node.initial (maxNumber : Nat) : Node :=
  { live := true, isNyt := true, symv := false, sym := 0, count := 0,
    number := BitVec.ofNat 10 maxNumber, left := NONE, right := NONE, parent := NONE }

/-- The tree after reset (R37, R241). -/
def CodeTree.initial (cfg : Config) : CodeTree :=
  { arena := [Node.initial cfg.maxNumber], nextHandle := 1, root := 0, nyt := 0, symMap := [],
    numMap := [(cfg.maxNumber, 0)], nextNum := BitVec.ofNat 11 (cfg.maxNumber - 1) }

/-- An engine with parameters `cfg` right after power-on (R37, R240, R241). -/
def State.init (cfg : Config) : State :=
  { cfg, tree := CodeTree.initial cfg, last := NONE, fault := false, errCode := 0, inFifo := [],
    cmds := [], resp := none, coded := [] }

/-- The machine right after reset, with the default parameters of R7 (R37, R241; log entry 1). -/
def State.reset : State := State.init Config.standard

end Sys2Proof.Machine
end

