-- ==== Sys2Proof/Machine/Flags.lean ====
section
/-! DEFINITION. FAULT and ERRCODE (10_state.md R30, R35, 60_exceptions.md R210, R212) and the layout of
the status word (10_state.md R31). -/

namespace Sys2Proof.Machine

/-- The fault codes of R210. -/
def Fault.code : Fault → BitVec 4
  | .illegalCmd => 1
  | .incompleteStream => 2
  | .dupSymbol => 3
  | .countSaturated => 4
  | .inOverflow => 5
  | .badHandle => 6
  | .badNumber => 7

/-- `record(code)`: the first fault of the session is kept (R212). -/
def record (code : Fault) (s : State) : State :=
  if s.fault then s else { s with fault := true, errCode := code.code }

/-- The status word from its fields, the most significant first, reserved bits 0 (R31). -/
def statusWord (nextHandle : Handle) (inCount : BitVec 16) (nsym : BitVec 9) (errCode : BitVec 4)
    (fault : Bool) : BitVec 64 :=
  0#6 ++ nextHandle ++ inCount ++ 0#15 ++ nsym ++ 0#3 ++ errCode ++ BitVec.ofBool fault

end Sys2Proof.Machine
end

