-- ==== Sys2Proof/Machine/Ops.lean ====
section
/-! DEFINITION. The shared operations: the two maps, the arena, the response, raising a fault, the
rejection, the reset procedure, and taking the host's next word. -/

namespace Sys2Proof.Machine

/-- Read an entry; an index that is not listed reads as NONE. -/
def HandleMap.read : HandleMap → Nat → Handle
  | [], _ => NONE
  | e :: m, k => if e.1 = k then e.2 else HandleMap.read m k

/-- Write an entry and keep the canonical form: writing NONE unlists the index. -/
def HandleMap.write : HandleMap → Nat → Handle → HandleMap
  | [], k, h => if h = NONE then [] else [(k, h)]
  | e :: m, k, h =>
    if k < e.1 then (if h = NONE then e :: m else (k, h) :: e :: m)
    else if k = e.1 then (if h = NONE then m else (k, h) :: m)
    else e :: HandleMap.write m k h

/-- The canonical form: indices strictly rising, no entry equal to NONE. -/
def HandleMap.wf : HandleMap → Bool
  | [] => true
  | e :: m => decide (e.2 ≠ NONE) && m.all (fun e' => decide (e.1 < e'.1)) && HandleMap.wf m

/-- Both maps are in canonical form and list only indices they have: symbols 0..255 (R26) and numbers
0..MAX_NUMBER (R27). -/
def Memory.wf (cfg : Config) (t : CodeTree) : Bool :=
  t.symMap.wf && t.numMap.wf && t.symMap.all (fun e => decide (e.1 < 256))
    && t.numMap.all (fun e => decide (e.1 ≤ cfg.maxNumber))

/-- `SYMMAP[sym]` (R26). -/
def CodeTree.symEntry (t : CodeTree) (sym : Symbol) : Handle := t.symMap.read sym.toNat

/-- `NUMMAP[k]` (R27). -/
def CodeTree.numEntry (t : CodeTree) (k : Nat) : Handle := t.numMap.read k

/-- `SYMMAP[sym] <- h` (R10). -/
def CodeTree.setSym (t : CodeTree) (sym : Symbol) (h : Handle) : CodeTree :=
  { t with symMap := t.symMap.write sym.toNat h }

/-- `NUMMAP[k] <- h` (R10). -/
def CodeTree.setNum (t : CodeTree) (k : Number) (h : Handle) : CodeTree :=
  { t with numMap := t.numMap.write k.toNat h }

/-- Arena entry `h`; absent when unallocated, and always absent for NONE (R22, R38). -/
def CodeTree.node? (t : CodeTree) (h : Handle) : Option Node := t.arena[h.toNat]?

/-- `node[h].f <- v` for the fields that `f` writes (R10). -/
def CodeTree.modNode (t : CodeTree) (h : Handle) (f : Node → Node) : CodeTree :=
  { t with arena := t.arena.modify h.toNat f }

/-- A child slot (R145). -/
inductive Slot where
  | left
  | right
deriving DecidableEq, Repr

/-- The slot of `p` that holds `c`: left when `p.left = c`, else right (R145, R170). -/
def slotOf (p : Node) (c : Handle) : Slot := if p.left = c then .left else .right

/-- `slot(p, sl) <- c` (R145). -/
def Node.setSlot (p : Node) (sl : Slot) (c : Handle) : Node :=
  match sl with
  | .left => { p with left := c }
  | .right => { p with right := c }

/-- `NSYM`: the number of SYMMAP entries that are not NONE (R26). -/
def CodeTree.nsym (t : CodeTree) : Nat :=
  ((List.range 256).filter fun k => t.symMap.read k ≠ NONE).length

/-- `respond(r)`: deliver the response and end the command (R10). -/
def respond (r : Response) (s : State) : State := { s with resp := some r }

/-- `OK_BITS(len(out), out)` (R81). -/
def okBitsOf (out : Bits) : Response := .okBits (BitVec.ofNat 9 out.length) out

/-- TAKING A FAULT: `raise Fault(code, n)` records it and responds `ERR(code, n)` (R211, R212). There
is no vector, no saved program counter and no mode (R218), and no return but reset (R219). Whatever
the command wrote before the raise is in `s` already. -/
def raise (code : Fault) (n : Nat) (s : State) : State :=
  respond (.err code (BitVec.ofNat 9 n)) (record code s)

/-- The rejection of ENC, DEC and PUSH while FAULT = 1: nothing changes but the response (R213). -/
def reject (s : State) : State := respond .rejected s

/-- LEAVING THE FAULTED STATE: the reset procedure of R241, the one way to clear FAULT (R219). The
parameters stay as they are (R180), and so do the words the host has still to deliver. -/
def resetProcedure (s : State) : State := { State.init s.cfg with cmds := s.cmds }

/-- A state that no command can produce has no meaning and is refused (R220, D26; log entry 5). -/
def orRefuse : Option State → Host.Outcome State Fault Refusal
  | some s => .next s
  | none => .refused .illFormedState

/-- What one coded symbol writes: the tree as INSERT or UPDATE leaves it, LAST, and the model's own list of
the session's symbols (R100, R110; log entry 13). -/
def commitSymbol (sym : Symbol) (t : CodeTree) (leaf : Handle) (s : State) : State :=
  { s with tree := t, last := leaf, coded := s.coded ++ [sym] }

/-- The host delivers its next word, if it has one (R251). -/
def takeWord (s : State) : Option (Word × State) :=
  match s.cmds with
  | [] => none
  | w :: ws => some (w, { s with cmds := ws })

/-- An illegal word records ILLEGAL_CMD and responds `ERR(ILLEGAL_CMD, 0)`, also while FAULT = 1
(R78, R225). -/
def illegalWord (s : State) : State := raise .illegalCmd 0 s

end Sys2Proof.Machine
end

