-- ==== Sys2Proof/Machine/TreeInv.lean ====
section
/-! DEFINITION. The invariants of every tree that reset and commands can produce (41_insert_update.md
R160 to R168), as one decidable check. ENC, DEC and CODE refuse a tree that fails it (R220, D26;
log entry 5). `n` is NSYM throughout: the length of SYMMAP's canonical listing. -/

namespace Sys2Proof.Machine

/-- The counters and the two tree registers (R167; R181 and R182 for the handles of root and NYT). -/
def wfCounters (cfg : Config) (t : CodeTree) (n : Nat) : Bool :=
  decide (t.arena.length = 1 + 3 * n) && decide (t.nextHandle.toNat = 1 + 3 * n)
    && decide (t.nextNum.toInt = (cfg.maxNumber : Int) - 2 * n - 1)
    && decide (t.nyt.toNat = if n = 0 then 0 else 1 + 3 * (n - 1))
    && decide (t.root.toNat = if n = 0 then 0 else 3)

/-- Entry `2, 5, 8, ...`: a symbol leaf, named by SYMMAP (R131 step S3, R164, R168). -/
def wfSymbolLeaf (t : CodeTree) (i : Nat) (nd : Node) : Bool :=
  nd.live && !nd.isNyt && nd.symv && decide (nd.left = NONE) && decide (nd.right = NONE)
    && decide (1 ≤ nd.count) && decide ((t.symEntry nd.sym).toNat = i)

/-- A child of the internal entry `h`: live, linked back, numbered and counted below it
(R162, R164, R168). -/
def wfChild (t : CodeTree) (h : Nat) (nd : Node) (c : Handle) : Bool :=
  (t.node? c).any fun ch =>
    ch.live && decide (ch.parent.toNat = h) && decide (ch.number.toNat < nd.number.toNat)
      && decide (ch.count < nd.count)

/-- The two children of a node have consecutive numbers (R162). -/
def wfSiblings (t : CodeTree) (nd : Node) : Bool :=
  (t.node? nd.left).any fun l => (t.node? nd.right).any fun r =>
    decide (l.number.toNat + 1 = r.number.toNat) || decide (r.number.toNat + 1 = l.number.toNat)

/-- Entry `3, 6, 9, ...`: an internal node with two live children (R131 step S4, R162, R164, R168). -/
def wfInternal (t : CodeTree) (i : Nat) (nd : Node) : Bool :=
  nd.live && !nd.isNyt && !nd.symv && decide (nd.sym = 0) && wfChild t i nd nd.left
    && wfChild t i nd nd.right && wfSiblings t nd

/-- The NYT: a live leaf of count 0 with the least number, and, unless it is the root, the left child of the
internal node it was made with, which no swap takes from it (R131, R160, R161). -/
def wfNyt (cfg : Config) (t : CodeTree) (n : Nat) (nd : Node) : Bool :=
  nd.live && nd.isNyt && !nd.symv && decide (nd.sym = 0) && decide (nd.count = 0)
    && decide (nd.number.toNat + 2 * n = cfg.maxNumber) && decide (nd.left = NONE)
    && decide (nd.right = NONE)
    && (decide (n = 0) || decide (nd.parent.toNat = t.nyt.toNat + 2)
      && (t.node? nd.parent).any fun p => decide (p.left = t.nyt))

/-- Entry `0, 1, 4, 7, ...` when it is no longer the NYT: historical, with the number and the parent it had
as the NYT (R131, R134). -/
def wfHistorical (cfg : Config) (i : Nat) (nd : Node) : Bool :=
  !nd.live && !nd.isNyt && !nd.symv && decide (nd.sym = 0) && decide (nd.count = 0)
    && decide (nd.left = NONE) && decide (nd.right = NONE)
    && decide (nd.number.toNat + 2 * ((i + 2) / 3) = cfg.maxNumber)
    && (if i = 0 then decide (nd.parent = NONE) else decide (nd.parent.toNat = i + 2))

/-- The place of a live node: NUMMAP names it by its number, and it is a child of its live parent, or
the root with number MAX_NUMBER and no parent (R161, R168). -/
def wfPlace (cfg : Config) (t : CodeTree) (i : Nat) (nd : Node) : Bool :=
  decide ((t.numEntry nd.number.toNat).toNat = i)
    && if i = t.root.toNat then
        decide (nd.parent = NONE) && decide (nd.number.toNat = cfg.maxNumber)
      else (t.node? nd.parent).any fun p =>
        p.live && (decide (p.left.toNat = i) || decide (p.right.toNat = i))

/-- The allocation order fixes what each entry is (R131 step S1, R167). -/
def wfEntry (cfg : Config) (t : CodeTree) (n i : Nat) (nd : Node) : Bool :=
  (if i % 3 = 2 then wfSymbolLeaf t i nd
    else if i % 3 = 0 && i ≠ 0 then wfInternal t i nd
    else if i = t.nyt.toNat then wfNyt cfg t n nd
    else wfHistorical cfg i nd)
    && (!nd.live || wfPlace cfg t i nd)

/-- Every arena entry is what its handle says it is. -/
def wfArena (cfg : Config) (t : CodeTree) (n : Nat) : Bool :=
  (List.range t.arena.length).all fun i => (t.arena[i]?).any fun nd => wfEntry cfg t n i nd

/-- Every SYMMAP entry names the leaf that carries its symbol (R26). -/
def wfSymMap (t : CodeTree) : Bool :=
  t.symMap.all fun e => (t.node? e.2).any fun nd => nd.symv && decide (nd.sym.toNat = e.1)

/-- NUMMAP names the live nodes by number, for exactly the numbers `MAX_NUMBER - 2·NSYM` to MAX_NUMBER
(R161). -/
def wfNumMap (cfg : Config) (t : CodeTree) (n : Nat) : Bool :=
  decide (t.numMap.map Prod.fst = List.range' (cfg.maxNumber - 2 * n) (2 * n + 1))
    && t.numMap.all fun e => (t.node? e.2).any fun nd => nd.live && decide (nd.number.toNat = e.1)

/-- The count of the node numbered `k`; 0 where there is none. -/
def CodeTree.countAt (t : CodeTree) (k : Nat) : Nat :=
  match t.node? (t.numEntry k) with
  | some nd => nd.count
  | none => 0

/-- The sibling property: from the lowest number up, counts never fall (R163). -/
def wfCountOrder (cfg : Config) (t : CodeTree) (n : Nat) : Bool :=
  (List.range (2 * n)).all fun j =>
    decide (t.countAt (cfg.maxNumber - j - 1) ≤ t.countAt (cfg.maxNumber - j))

/-- The sum of the symbol leaves' counts: the number of symbols coded in the session (R164 (b)). -/
def CodeTree.leafTotal (t : CodeTree) : Nat :=
  (t.arena.map fun nd => if nd.symv then nd.count else 0).sum

/-- The root's count: 0 before the first symbol, then one more than the symbols coded, and within
COUNT_WIDTH bits (R164 (b), (d), R101). -/
def wfRootCount (cfg : Config) (t : CodeTree) (n : Nat) : Bool :=
  (t.node? t.root).any fun r =>
    decide (r.count = if n = 0 then 0 else t.leafTotal + 1) && decide (r.count ≤ cfg.countMax)

/-- The tree is one that reset and commands can produce, as far as R160 to R168 say. -/
def treeWf (cfg : Config) (t : CodeTree) : Bool :=
  cfg.wf && Memory.wf cfg t && wfCounters cfg t t.symMap.length && wfArena cfg t t.symMap.length
    && wfSymMap t && wfNumMap cfg t t.symMap.length && wfCountOrder cfg t t.symMap.length
    && wfRootCount cfg t t.symMap.length

end Sys2Proof.Machine
end

