-- ==== Sys2Proof/Machine/CodePath.lean ====
section
/-! DEFINITION. The `huffman_code_path_tracer`: CODE_PATH and the CODE query (42_code_path.md). -/

namespace Sys2Proof.Machine

/-- The walk of R170 from `c` to the root with `fuel` entries left to visit, `out` prepended to so
far. It answers `none` only on a tree that breaks R160 to R168 (log entries 5 and 8). -/
def codePathFrom (t : CodeTree) : Nat → Handle → Bits → Option Bits
  | 0, _, _ => none
  | fuel + 1, c, out => do
    let nd ← t.node? c
    if nd.parent = NONE then some out
    else
      let p ← t.node? nd.parent
      codePathFrom t fuel nd.parent (decide (slotOf p c = .right) :: out)

/-- CODE_PATH(x): root first, 0 for a left branch and 1 for a right one, at most MAX_CODE_LEN bits
(R170). -/
def codePath (t : CodeTree) (x : Handle) : Option Bits := codePathFrom t (maxCodeLen + 1) x []

/-- Where a bit sequence leads from `c`: 0 to the left child, 1 to the right one (R170, R171 (c)). -/
def follow (t : CodeTree) : Handle → Bits → Option Handle
  | c, [] => some c
  | c, b :: rest => do
    let nd ← t.node? c
    follow t (if b then nd.right else nd.left) rest

/-- A live entry of the arena below NEXT_HANDLE (R172). -/
def liveHandle (t : CodeTree) (h : Handle) : Bool :=
  decide (h.toNat < t.nextHandle.toNat) && (t.node? h).any (·.live)

/-- CODE h (R172). -/
def execCode (h : Handle) (s : State) : Host.Outcome State Fault Refusal :=
  if !treeWf s.cfg s.tree then .refused .illFormedState
  else if !liveHandle s.tree h then .next (raise .badHandle 0 s)
  else orRefuse do
    let out ← codePath s.tree h
    some (respond (okBitsOf out) s)

end Sys2Proof.Machine
end

