-- ==== Sys2Proof/Machine/Operands.lean ====
section
/-! DEFINITION. Bit sequences and the values they stand for (00_scope.md R9, 20_memory.md R52,
30_encoding.md R72). -/

namespace Sys2Proof.Machine

/-- The top `n` bits of a byte, bit 7 first: `bits[7], ..., bits[8-n]` (R72, R120). -/
def topBits (n : Nat) (bits : BitVec 8) : Bits :=
  (List.range n).map fun i => bits.getLsbD (7 - i)

/-- `bits_msb8(v)` (R9). -/
def bitsMsb8 (v : BitVec 8) : Bits := topBits 8 v

/-- The value of a bit sequence, the first bit most significant. -/
def valMsb (s : Bits) : Nat := s.foldl (fun acc b => 2 * acc + b.toNat) 0

/-- `val_msb8`, the inverse of `bits_msb8` (R9). -/
def valMsb8 (s : Bits) : BitVec 8 := BitVec.ofNat 8 (valMsb s)

end Sys2Proof.Machine
end

