-- ==== Sys2Proof/Machine/Tree.lean ====
section
/-! DEFINITION. The `nyt_insertion_and_rebalance_unit`: FIND_CANDIDATE, SWAP, UPDATE and INSERT
(41_insert_update.md). Each is total and answers `none` only on a tree that breaks the invariants of
R160 to R168: a link that names no entry, or a walk longer than the bound the spec gives it (R12;
log entries 5 and 8). -/

namespace Sys2Proof.Machine

/-- The scan of R140 over the `steps` numbers `k, k-1, ...`: the first node whose count is `w`, or
NONE. An entry holding NONE never matches (D31). -/
def scanNumbers (t : CodeTree) (w : Nat) : Nat → Nat → Option Handle
  | 0, _ => some NONE
  | steps + 1, k =>
    if t.numEntry k = NONE then scanNumbers t w steps (k - 1)
    else match t.node? (t.numEntry k) with
      | none => none
      | some c => if c.count = w then some (t.numEntry k) else scanNumbers t w steps (k - 1)

/-- FIND_CANDIDATE(cur): scan from MAX_NUMBER down to, but not including, cur's own number (R140). -/
def findCandidate (cfg : Config) (t : CodeTree) (cur : Handle) : Option Handle := do
  let nd ← t.node? cur
  scanNumbers t nd.count (cfg.maxNumber - nd.number.toNat) cfg.maxNumber

/-- SWAP(a, b): exchange the two nodes' child slots, parents, numbers and NUMMAP entries. Both slots
are found before either is written (R145, R146). -/
def swap (t : CodeTree) (a b : Handle) : Option CodeTree := do
  let na ← t.node? a
  let nb ← t.node? b
  let pa ← t.node? na.parent
  let pb ← t.node? nb.parent
  let sa := slotOf pa a
  let sb := slotOf pb b
  let t := t.modNode na.parent (·.setSlot sa b)
  let t := t.modNode nb.parent (·.setSlot sb a)
  let t := t.modNode a ({ · with parent := nb.parent, number := nb.number })
  let t := t.modNode b ({ · with parent := na.parent, number := na.number })
  some ((t.setNum nb.number a).setNum na.number b)

/-- The swap guard of R141, as the document states it. -/
def swapAllowed (cur c parent : Handle) : Bool := c ≠ NONE && c ≠ cur && c ≠ parent

/-- One iteration's rebalance: find the candidate and swap if the guard allows it (R140, R141). -/
def rebalance (cfg : Config) (t : CodeTree) (cur : Handle) : Option CodeTree := do
  let c ← findCandidate cfg t cur
  let nd ← t.node? cur
  if swapAllowed cur c nd.parent then swap t cur c else some t

/-- The increment of one iteration: cur's count goes up by exactly 1 (R150). -/
def bumpCount (t : CodeTree) (cur : Handle) : CodeTree :=
  t.modNode cur fun nd => { nd with count := nd.count + 1 }

/-- One iteration of R150 at cur: rebalance, increment by exactly 1, and the node to go on from, which is
the parent after the swap (R151). -/
def walkStep (cfg : Config) (cur : Handle) (t : CodeTree) : Option (Handle × CodeTree) := do
  let t1 ← rebalance cfg t cur
  let nd ← (bumpCount t1 cur).node? cur
  some (nd.parent, bumpCount t1 cur)

/-- The walk of R150 with `fuel` iterations left; it ends at NONE, above the root. -/
def updateWalk (cfg : Config) : Nat → Handle → CodeTree → Option CodeTree
  | 0, _, _ => none
  | fuel + 1, cur, t =>
    if cur = NONE then some t
    else do
      let (cur', t') ← walkStep cfg cur t
      updateWalk cfg fuel cur' t'

/-- Where the walk of R150 stands after `k` iterations: the node it goes on from and the tree. No
iteration follows NONE. -/
def walkAfter (cfg : Config) : Nat → Handle → CodeTree → Option (Handle × CodeTree)
  | 0, cur, t => some (cur, t)
  | k + 1, cur, t =>
    if cur = NONE then none
    else do
      let (cur', t') ← walkStep cfg cur t
      walkAfter cfg k cur' t'

/-- UPDATE(start): at most `MAX_CODE_LEN + 1` iterations, then the test that ends the walk
(R150, R152). -/
def update (cfg : Config) (start : Handle) (t : CodeTree) : Option CodeTree :=
  updateWalk cfg (maxCodeLen + 2) start t

/-- S2: the new NYT (R131). -/
def newNyt (t : CodeTree) : Node :=
  { live := true, isNyt := true, symv := false, sym := 0, count := 0,
    number := (t.nextNum - 1).setWidth 10, left := NONE, right := NONE, parent := t.nextHandle + 2 }

/-- S3: the new symbol leaf (R131). -/
def newLeaf (t : CodeTree) (sym : Symbol) : Node :=
  { live := true, isNyt := false, symv := true, sym, count := 1,
    number := t.nextNum.setWidth 10, left := NONE, right := NONE, parent := t.nextHandle + 2 }

/-- S4: the new internal node, in the old NYT's place and with its number (R131, R132). -/
def newInternal (t : CodeTree) (old : Node) : Node :=
  { live := true, isNyt := false, symv := false, sym := 0, count := 1, number := old.number,
    left := t.nextHandle, right := t.nextHandle + 1, parent := old.parent }

/-- S1 to S4: allocate the three entries NEXT_HANDLE, +1 and +2 (R131, D3). -/
def allocate (t : CodeTree) (sym : Symbol) (old : Node) : CodeTree :=
  { t with arena := t.arena ++ [newNyt t, newLeaf t sym, newInternal t old] }

/-- S5: put the internal node `nI` where `old` stood under `p`; with no parent it becomes the root (R131). -/
def splice (t : CodeTree) (old nI p : Handle) : Option CodeTree :=
  if p = NONE then some { t with root := nI }
  else do
    let pn ← t.node? p
    some (t.modNode p (·.setSlot (slotOf pn old) nI))

/-- S6: the old NYT becomes historical and the NYT reference moves (R131, R134). -/
def retireNyt (t : CodeTree) (old nN : Handle) : CodeTree :=
  { t.modNode old ({ · with live := false, isNyt := false }) with nyt := nN }

/-- S7 and S8: register the leaf by symbol and the three new nodes by number (R131). -/
def registerNew (t : CodeTree) (sym : Symbol) (nN nS nI : Handle) (kN kS kI : Number) : CodeTree :=
  (((t.setSym sym nS).setNum kI nI).setNum kS nS).setNum kN nN

/-- S9: the counters (R131). -/
def advanceCounters (t : CodeTree) : CodeTree :=
  { t with nextNum := t.nextNum - 2, nextHandle := t.nextHandle + 3 }

/-- INSERT(sym) up to step S9: the tree just before its UPDATE (R131). -/
def graft (sym : Symbol) (t : CodeTree) : Option CodeTree := do
  let old ← t.node? t.nyt
  let t1 := allocate t sym old
  let t2 ← splice t1 t.nyt (t.nextHandle + 2) old.parent
  let t3 := retireNyt t2 t.nyt t.nextHandle
  let t4 := registerNew t3 sym t.nextHandle (t.nextHandle + 1) (t.nextHandle + 2)
    (newNyt t).number (newLeaf t sym).number old.number
  some (advanceCounters t4)

/-- INSERT(sym): grow the tree, then UPDATE from the new internal node (S10); the new symbol leaf's
handle comes with it (R131). -/
def insert (cfg : Config) (sym : Symbol) (t : CodeTree) : Option (CodeTree × Handle) := do
  let t' ← graft sym t
  let t'' ← update cfg (t.nextHandle + 2) t'
  some (t'', t.nextHandle + 1)

end Sys2Proof.Machine
end

