-- ==== Sys2Proof/Machine/Codec.lean ====
section
/-! DEFINITION. ENC, DEC and PUSH (40_encode_decode.md). -/

namespace Sys2Proof.Machine

/-- The saturation check of ENC and DEC: the root's count is COUNT_MAX (R101). -/
def saturated (cfg : Config) (t : CodeTree) : Bool :=
  (t.node? t.root).any fun r => r.count = cfg.countMax

/-- The tree change of one coded symbol and the leaf it coded: INSERT on a first occurrence, UPDATE of
the symbol's leaf otherwise (R100, R115). -/
def codeSymbol (cfg : Config) (sym : Symbol) (t : CodeTree) : Option (CodeTree × Handle) :=
  if t.symEntry sym = NONE then insert cfg sym t
  else do
    let t' ← update cfg (t.symEntry sym) t
    some (t', t.symEntry sym)

/-- The tree and LAST after coding the symbols in order, each from a tree whose root is not saturated
(R100, R101). -/
def codeSession (cfg : Config) : List Symbol → CodeTree × Handle → Option (CodeTree × Handle)
  | [], p => some p
  | sym :: syms, p =>
    if saturated cfg p.1 then none
    else do
      let q ← codeSymbol cfg sym p.1
      codeSession cfg syms q

/-- The bits ENC emits, from the tree as it stands before the symbol: the escape path and the 8-bit
payload on a first occurrence, the leaf's path otherwise (R84, R100). -/
def codeword (sym : Symbol) (t : CodeTree) : Option Bits :=
  if t.symEntry sym = NONE then do
    let path ← codePath t t.nyt
    some (path ++ bitsMsb8 sym)
  else codePath t (t.symEntry sym)

/-- ENC sym (R100), its checks in the order of R217. -/
def execEnc (sym : Symbol) (s : State) : Host.Outcome State Fault Refusal :=
  if s.fault then .next (reject s)
  else if !treeWf s.cfg s.tree then .refused .illFormedState
  else if saturated s.cfg s.tree then .next (raise .countSaturated 0 s)
  else orRefuse do
    let out ← codeword sym s.tree
    let (t, leaf) ← codeSymbol s.cfg sym s.tree
    some (respond (okBitsOf out) (commitSymbol sym t leaf s))

/-- Where the walk of DEC ends (R110). -/
inductive Walk where
  /-- at a leaf, with the bits left and the number popped -/
  | leaf (cur : Handle) (nd : Node) (rest : Bits) (n : Nat)
  /-- the FIFO ran dry inside the path, after `n` bits (R111) -/
  | dry (n : Nat)
  /-- the tree breaks R160 to R168 -/
  | broken
deriving DecidableEq, Repr

/-- The walk of R110 from `cur` with `fuel` entries left to visit: an internal node pops one bit, a
leaf ends the walk. -/
def decWalk (t : CodeTree) : Nat → Handle → Bits → Nat → Walk
  | 0, _, _, _ => .broken
  | fuel + 1, cur, fifo, n =>
    match t.node? cur with
    | none => .broken
    | some nd =>
      if nd.left = NONE then .leaf cur nd fifo n
      else match fifo with
        | [] => .dry n
        | b :: rest => decWalk t fuel (if b then nd.right else nd.left) rest (n + 1)

/-- DEC at the NYT: the 8-bit payload, the duplicate check, INSERT (R110, R112, R113). `fifo` is what
the path left and `n` the bits it popped. -/
def decEscape (fifo : Bits) (n : Nat) (s : State) : Host.Outcome State Fault Refusal :=
  if fifo.length < 8 then .next (raise .incompleteStream n { s with inFifo := fifo })
  else if s.tree.symEntry (valMsb8 (fifo.take 8)) ≠ NONE then
    .next (raise .dupSymbol (n + 8) { s with inFifo := fifo.drop 8 })
  else orRefuse do
    let (t, leaf) ← insert s.cfg (valMsb8 (fifo.take 8)) s.tree
    some (respond (.okSym (valMsb8 (fifo.take 8)) (BitVec.ofNat 9 (n + 8)))
      (commitSymbol (valMsb8 (fifo.take 8)) t leaf { s with inFifo := fifo.drop 8 }))

/-- DEC at a symbol leaf: UPDATE (R110). -/
def decLeaf (cur : Handle) (sym : Symbol) (fifo : Bits) (n : Nat) (s : State) :
    Host.Outcome State Fault Refusal :=
  orRefuse do
    let t ← update s.cfg cur s.tree
    some (respond (.okSym sym (BitVec.ofNat 9 n)) (commitSymbol sym t cur { s with inFifo := fifo }))

/-- DEC (R110), its checks in the order of R217. -/
def execDec (s : State) : Host.Outcome State Fault Refusal :=
  if s.fault then .next (reject s)
  else if !treeWf s.cfg s.tree then .refused .illFormedState
  else if saturated s.cfg s.tree then .next (raise .countSaturated 0 s)
  else match decWalk s.tree (maxCodeLen + 1) s.tree.root s.inFifo 0 with
    | .broken => .refused .illFormedState
    | .dry n => .next (raise .incompleteStream n { s with inFifo := [] })
    | .leaf cur nd fifo n =>
      if nd.isNyt then decEscape fifo n s else decLeaf cur nd.sym fifo n s

/-- PUSH n, bits: all the bits or none (R120, R121). -/
def execPush (n : Nat) (bits : BitVec 8) (s : State) : Host.Outcome State Fault Refusal :=
  if s.fault then .next (reject s)
  else if s.inFifo.length + n > s.cfg.inDepth then .next (raise .inOverflow 0 s)
  else .next (respond .ok { s with inFifo := s.inFifo ++ topBits n bits })

end Sys2Proof.Machine
end

