-- ==== Sys2Proof/Machine/Query.lean ====
section
/-! DEFINITION. RESET and the register, map and status queries (43_host_interface.md). -/

namespace Sys2Proof.Machine

/-- RESET: the reset procedure, also while FAULT = 1 (R180). -/
def execReset (s : State) : Host.Outcome State Fault Refusal :=
  .next (respond .ok (resetProcedure s))

/-- RDROOT (R181). -/
def execRdroot (s : State) : Host.Outcome State Fault Refusal :=
  .next (respond (.okHandle s.tree.root) s)

/-- RDNYT (R182). -/
def execRdnyt (s : State) : Host.Outcome State Fault Refusal :=
  .next (respond (.okHandle s.tree.nyt) s)

/-- RDLAST (R183). -/
def execRdlast (s : State) : Host.Outcome State Fault Refusal :=
  .next (respond (.okHandle s.last) s)

/-- RDSYM sym (R184). -/
def execRdsym (sym : Symbol) (s : State) : Host.Outcome State Fault Refusal :=
  .next (respond (.okHandle (s.tree.symEntry sym)) s)

/-- RDNODE h: any allocated entry, live or historical (R185). An entry below NEXT_HANDLE that is
absent belongs to no state a command produces (R22, R220; log entry 5). -/
def execRdnode (h : Handle) (s : State) : Host.Outcome State Fault Refusal :=
  if h.toNat ≥ s.tree.nextHandle.toNat then .next (raise .badHandle 0 s)
  else orRefuse do
    let nd ← s.tree.node? h
    some (respond (.okNode nd) s)

/-- RDNUM k (R186). -/
def execRdnum (k : Number) (s : State) : Host.Outcome State Fault Refusal :=
  if k.toNat > s.cfg.maxNumber then .next (raise .badNumber 0 s)
  else .next (respond (.okHandle (s.tree.numEntry k.toNat)) s)

/-- RDSTAT: the status word of R31 (R187). -/
def execRdstat (s : State) : Host.Outcome State Fault Refusal :=
  .next (respond (.okStatus (statusWord s.tree.nextHandle (BitVec.ofNat 16 s.inFifo.length)
    (BitVec.ofNat 9 s.tree.nsym) s.errCode s.fault)) s)

end Sys2Proof.Machine
end

