-- ==== Sys2Proof/Machine/Dispatch.lean ====
section
/-! DEFINITION. The meaning of each command, one arm per constructor of Instr. -/

namespace Sys2Proof.Machine

def exec (i : Instr) (s : State) : Host.Outcome State Fault Refusal :=
  match i with
  | .reset => Sys2Proof.Machine.execReset s
  | .enc sym => Sys2Proof.Machine.execEnc sym s
  | .dec => Sys2Proof.Machine.execDec s
  | .push n bits => Sys2Proof.Machine.execPush n bits s
  | .rdroot => Sys2Proof.Machine.execRdroot s
  | .rdnyt => Sys2Proof.Machine.execRdnyt s
  | .rdlast => Sys2Proof.Machine.execRdlast s
  | .rdsym sym => Sys2Proof.Machine.execRdsym sym s
  | .rdnode h => Sys2Proof.Machine.execRdnode h s
  | .code h => Sys2Proof.Machine.execCode h s
  | .rdnum k => Sys2Proof.Machine.execRdnum k s
  | .rdstat => Sys2Proof.Machine.execRdstat s

end Sys2Proof.Machine
end

