-- ==== Sys2Proof/Machine/Invariant.lean ====
section
/-! DEFINITION. The invariant of the whole state: what holds after reset and after every command. A step
refuses every other state (60_exceptions.md R220, D26, I2; log entry 5). -/

namespace Sys2Proof.Machine

/-- FAULT and ERRCODE agree: no code without a fault, and only the codes 1..7 of R210 (R30, R31). -/
def wfStatus (s : State) : Bool :=
  if s.fault then decide (1 ≤ s.errCode.toNat) && decide (s.errCode.toNat ≤ 7)
  else decide (s.errCode = 0)

/-- An escape and the bits now in the FIFO fit in it together, so DEC can have popped the escape and left
those bits (R32, R113). -/
def escapeFitted (s : State) : Bool :=
  (codePath s.tree s.tree.nyt).any fun path => path.length + 8 + s.inFifo.length ≤ s.cfg.inDepth

/-- A command can have raised the recorded first fault and left the state as it is, since ENC, DEC and PUSH
change nothing after it (R213): DEC at a short payload or in the path (R111, R112), DEC of an escape that
names a symbol with a leaf (R113), ENC or DEC at a saturated root (R101), PUSH of at most 8 bits (R121).
Codes 1, 6 and 7 can be raised in every state (R225, R185, R186) (DEDUCED, log entry 5). -/
def wfFirstFault (s : State) : Bool :=
  match s.errCode.toNat with
  | 2 => !saturated s.cfg s.tree && decide (s.inFifo.length < 8)
  | 3 => !saturated s.cfg s.tree && decide (s.tree.symMap ≠ []) && escapeFitted s
  | 4 => saturated s.cfg s.tree
  | 5 => decide (s.cfg.inDepth < s.inFifo.length + 8)
  | _ => true

/-- The tree and LAST are those of the symbols coded since reset (R20, R131, R150, R169). -/
def wfSession (s : State) : Bool :=
  decide (codeSession s.cfg s.coded (CodeTree.initial s.cfg, NONE) = some (s.tree, s.last))

/-- LAST is NONE until the first symbol is coded, and then a symbol leaf (R29, R183). -/
def wfLast (s : State) : Bool :=
  if s.tree.symMap = [] then decide (s.last = NONE)
  else s.tree.symMap.any fun e => decide (e.2 = s.last)

/-- The state is one that reset and commands produce: the FIFO is within its capacity (R32), FAULT and
ERRCODE agree (R30), the recorded fault is one that a command can have raised there, and the tree and LAST
are those of the session. The checks of the tree (R160 to R168) and of LAST (R29) follow for a legal choice
of the parameters; they stand here so that the invariant says them. -/
def State.inv (s : State) : Bool :=
  decide (s.inFifo.length ≤ s.cfg.inDepth) && wfStatus s && treeWf s.cfg s.tree && wfLast s
    && wfFirstFault s && wfSession s

/-- A state that no command can produce has no meaning, whatever the command (R220, D26; log entry 5). -/
def ifMeaningful (s : State) (o : Host.Outcome State Fault Refusal) :
    Host.Outcome State Fault Refusal :=
  if s.inv then o else .refused .illFormedState

end Sys2Proof.Machine
end

