-- ==== Sys2Proof/Machine/Step.lean ====
section
/-! DEFINITION. One step: the engine takes the host's next command word, decodes it and executes it to
completion (10_state.md R34, 20_memory.md R59, 70_reset_and_hazards.md R251). -/

namespace Sys2Proof.Machine

/-- One command. A state that reset and commands cannot produce is refused, whatever the word (R220; log
entry 5). With no word delivered the engine waits (R243; log entry 2). -/
def step (s : State) : Host.Outcome State Fault Refusal :=
  match takeWord s with
  | none => ifMeaningful s (.next s)
  | some (w, s') =>
    ifMeaningful s <| match decode w with
      | .command i => exec i s'
      | .illegal _ => .next (illegalWord s')

/-- The host delivers the table word next: it stands before every other word of the stream (log entry 2). -/
def State.withFetchWord (s : State) (nbits w : Nat) : State :=
  { s with cmds := tableWord nbits w :: s.cmds }

end Sys2Proof.Machine
end

