-- ==== Sys2Proof/Machine/Drivers.lean ====
section
/-! DEFINITION. The host side of the command interface (30_encoding.md R90 to R93, 70_reset_and_hazards.md
R251, R257): programs of the host, not hardware (R6). -/

namespace Sys2Proof.Machine

/-- Deliver one word and wait for its response (R251). -/
def issue (w : Word) (s : State) : Host.Outcome State Fault Refusal :=
  step { s with cmds := w :: s.cmds }

/-- A run: deliver the words one at a time (R257). -/
def runWords : List Word → State → Host.Outcome State Fault Refusal
  | [], s => .next s
  | w :: ws, s =>
    match issue w s with
    | .next t => runWords ws t
    | .fault f => .fault f
    | .refused r => .refused r

/-- A bit string in pieces of 8, the last one shorter when the length is no multiple of 8 (R90);
`fuel` bounds the number of pieces. -/
def chunks8 : Nat → Bits → List Bits
  | 0, _ => []
  | fuel + 1, s => if s = [] then [] else s.take 8 :: chunks8 fuel (s.drop 8)

/-- `PUSH "b..."` of 1 to 8 bits: left-aligned in the operand byte, lower bits 0 (R89). -/
def pushOf (s : Bits) : Instr :=
  .push s.length (valMsb8 (s ++ List.replicate (8 - s.length) false))

/-- `PUSHS "s"` (R90). -/
def pushs (s : Bits) : List Instr := (chunks8 s.length s).map pushOf

/-- `ENUMSYM` (R93). -/
def enumsym : List Instr := (List.range 256).map fun k => .rdsym (BitVec.ofNat 8 k)

/-- What a host loop ends with: what it collected, the response that stopped it if one did, and the
engine's state. -/
structure HostResult (α : Type) where
  out : α
  stopped : Option Response
  final : State
deriving DecidableEq, Repr

/-- `ENCS s1, ..., sm`: one ENC per symbol, the OK_BITS payloads concatenated after `out`; any other
response stops it (R91). `none` when the engine's state has no meaning (log entry 5). -/
def encs : List Symbol → Bits → State → Option (HostResult Bits)
  | [], out, s => some { out, stopped := none, final := s }
  | sym :: syms, out, s =>
    match issue (encode (.enc sym)) s with
    | .next t =>
      match t.resp with
      | some (.okBits _ bits) => encs syms (out ++ bits) t
      | r => some { out, stopped := r, final := t }
    | .fault _ | .refused _ => none

/-- `s[47:32]` of the status word: IN_COUNT (R31). -/
def statusInCount (s : BitVec 64) : BitVec 16 := s.extractLsb' 32 16

/-- `DECALL`: RDSTAT, stop when IN_COUNT is 0, DEC, repeat (R92). Each successful DEC pops at least
one bit, so a `fuel` above IN_COUNT never runs out; `none` when it does, or when the engine's state
has no meaning (log entries 5 and 8). -/
def decall : Nat → List Symbol → State → Option (HostResult (List Symbol))
  | 0, _, _ => none
  | fuel + 1, out, s =>
    match issue (encode .rdstat) s with
    | .next t =>
      match t.resp with
      | some (.okStatus st) =>
        if statusInCount st = 0 then some { out, stopped := none, final := t }
        else match issue (encode .dec) t with
          | .next u =>
            match u.resp with
            | some (.okSym sym _) => decall fuel (out ++ [sym]) u
            | r => some { out, stopped := r, final := u }
          | .fault _ | .refused _ => none
      | r => some { out, stopped := r, final := t }
    | .fault _ | .refused _ => none

end Sys2Proof.Machine
end

