-- ==== Sys2Proof/Safety.lean ====
section
/-! DEFINITION. What a claim about a run speaks of: the launch view of a step (60_exceptions.md R227) and
clean runs (70_reset_and_hazards.md R257). -/

namespace Sys2Proof.Machine

/-- The fault a response reports, if it is an `ERR` (R211). -/
def Response.faultCode : Response → Option Fault
  | .err code _ => some code
  | .ok | .okBits _ _ | .okSym _ _ | .okHandle _ | .okNode _ | .okStatus _ | .rejected => none

/-- The eight queries of 43_host_interface.md R188. -/
def isQuery : Instr → Bool
  | .rdroot | .rdnyt | .rdlast | .rdsym _ | .rdnode _ | .code _ | .rdnum _ | .rdstat => true
  | .reset | .enc _ | .dec | .push _ _ => false

/-- The step of a launch: a session that ends at its first fault (R227). `step` itself goes on to the
state of R215 with the `ERR` response in it (log entry 4). -/
def launchStep (s : State) : Host.Outcome State Fault Refusal :=
  match s.cmds, step s with
  | _ :: _, .next t =>
    match t.resp.bind Response.faultCode with
    | some code => .fault code
    | none => .next t
  | _, o => o

/-- Where UPDATE starts (R150): at a symbol leaf of a tree that commands can produce, or, in INSERT, at the
new internal node of the tree as steps S1 to S9 leave it (R131). -/
def UpdateStart (cfg : Config) (t : CodeTree) (x : Handle) : Prop :=
  (treeWf cfg t = true ∧ ∃ leaf, t.node? x = some leaf ∧ leaf.symv = true) ∨
  ∃ t0 sym, treeWf cfg t0 = true ∧ t0.symEntry sym = NONE ∧ graft sym t0 = some t ∧
    x = t0.nextHandle + 2

/-- A run ends clean if FAULT = 0 in its final state (R257). -/
def State.clean (s : State) : Bool := !s.fault

end Sys2Proof.Machine
end

