-- ==== Sys2Proof/Certificates/Slice0/Obligations.lean ====
section
/-! DEFINITION. The statements for the provers. Each docstring names the rules of the spec it formalises. -/

open Sys2Proof Sys2Proof.Machine

/-! ### Encoding -/

/-- Decoding the word of a well-formed command gives the command back (30_encoding.md sections 1 to 3 and 6). -/
def Obligations.DecodeOfEncodeIsTheCommand : Prop :=
  ∀ i : Instr, i.wellFormed = true → decode (encode i) = .command i

/-- A legal word is the word of the one command it decodes to: no bit is dropped, PUSH's ignored bits
included (30_encoding.md R72, R80, R89). -/
def Obligations.EncodeOfDecodeIsTheWord : Prop :=
  ∀ (w : Word) (i : Instr), decode w = .command i → i.wellFormed = true ∧ encode i = w

/-- A word is illegal exactly when OP is 0x0, 0xD, 0xE or 0xF, or a reserved bit of its format is 1
(30_encoding.md R71, R78). -/
def Obligations.IllegalWordsAreTheReservedEncodings : Prop :=
  ∀ w : Word, (∃ why, decode w = .illegal why) ↔
    (w.extractLsb' 12 4 ∈ [0x0#4, 0xD#4, 0xE#4, 0xF#4] ∨
      (w.extractLsb' 12 4 ∈ [0x1#4, 0x3#4, 0x5#4, 0x6#4, 0x7#4, 0xC#4] ∧ w.extractLsb' 0 12 ≠ 0) ∨
      (w.extractLsb' 12 4 ∈ [0x2#4, 0x8#4] ∧ w.extractLsb' 8 4 ≠ 0) ∨
      (w.extractLsb' 12 4 = 0x4#4 ∧ w.getLsbD 11 = true) ∨
      (w.extractLsb' 12 4 ∈ [0x9#4, 0xA#4, 0xB#4] ∧ w.extractLsb' 10 2 ≠ 0))

/-- A legal word is selected by the row of its own command and by no other row of the opcode map; an
illegal word is selected by none (30_encoding.md R77). -/
def Obligations.EachWordIsSelectedByItsOwnRowAlone : Prop :=
  ∀ w : Word,
    (∀ i, decode w = .command i → opcodeTable.filter (fun r => r.selects w) = [opcodeRow i]) ∧
    (∀ why, decode w = .illegal why → opcodeTable.filter (fun r => r.selects w) = [])

/-- There are 5638 legal words (30_encoding.md R77). -/
def Obligations.LegalWordsNumber5638 : Prop :=
  ((List.range 65536).filter fun w => (decodeTableWord 16 w).isSome).length = 5638

/-- One word of each row, as 30_encoding.md R77, R89 and R90 and the vectors of 95_test_vectors.md write
it, decodes to its command. -/
def Obligations.WordsDecodeAsTheSpecWritesThem : Prop :=
  decode 0x1000#16 = .command .reset ∧ decode 0x2041#16 = .command (.enc 0x41) ∧
  decode 0x3000#16 = .command .dec ∧ decode 0x4636#16 = .command (.push 7 0x36) ∧
  decode 0x4080#16 = .command (.push 1 0x80) ∧ decode 0x5000#16 = .command .rdroot ∧
  decode 0x6000#16 = .command .rdnyt ∧ decode 0x7000#16 = .command .rdlast ∧
  decode 0x804C#16 = .command (.rdsym 0x4C) ∧ decode 0x93FF#16 = .command (.rdnode 1023) ∧
  decode 0xA00D#16 = .command (.code 13) ∧ decode 0xB1FF#16 = .command (.rdnum 511) ∧
  decode 0xC000#16 = .command .rdstat ∧ decode 0x2141#16 = .illegal .reservedBits ∧
  decode 0x4800#16 = .illegal .reservedBits ∧ decode 0xA40A#16 = .illegal .reservedBits ∧
  decode 0xD000#16 = .illegal .opcode ∧ decode 0x0000#16 = .illegal .opcode

/-! ### The step, reset, rejection and faults -/

/-- From every state that meets the invariant, when the host's next word decodes to a command, a step takes
that one word and is the command's meaning (10_state.md R34, 20_memory.md R59; the stream of words is the
model's, log entry 2). -/
def Obligations.StepRunsTheDeliveredCommand : Prop :=
  ∀ (s : State) (w : Word) (ws : List Word) (i : Instr), s.inv = true → s.cmds = w :: ws →
    decode w = .command i → step s = exec i { s with cmds := ws }

/-- A state that fails the invariant is refused, whatever word is delivered and also with none: RESET, PUSH,
the queries and illegal words have no effect there either (60_exceptions.md R220, D26; log entry 5). Which
states those are, EveryAdmittedStateIsProducedByCommands says. -/
def Obligations.StepRefusesAStateThatFailsTheInvariant : Prop :=
  ∀ (s : State) (words : List Word), s.inv = false →
    step { s with cmds := words } = .refused .illFormedState

/-- With no word delivered the engine waits: nothing changes (70_reset_and_hazards.md R243; the model's
choice, log entry 2). -/
def Obligations.StepWithNoWordDeliveredWaits : Prop :=
  ∀ s : State, s.inv = true → s.cmds = [] → step s = .next s

/-- In every state that meets the invariant, an illegal word records ILLEGAL_CMD, keeping the session's first fault, and responds
`ERR(ILLEGAL_CMD, 0)`; it writes nothing else, even when its OP names a command, and it is never
REJECTED (60_exceptions.md R225). -/
def Obligations.IllegalWordRecordsIllegalCmd : Prop :=
  (∀ (s : State) (w : Word) (ws : List Word) (why : Illegal), s.inv = true → s.cmds = w :: ws →
    decode w = .illegal why →
    step s = .next { s with cmds := ws, fault := true,
                            errCode := if s.fault then s.errCode else 1,
                            resp := some (.err .illegalCmd 0) }) ∧
  decode 0x2100#16 = .illegal .reservedBits

/-- The state after power-on, field by field, for every legal choice of the parameters, and the same after
the RESET command (10_state.md R37). -/
def Obligations.InitialStateIsTheResetState : Prop :=
  (∀ cfg : Config, cfg.wf = true →
    (∃ nd, (State.init cfg).tree.arena = [nd] ∧ nd.live = true ∧ nd.isNyt = true ∧ nd.symv = false ∧
      nd.sym = 0 ∧ nd.count = 0 ∧ nd.number.toNat = cfg.maxNumber ∧ nd.left = NONE ∧
      nd.right = NONE ∧ nd.parent = NONE) ∧
    (State.init cfg).tree.nextHandle = 1 ∧ (State.init cfg).tree.root = 0 ∧
    (State.init cfg).tree.nyt = 0 ∧
    (∀ sym, (State.init cfg).tree.symEntry sym = NONE) ∧
    (State.init cfg).tree.numEntry cfg.maxNumber = 0 ∧
    (∀ k, k < cfg.maxNumber → (State.init cfg).tree.numEntry k = NONE) ∧
    (State.init cfg).tree.nextNum.toInt = (cfg.maxNumber : Int) - 1 ∧
    (State.init cfg).last = NONE ∧ (State.init cfg).fault = false ∧ (State.init cfg).errCode = 0 ∧
    (State.init cfg).inFifo = []) ∧
  (∀ s : State, ∃ t, exec .reset s = .next t ∧ t.tree = (State.init s.cfg).tree ∧ t.last = NONE ∧
    t.fault = false ∧ t.errCode = 0 ∧ t.inFifo = [])

/-- `State.reset` is the engine after power-on with the default parameters of 00_scope.md R7, and with no
word delivered, no response and no coded symbol yet (the model's choices, log entries 1, 2, 3 and 13). -/
def Obligations.StateResetHasTheDefaultParameters : Prop :=
  State.reset = State.init { maxNumber := 512, countWidth := 32, inDepth := 1024 } ∧
  State.reset.cmds = [] ∧ State.reset.resp = none ∧ State.reset.coded = []

/-- The RESET command, in every state and while FAULT = 1 too, reaches the state of power-on with the same
parameters and responds OK (43_host_interface.md R180, 70_reset_and_hazards.md R240). That it leaves the
words still to be delivered is the model's choice (log entry 2). -/
def Obligations.ResetCommandReachesThePowerOnState : Prop :=
  ∀ s : State, exec .reset s = .next { State.init s.cfg with cmds := s.cmds, resp := some .ok }

/-- While FAULT = 1, ENC, DEC and PUSH respond REJECTED and change nothing; RESET starts a new session; the
queries execute as without the fault: RDSTAT reads the status, and each other one answers exactly when it
would with FAULT clear, and then responds the same; an illegal word still responds `ERR(ILLEGAL_CMD, 0)` (60_exceptions.md R213). That RESET leaves the words
still to be delivered, and the stream the illegal word is taken from, are the model's choice (log entry 2). -/
def Obligations.FaultedEngineRejectsCodersAndPush : Prop :=
  ∀ s : State, s.fault = true →
    (∀ sym, exec (.enc sym) s = .next { s with resp := some .rejected }) ∧
    exec .dec s = .next { s with resp := some .rejected } ∧
    (∀ n bits, exec (.push n bits) s = .next { s with resp := some .rejected }) ∧
    exec .reset s = .next { State.init s.cfg with cmds := s.cmds, resp := some .ok } ∧
    (∃ st, exec .rdstat s = .next { s with resp := some (.okStatus st) }) ∧
    (∀ i t, isQuery i = true → i ≠ .rdstat → exec i s = .next t → t.resp ≠ some .rejected ∧
      ∃ u, exec i { s with fault := false } = .next u ∧ t.resp = u.resp) ∧
    (∀ i u, isQuery i = true → i ≠ .rdstat → exec i { s with fault := false } = .next u →
      ∃ t, exec i s = .next t ∧ t.resp = u.resp) ∧
    (∀ w ws why, s.inv = true → s.cmds = w :: ws → decode w = .illegal why →
      step s = .next { s with cmds := ws, resp := some (.err .illegalCmd 0) })

/-- FAULT is sticky and ERRCODE keeps the first fault's code: over one word other than RESET's, a
recorded fault stays as it is, and an engine without one has a fault afterwards exactly when the response
is an ERR, whose code is then recorded (60_exceptions.md R212). -/
def Obligations.ErrCodeKeepsTheFirstFaultUntilReset : Prop :=
  ∀ (s t : State) (w : Word) (ws : List Word), s.cmds = w :: ws → w ≠ 0x1000#16 → step s = .next t →
    (s.fault = true → t.fault = true ∧ t.errCode = s.errCode) ∧
    (s.fault = false →
      (∃ c n, t.resp = some (.err c n) ∧ t.fault = true ∧ t.errCode = c.code) ∨
      (t.fault = false ∧ t.errCode = s.errCode ∧ ∀ c n, t.resp ≠ some (.err c n)))

/-- Faults are precise: a command that responds ERR leaves the tree, the maps, the counters and LAST as
they were, and takes from IN_FIFO exactly the bits it reports. INCOMPLETE_STREAM in the path leaves the
FIFO empty at an internal node, at the payload it leaves 0 to 7 bits at the NYT; DUP_SYMBOL popped path + 8
bits; every other fault popped none (60_exceptions.md R215). -/
def Obligations.FaultsArePrecise : Prop :=
  ∀ (s t : State) (c : Fault) (n : BitVec 9), s.cmds ≠ [] → step s = .next t →
    t.resp = some (.err c n) →
    t.tree = s.tree ∧ t.last = s.last ∧ t.fault = true ∧
    t.errCode = (if s.fault then s.errCode else c.code) ∧
    n.toNat ≤ s.inFifo.length ∧ t.inFifo = s.inFifo.drop n.toNat ∧
    (c ≠ .incompleteStream → c ≠ .dupSymbol → n = 0) ∧
    (c = .incompleteStream → ∃ x nd, s.tree.node? x = some nd ∧
      follow s.tree s.tree.root (s.inFifo.take n.toNat) = some x ∧
      ((nd.left ≠ NONE ∧ t.inFifo = []) ∨
        (nd.left = NONE ∧ nd.isNyt = true ∧ t.inFifo.length < 8))) ∧
    (c = .dupSymbol → 8 ≤ n.toNat ∧ ∃ x nd, s.tree.node? x = some nd ∧ nd.isNyt = true ∧
      follow s.tree s.tree.root (s.inFifo.take (n.toNat - 8)) = some x ∧
      s.tree.symEntry (valMsb8 ((s.inFifo.drop (n.toNat - 8)).take 8)) ≠ NONE)

/-- ENC and DEC on a tree whose root's count is COUNT_MAX raise COUNT_SATURATED before any change,
whatever the symbol and the FIFO (40_encode_decode.md R101, 60_exceptions.md R217). -/
def Obligations.SaturatedRootStopsEncAndDec : Prop :=
  ∀ (s : State) (r : Node), s.fault = false → treeWf s.cfg s.tree = true →
    s.tree.node? s.tree.root = some r → r.count = s.cfg.countMax →
    (∀ sym, exec (.enc sym) s = .next { s with fault := true, errCode := 4,
                                               resp := some (.err .countSaturated 0) }) ∧
    exec .dec s = .next { s with fault := true, errCode := 4, resp := some (.err .countSaturated 0) }

/-! ### ENC, DEC and PUSH -/

/-- The first symbol of a session, for every symbol and every legal choice of the parameters: ENC emits
the bare 8-bit payload and builds the three-node tree (40_encode_decode.md R100, 41_insert_update.md R131). The
list of coded symbols is the model's own (log entry 13). -/
def Obligations.FirstEncOfASessionEmitsTheBarePayload : Prop :=
  ∀ (s : State) (sym : Symbol), s.cfg.wf = true → s.tree = CodeTree.initial s.cfg → s.fault = false →
    exec (.enc sym) s = .next { s with
      last := 2
      coded := s.coded ++ [sym]
      resp := some (.okBits 8 (bitsMsb8 sym))
      tree :=
        { arena :=
            [{ Node.initial s.cfg.maxNumber with live := false, isNyt := false },
             { live := true, isNyt := true, symv := false, sym := 0, count := 0,
               number := BitVec.ofNat 10 (s.cfg.maxNumber - 2), left := NONE, right := NONE, parent := 3 },
             { live := true, isNyt := false, symv := true, sym := sym, count := 1,
               number := BitVec.ofNat 10 (s.cfg.maxNumber - 1), left := NONE, right := NONE, parent := 3 },
             { live := true, isNyt := false, symv := false, sym := 0, count := 2,
               number := BitVec.ofNat 10 s.cfg.maxNumber, left := 1, right := 2, parent := NONE }]
          nextHandle := 4, root := 3, nyt := 1
          symMap := [(sym.toNat, 2)]
          numMap := [(s.cfg.maxNumber - 2, 1), (s.cfg.maxNumber - 1, 2), (s.cfg.maxNumber, 3)]
          nextNum := BitVec.ofNat 11 (s.cfg.maxNumber - 3) } }

/-- The first codeword of a session: DEC pops exactly 8 bits, answers their symbol, and makes the same
tree as the ENC of that symbol (40_encode_decode.md R110). The list of coded symbols is the model's own (log
entry 13). -/
def Obligations.FirstDecOfASessionPopsEightBits : Prop :=
  ∀ (s e : State) (sym : Symbol) (rest : Bits), s.cfg.wf = true → s.tree = CodeTree.initial s.cfg →
    s.fault = false → s.inFifo = bitsMsb8 sym ++ rest → exec (.enc sym) s = .next e →
    exec .dec s = .next { s with tree := e.tree, last := 2, inFifo := rest,
                                 coded := s.coded ++ [sym], resp := some (.okSym sym 8) }

/-- A first occurrence: ENC emits the NYT's path-code and the 8-bit payload, `len + 8` bits and at most 263
of them, inserts the symbol, sets LAST to the new leaf, and changes nothing else but the model's own list of
coded symbols (log entry 13) (40_encode_decode.md R100, R102). -/
def Obligations.EncOfAFirstOccurrenceEscapesAndInserts : Prop :=
  ∀ (s : State) (sym : Symbol) (r : Node), s.fault = false → treeWf s.cfg s.tree = true →
    s.tree.node? s.tree.root = some r → r.count ≠ s.cfg.countMax → s.tree.symEntry sym = NONE →
    ∃ path t, codePath s.tree s.tree.nyt = some path ∧ path.length + 8 ≤ 263 ∧
      insert s.cfg sym s.tree = some (t, s.tree.nextHandle + 1) ∧
      exec (.enc sym) s = .next { s with
        tree := t, last := s.tree.nextHandle + 1, coded := s.coded ++ [sym],
        resp := some (.okBits (BitVec.ofNat 9 (path.length + 8)) (path ++ bitsMsb8 sym)) }

/-- A repeat occurrence: ENC emits the leaf's path-code, 1 to 256 bits, updates from the leaf, sets LAST to
it, and changes nothing else but the model's own list of coded symbols (log entry 13)
(40_encode_decode.md R100). -/
def Obligations.EncOfARepeatEmitsTheLeafsCode : Prop :=
  ∀ (s : State) (sym : Symbol) (r : Node), s.fault = false → treeWf s.cfg s.tree = true →
    s.tree.node? s.tree.root = some r → r.count ≠ s.cfg.countMax → s.tree.symEntry sym ≠ NONE →
    ∃ path t, codePath s.tree (s.tree.symEntry sym) = some path ∧ 1 ≤ path.length ∧
      path.length ≤ 256 ∧ update s.cfg (s.tree.symEntry sym) s.tree = some t ∧
      exec (.enc sym) s = .next { s with
        tree := t, last := s.tree.symEntry sym, coded := s.coded ++ [sym],
        resp := some (.okBits (BitVec.ofNat 9 path.length) path) }

/-- INSERT always succeeds for a symbol without a leaf: the new NYT, leaf and internal node stand at the
next three handles with the numbers of R132 and the counts of R133, the old NYT is historical, and the
registers and SYMMAP are as steps S5 to S9 write them (41_insert_update.md R131, R132, R133, R134). -/
def Obligations.InsertPlacesTheThreeNewNodes : Prop :=
  ∀ (cfg : Config) (t : CodeTree) (sym : Symbol) (old : Node), treeWf cfg t = true →
    t.symEntry sym = NONE → t.node? t.nyt = some old →
    ∃ t' nI, insert cfg sym t = some (t', t.nextHandle + 1) ∧
      t'.node? t.nextHandle = some
        { live := true, isNyt := true, symv := false, sym := 0, count := 0,
          number := BitVec.ofInt 10 (t.nextNum.toInt - 1), left := NONE, right := NONE,
          parent := t.nextHandle + 2 } ∧
      t'.node? (t.nextHandle + 1) = some
        { live := true, isNyt := false, symv := true, sym := sym, count := 1,
          number := BitVec.ofInt 10 t.nextNum.toInt, left := NONE, right := NONE,
          parent := t.nextHandle + 2 } ∧
      t'.node? (t.nextHandle + 2) = some nI ∧ nI.live = true ∧ nI.isNyt = false ∧ nI.symv = false ∧
      nI.count = 2 ∧ nI.left = t.nextHandle ∧ nI.right = t.nextHandle + 1 ∧
      t'.node? t.nyt = some { old with live := false, isNyt := false } ∧
      t'.nyt = t.nextHandle ∧ t'.nextHandle = t.nextHandle + 3 ∧
      t'.nextNum.toInt = t.nextNum.toInt - 2 ∧ t'.arena.length = t.arena.length + 3 ∧
      t'.root = (if old.parent = NONE then t.nextHandle + 2 else t.root) ∧
      t'.symEntry sym = t.nextHandle + 1 ∧
      ∀ sym', sym' ≠ sym → t'.symEntry sym' = t.symEntry sym'

/-- UPDATE from either of its starts, a symbol leaf or the new internal node of INSERT, always ends, and
adds exactly 1 to the count of each node on the starting node's path as it stands after the swaps, root
and starting node included, and to no other (41_insert_update.md R150, R151, R152). -/
def Obligations.UpdateAddsOneAlongThePathAfterTheSwaps : Prop :=
  ∀ (cfg : Config) (t : CodeTree) (x : Handle), UpdateStart cfg t x →
    ∃ t' path, update cfg x t = some t' ∧ codePath t' x = some path ∧
      ∀ h nd, t.node? h = some nd → ∃ nd', t'.node? h = some nd' ∧
        ((∃ k, k ≤ path.length ∧ follow t' t'.root (path.take k) = some h) →
          nd'.count = nd.count + 1) ∧
        ((∀ k, k ≤ path.length → follow t' t'.root (path.take k) ≠ some h) → nd'.count = nd.count)

/-- What ENC and DEC leave of every arena entry: its symbol; everything, if it is historical; all but
`live` and `is_nyt`, if it is the NYT; `live`, `is_nyt` and a count that grows by at most 1 otherwise. A
symbol keeps its leaf (10_state.md R22, R26, 41_insert_update.md R134, R145). -/
def Obligations.CodingKeepsEveryNodesIdentity : Prop :=
  ∀ (i : Instr) (s t : State), (i = .dec ∨ ∃ sym, i = .enc sym) → exec i s = .next t →
    (∀ h nd, s.tree.node? h = some nd → ∃ nd', t.tree.node? h = some nd' ∧
      nd'.symv = nd.symv ∧ nd'.sym = nd.sym ∧ (nd.live = false → nd' = nd) ∧
      (h = s.tree.nyt → nd' = nd ∨ nd' = { nd with live := false, isNyt := false }) ∧
      (h ≠ s.tree.nyt → nd'.live = nd.live ∧ nd'.isNyt = nd.isNyt) ∧
      (nd'.count = nd.count ∨ nd'.count = nd.count + 1)) ∧
    (∀ sym, s.tree.symEntry sym ≠ NONE → t.tree.symEntry sym = s.tree.symEntry sym)

/-- The mirror of ENC, both ways. When ENC would answer a codeword and the FIFO begins with it, DEC answers
the symbol, pops exactly the codeword, and leaves the very state ENC leaves. When DEC answers a symbol,
ENC of that symbol would emit exactly the bits DEC popped, and the state is the one that ENC leaves
(40_encode_decode.md R114, R115). -/
def Obligations.DecMirrorsEnc : Prop :=
  (∀ (s e : State) (sym : Symbol) (len : BitVec 9) (out rest : Bits),
    exec (.enc sym) s = .next e → e.resp = some (.okBits len out) → s.inFifo = out ++ rest →
    exec .dec s = .next { e with inFifo := rest, resp := some (.okSym sym len) }) ∧
  (∀ (s d : State) (sym : Symbol) (len : BitVec 9),
    exec .dec s = .next d → d.resp = some (.okSym sym len) →
    ∃ e out rest, exec (.enc sym) s = .next e ∧ e.resp = some (.okBits len out) ∧
      s.inFifo = out ++ rest ∧ out.length = len.toNat ∧
      d = { e with inFifo := rest, resp := some (.okSym sym len) })

/-- DEC of a complete codeword: a leaf's path-code is decoded to its symbol, the escape and 8 bits to a
new symbol; exactly those bits are popped, LAST is the coded leaf, and the tree is ENC's
(40_encode_decode.md R110, R114). The list of coded symbols is the model's own (log entry 13). -/
def Obligations.DecDecodesACompleteCodeword : Prop :=
  ∀ (s : State) (sym : Symbol) (r : Node) (path rest : Bits), s.fault = false →
    treeWf s.cfg s.tree = true → s.tree.node? s.tree.root = some r → r.count ≠ s.cfg.countMax →
    (s.tree.symEntry sym ≠ NONE → codePath s.tree (s.tree.symEntry sym) = some path →
      s.inFifo = path ++ rest →
      ∃ t, update s.cfg (s.tree.symEntry sym) s.tree = some t ∧
        exec .dec s = .next { s with
          tree := t, last := s.tree.symEntry sym, inFifo := rest, coded := s.coded ++ [sym],
          resp := some (.okSym sym (BitVec.ofNat 9 path.length)) }) ∧
    (s.tree.symEntry sym = NONE → codePath s.tree s.tree.nyt = some path →
      s.inFifo = path ++ bitsMsb8 sym ++ rest →
      ∃ t, insert s.cfg sym s.tree = some (t, s.tree.nextHandle + 1) ∧
        exec .dec s = .next { s with
          tree := t, last := s.tree.nextHandle + 1, inFifo := rest, coded := s.coded ++ [sym],
          resp := some (.okSym sym (BitVec.ofNat 9 (path.length + 8))) })

/-- Exhaustion inside the path: when the whole FIFO is the path to an internal node, DEC pops it all and
raises INCOMPLETE_STREAM with that many bits; nothing else changes (40_encode_decode.md R111). -/
def Obligations.DecThatRunsDryInThePath : Prop :=
  ∀ (s : State) (x : Handle) (r nd : Node), s.fault = false → treeWf s.cfg s.tree = true →
    s.tree.node? s.tree.root = some r → r.count ≠ s.cfg.countMax →
    s.tree.node? x = some nd → nd.left ≠ NONE → codePath s.tree x = some s.inFifo →
    exec .dec s = .next { s with
      inFifo := [], fault := true, errCode := 2,
      resp := some (.err .incompleteStream (BitVec.ofNat 9 s.inFifo.length)) }

/-- A short escape payload: when the FIFO holds the NYT's path-code and 0 to 7 bits more, DEC pops the
path, leaves the rest, and raises INCOMPLETE_STREAM with the path's length; nothing else changes
(40_encode_decode.md R112). -/
def Obligations.DecOfAShortPayloadLeavesItsBits : Prop :=
  ∀ (s : State) (r : Node) (path rest : Bits), s.fault = false → treeWf s.cfg s.tree = true →
    s.tree.node? s.tree.root = some r → r.count ≠ s.cfg.countMax →
    codePath s.tree s.tree.nyt = some path → s.inFifo = path ++ rest → rest.length < 8 →
    exec .dec s = .next { s with
      inFifo := rest, fault := true, errCode := 2,
      resp := some (.err .incompleteStream (BitVec.ofNat 9 path.length)) }

/-- An escape that names a symbol with a leaf: DEC pops path + 8 bits and raises DUP_SYMBOL with that
count; no second leaf is made and nothing else changes (40_encode_decode.md R113). -/
def Obligations.DecOfAPresentSymbolsEscapeFaults : Prop :=
  ∀ (s : State) (sym : Symbol) (r : Node) (path rest : Bits), s.fault = false →
    treeWf s.cfg s.tree = true → s.tree.node? s.tree.root = some r → r.count ≠ s.cfg.countMax →
    codePath s.tree s.tree.nyt = some path → s.inFifo = path ++ bitsMsb8 sym ++ rest →
    s.tree.symEntry sym ≠ NONE →
    exec .dec s = .next { s with
      inFifo := rest, fault := true, errCode := 3,
      resp := some (.err .dupSymbol (BitVec.ofNat 9 (path.length + 8))) }

/-- A PUSH that fits appends `bits[7], ..., bits[8-n]` to the tail of the FIFO, responds OK and changes
nothing else (40_encode_decode.md R120). -/
def Obligations.PushAppendsTheTopBits : Prop :=
  ∀ (s : State) (n : Nat) (bits : BitVec 8), s.fault = false → 1 ≤ n → n ≤ 8 →
    s.inFifo.length + n ≤ s.cfg.inDepth →
    ∃ pushed : Bits, pushed.length = n ∧ (∀ j, j < n → pushed[j]? = some (bits.getLsbD (7 - j))) ∧
      exec (.push n bits) s = .next { s with inFifo := s.inFifo ++ pushed, resp := some .ok }

/-- A PUSH whose bits do not all fit appends none of them and raises IN_OVERFLOW with `nbits = 0`
(40_encode_decode.md R121). -/
def Obligations.PushThatDoesNotFitAppendsNothing : Prop :=
  ∀ (s : State) (n : Nat) (bits : BitVec 8), s.fault = false → s.cfg.inDepth < s.inFifo.length + n →
    exec (.push n bits) s = .next { s with fault := true, errCode := 5,
                                           resp := some (.err .inOverflow 0) }

/-! ### The queries -/

/-- RDROOT, RDNYT, RDLAST and RDSYM answer the register or map entry they name, in every state, and change
nothing (43_host_interface.md R181, R182, R183, R184). -/
def Obligations.ReferenceQueriesAnswerTheRegisters : Prop :=
  ∀ (s : State),
    exec .rdroot s = .next { s with resp := some (.okHandle s.tree.root) } ∧
    exec .rdnyt s = .next { s with resp := some (.okHandle s.tree.nyt) } ∧
    exec .rdlast s = .next { s with resp := some (.okHandle s.last) } ∧
    ∀ sym, exec (.rdsym sym) s = .next { s with resp := some (.okHandle (s.tree.symEntry sym)) }

/-- RDNODE answers all nine fields of any allocated entry, live or historical, and raises BAD_HANDLE for a
handle at or above NEXT_HANDLE (43_host_interface.md R185). -/
def Obligations.RdnodeReadsEveryAllocatedEntry : Prop :=
  ∀ (s : State) (h : Handle), treeWf s.cfg s.tree = true →
    (h.toNat < s.tree.nextHandle.toNat → ∃ nd, s.tree.arena[h.toNat]? = some nd ∧
      exec (.rdnode h) s = .next { s with resp := some (.okNode nd) }) ∧
    (s.tree.nextHandle.toNat ≤ h.toNat →
      exec (.rdnode h) s = .next { s with fault := true,
                                          errCode := if s.fault then s.errCode else 6,
                                          resp := some (.err .badHandle 0) })

/-- RDNUM answers the NUMMAP entry of a number up to MAX_NUMBER, and raises BAD_NUMBER above it
(43_host_interface.md R186). -/
def Obligations.RdnumReadsTheNumberMap : Prop :=
  ∀ (s : State) (k : Number),
    (k.toNat ≤ s.cfg.maxNumber →
      exec (.rdnum k) s = .next { s with resp := some (.okHandle (s.tree.numEntry k.toNat)) }) ∧
    (s.cfg.maxNumber < k.toNat →
      exec (.rdnum k) s = .next { s with fault := true,
                                         errCode := if s.fault then s.errCode else 7,
                                         resp := some (.err .badNumber 0) })

/-- RDSTAT answers the 64-bit status word: each field at its place, the reserved bits 0, and the counts
exact where they are in range (10_state.md R31, 43_host_interface.md R187). -/
def Obligations.RdstatAssemblesTheStatusWord : Prop :=
  ∀ s : State, s.inFifo.length ≤ 65535 →
    ∃ st : BitVec 64, exec .rdstat s = .next { s with resp := some (.okStatus st) } ∧
      st.getLsbD 0 = s.fault ∧ st.extractLsb' 1 4 = s.errCode ∧ st.extractLsb' 5 3 = 0 ∧
      (st.extractLsb' 8 9).toNat = s.tree.nsym ∧ st.extractLsb' 17 15 = 0 ∧
      (st.extractLsb' 32 16).toNat = s.inFifo.length ∧
      st.extractLsb' 48 10 = s.tree.nextHandle ∧ st.extractLsb' 58 6 = 0

/-- CODE answers the path-code of a live node, leaf or internal, and raises BAD_HANDLE for an unallocated
handle and for a historical node (42_code_path.md R172). -/
def Obligations.CodeAnswersThePathCodeOfALiveNode : Prop :=
  ∀ (s : State) (h : Handle), treeWf s.cfg s.tree = true →
    (∀ nd, s.tree.node? h = some nd → nd.live = true →
      ∃ out, codePath s.tree h = some out ∧ out.length ≤ 256 ∧
        exec (.code h) s = .next { s with
          resp := some (.okBits (BitVec.ofNat 9 out.length) out) }) ∧
    ((s.tree.nextHandle.toNat ≤ h.toNat ∨ ∃ nd, s.tree.node? h = some nd ∧ nd.live = false) →
      exec (.code h) s = .next { s with fault := true,
                                        errCode := if s.fault then s.errCode else 6,
                                        resp := some (.err .badHandle 0) })

/-- On every tree that commands can produce each query is executed, FAULT = 1 or not. A query that succeeds
changes nothing but the response, and is never REJECTED; a query with a bad operand records BAD_HANDLE or
BAD_NUMBER and changes nothing else (43_host_interface.md R188). -/
def Obligations.QueriesChangeNothingOnSuccess : Prop :=
  (∀ (i : Instr) (s : State), isQuery i = true → treeWf s.cfg s.tree = true →
    ∃ t, exec i s = .next t) ∧
  ∀ (i : Instr) (s t : State), isQuery i = true → exec i s = .next t →
    (∃ r, r.faultCode = none ∧ r ≠ .rejected ∧ t = { s with resp := some r }) ∨
    (∃ c, (c = .badHandle ∨ c = .badNumber) ∧
      t = { s with fault := true, errCode := if s.fault then s.errCode else c.code,
                   resp := some (.err c 0) })

/-! ### The rebalance unit and the code-path tracer -/

/-- FIND_CANDIDATE answers the node of the highest number, above cur's own, whose count equals cur's, and
NONE when there is none; empty entries never match; on every tree that keeps the invariants it has an
answer (41_insert_update.md R140). -/
def Obligations.CandidateIsTheHighestNodeOfEqualCount : Prop :=
  (∀ (cfg : Config) (t : CodeTree) (cur : Handle) (nd : Node), treeWf cfg t = true →
    t.node? cur = some nd → ∃ c, findCandidate cfg t cur = some c) ∧
  ∀ (cfg : Config) (t : CodeTree) (cur c : Handle) (nd : Node), t.node? cur = some nd →
    findCandidate cfg t cur = some c →
    (c = NONE ∧ ∀ k, nd.number.toNat < k → k ≤ cfg.maxNumber → t.numEntry k ≠ NONE →
      ∃ x, t.node? (t.numEntry k) = some x ∧ x.count ≠ nd.count) ∨
    (∃ k x, nd.number.toNat < k ∧ k ≤ cfg.maxNumber ∧ t.numEntry k = c ∧ c ≠ NONE ∧
      t.node? c = some x ∧ x.count = nd.count ∧
      ∀ j, k < j → j ≤ cfg.maxNumber → t.numEntry j ≠ NONE →
        ∃ y, t.node? (t.numEntry j) = some y ∧ y.count ≠ nd.count)

/-- SWAP of two nodes under different parents, neither of them the other's parent: each takes the other's
child slot, parent and number, NUMMAP follows, and nothing else changes (41_insert_update.md R145). -/
def Obligations.SwapExchangesPositionsAndNumbers : Prop :=
  ∀ (t : CodeTree) (a b : Handle) (na nb pa pb : Node), a ≠ NONE → b ≠ NONE → a ≠ b →
    t.node? a = some na → t.node? b = some nb → t.node? na.parent = some pa →
    t.node? nb.parent = some pb → na.parent ≠ nb.parent → na.parent ≠ a → na.parent ≠ b →
    nb.parent ≠ a → nb.parent ≠ b → na.number ≠ nb.number →
    ∃ t', swap t a b = some t' ∧
      t'.node? a = some { na with parent := nb.parent, number := nb.number } ∧
      t'.node? b = some { nb with parent := na.parent, number := na.number } ∧
      t'.node? na.parent = some (if pa.left = a then { pa with left := b } else { pa with right := b }) ∧
      t'.node? nb.parent = some (if pb.left = b then { pb with left := a } else { pb with right := a }) ∧
      (∀ h, h ≠ a → h ≠ b → h ≠ na.parent → h ≠ nb.parent → t'.node? h = t.node? h) ∧
      t'.numEntry nb.number.toNat = a ∧ t'.numEntry na.number.toNat = b ∧
      (∀ k, k ≠ na.number.toNat → k ≠ nb.number.toNat → t'.numEntry k = t.numEntry k) ∧
      t'.symMap = t.symMap ∧ t'.root = t.root ∧ t'.nyt = t.nyt ∧ t'.nextHandle = t.nextHandle ∧
      t'.nextNum = t.nextNum ∧ t'.arena.length = t.arena.length

/-- SWAP of two siblings exchanges their parent's two children and their numbers, and leaves both parent
links as they were, and nothing else changes (41_insert_update.md R145, R146). -/
def Obligations.SiblingSwapExchangesTheTwoChildren : Prop :=
  ∀ (t : CodeTree) (a b p : Handle) (na nb pn : Node), a ≠ NONE → b ≠ NONE → a ≠ b → p ≠ a → p ≠ b →
    t.node? a = some na → t.node? b = some nb → t.node? p = some pn → na.parent = p → nb.parent = p →
    na.number ≠ nb.number →
    (pn.left = a ∧ pn.right = b ∨ pn.left = b ∧ pn.right = a) →
    ∃ t', swap t a b = some t' ∧
      t'.node? p = some { pn with left := pn.right, right := pn.left } ∧
      t'.node? a = some { na with number := nb.number } ∧
      t'.node? b = some { nb with number := na.number } ∧
      (∀ h, h ≠ a → h ≠ b → h ≠ p → t'.node? h = t.node? h) ∧
      t'.numEntry nb.number.toNat = a ∧ t'.numEntry na.number.toNat = b ∧
      (∀ k, k ≠ na.number.toNat → k ≠ nb.number.toNat → t'.numEntry k = t.numEntry k) ∧
      t'.symMap = t.symMap ∧ t'.root = t.root ∧ t'.nyt = t.nyt ∧ t'.nextHandle = t.nextHandle ∧
      t'.nextNum = t.nextNum ∧ t'.arena.length = t.arena.length

/-- Following a live node's path-code from the root, 0 to the left and 1 to the right, arrives at the node
(42_code_path.md R171 (c)). -/
def Obligations.FollowingACodeFromTheRootArrives : Prop :=
  ∀ (cfg : Config) (t : CodeTree) (x : Handle) (nd : Node), treeWf cfg t = true →
    t.node? x = some nd → nd.live = true →
    ∃ bits, codePath t x = some bits ∧ follow t t.root bits = some x

/-- The path-codes of the live leaves are a prefix-free set (30_encoding.md R85, 42_code_path.md R171 (b)). -/
def Obligations.LeafCodesArePrefixFree : Prop :=
  ∀ (cfg : Config) (t : CodeTree) (x y : Handle) (nx ny : Node) (bx bits : Bits), treeWf cfg t = true →
    t.node? x = some nx → t.node? y = some ny → nx.live = true → ny.live = true →
    nx.left = NONE → ny.left = NONE → codePath t x = some bx → codePath t y = some (bx ++ bits) →
    x = y ∧ bits = []

/-! ### Invariants and whole-machine rules -/

/-- Every legal engine meets the invariant right after reset (10_state.md R37, 41_insert_update.md section 6). -/
def Obligations.InitialStateMeetsTheInvariant : Prop :=
  ∀ cfg : Config, cfg.wf = true → (State.init cfg).inv = true

/-- Every step keeps the invariant: the tree's shape, numbers, counts and counters, the maps' form, the
status, LAST and the FIFO's capacity (41_insert_update.md R160 to R168, 10_state.md R29, R30, R32), and that
the tree is its session's and the recorded fault one that can have been raised (DEDUCED, log entries 5
and 13). -/
def Obligations.EveryStepKeepsTheInvariant : Prop :=
  ∀ s t : State, s.inv = true → step s = .next t → t.inv = true

/-- The states that a step runs from are exactly those that commands produce from a power-on state, but for
the words still to come and the last response, which are the model's own: each is reached by some run, and
every run, of any words, goes through to one (60_exceptions.md R220, D26, I2; log entries 2, 3, 5 and 13). -/
def Obligations.EveryAdmittedStateIsProducedByCommands : Prop :=
  (∀ s : State, s.inv = true → ∃ words t, runWords words (State.init s.cfg) = .next t ∧
    t = { s with cmds := [], resp := t.resp }) ∧
  (∀ (cfg : Config) (words : List Word), cfg.wf = true →
    ∃ t, runWords words (State.init cfg) = .next t ∧ t.inv = true)

/-- The counts are the session's: a symbol leaf's count is the number of times its symbol was coded since
reset, the root's is 0 before the first symbol and then one more than the symbols coded, and exactly the
coded symbols have leaves (41_insert_update.md R164 (b), (d), 10_state.md R26; the session is the model's
own list, log entry 13). -/
def Obligations.CountsAreThoseOfTheSession : Prop :=
  ∀ s : State, s.inv = true →
    (∀ h nd, s.tree.node? h = some nd → nd.symv = true → nd.count = s.coded.count nd.sym) ∧
    (∀ r, s.tree.node? s.tree.root = some r →
      r.count = if s.coded = [] then 0 else s.coded.length + 1) ∧
    (∀ sym, s.tree.symEntry sym ≠ NONE ↔ sym ∈ s.coded)

/-- In every state that meets the invariant, every word, legal or not, is answered: the step goes on, takes
one word, and leaves a response. No command hangs or gets stuck (60_exceptions.md R227, last paragraph).
That an ERR is a next state too, where R227 speaks of a fault outcome, is the model's choice (log entry 4),
and so is the stream the word is taken from (log entry 2). -/
def Obligations.EveryDeliveredWordIsAnswered : Prop :=
  ∀ (s : State) (w : Word) (ws : List Word), s.inv = true → s.cmds = w :: ws →
    ∃ t r, step s = .next t ∧ t.cmds = ws ∧ t.resp = some r

/-- The sibling property: of two live nodes, the one with the higher number has at least the count of the
other (41_insert_update.md R163). -/
def Obligations.HigherNumberNeverHasTheLowerCount : Prop :=
  ∀ (cfg : Config) (t : CodeTree) (a b : Handle) (na nb : Node), treeWf cfg t = true →
    t.node? a = some na → t.node? b = some nb → na.live = true → nb.live = true →
    nb.number.toNat < na.number.toNat → nb.count ≤ na.count

/-- Exactly one entry is the NYT, the one the register names: a live leaf of count 0, the root when no
symbol has a leaf and otherwise its parent's left child. The root is never a symbol leaf
(41_insert_update.md R160). -/
def Obligations.ExactlyOneNytAndItIsALeftLeaf : Prop :=
  ∀ (cfg : Config) (t : CodeTree), treeWf cfg t = true →
    (∀ h nd, t.node? h = some nd → (nd.isNyt = true ↔ h = t.nyt)) ∧
    (∃ nd, t.node? t.nyt = some nd ∧ nd.live = true ∧ nd.left = NONE ∧ nd.right = NONE ∧
      nd.count = 0 ∧ (t.nsym = 0 → t.root = t.nyt) ∧
      (t.nsym ≠ 0 → ∃ p, t.node? nd.parent = some p ∧ p.left = t.nyt)) ∧
    (∃ r, t.node? t.root = some r ∧ r.symv = false)

/-- No count is above the root's, which is within COUNT_WIDTH bits; an internal node's count is above each
of its children's (41_insert_update.md R164 (a), (e)). -/
def Obligations.NoCountExceedsTheRoots : Prop :=
  ∀ (cfg : Config) (t : CodeTree) (r : Node), treeWf cfg t = true → t.node? t.root = some r →
    r.count ≤ cfg.countMax ∧
    (∀ h nd, t.node? h = some nd → nd.count ≤ r.count) ∧
    (∀ h nd c ch, t.node? h = some nd → nd.live = true → (c = nd.left ∨ c = nd.right) →
      t.node? c = some ch → ch.count < nd.count)

/-- The live nodes' numbers are exactly `MAX_NUMBER - 2·NSYM` to MAX_NUMBER, each once; NUMMAP names the
live node of each, and holds NONE below; the root has MAX_NUMBER and the NYT the least
(41_insert_update.md R161). -/
def Obligations.LiveNumbersAreOneUniqueRange : Prop :=
  ∀ (cfg : Config) (t : CodeTree), treeWf cfg t = true →
    (∀ h nd, t.node? h = some nd → nd.live = true →
      cfg.maxNumber ≤ nd.number.toNat + 2 * t.nsym ∧ nd.number.toNat ≤ cfg.maxNumber ∧
      t.numEntry nd.number.toNat = h) ∧
    (∀ k, cfg.maxNumber ≤ k + 2 * t.nsym → k ≤ cfg.maxNumber →
      ∃ nd, t.node? (t.numEntry k) = some nd ∧ nd.live = true ∧ nd.number.toNat = k) ∧
    (∀ k, k + 2 * t.nsym < cfg.maxNumber → t.numEntry k = NONE) ∧
    (∀ nd, t.node? t.nyt = some nd → nd.number.toNat + 2 * t.nsym = cfg.maxNumber) ∧
    (∀ nd, t.node? t.root = some nd → nd.number.toNat = cfg.maxNumber)

/-- Every live node has a path-code of at most NSYM bits, and so of at most 256; the escape path of an
insertion has at most 255 (41_insert_update.md R165). -/
def Obligations.CodeLengthsAreAtMostNsym : Prop :=
  ∀ (cfg : Config) (t : CodeTree) (x : Handle) (nd : Node), treeWf cfg t = true →
    t.node? x = some nd → nd.live = true →
    ∃ bits, codePath t x = some bits ∧ bits.length ≤ t.nsym ∧ t.nsym ≤ 256

/-- A swap candidate is never the node, its parent, its ancestor, its descendant or the root: for every live
node between commands, and at every iteration of UPDATE from either of its starts, where the guard of
R141 therefore never blocks the swap and SWAP finds both parents (41_insert_update.md R141, R166). -/
def Obligations.CandidateIsNeverAnAncestorOrDescendant : Prop :=
  (∀ (cfg : Config) (t : CodeTree) (x c : Handle) (nd : Node), treeWf cfg t = true →
    t.node? x = some nd → nd.live = true → findCandidate cfg t x = some c → c ≠ NONE →
    c ≠ x ∧ c ≠ nd.parent ∧ c ≠ t.root ∧ x ≠ t.root ∧
    (∀ bits, follow t c bits ≠ some x) ∧ (∀ bits, follow t x bits ≠ some c)) ∧
  (∀ (cfg : Config) (t t' : CodeTree) (start cur c : Handle) (k : Nat) (nd : Node),
    UpdateStart cfg t start → walkAfter cfg k start t = some (cur, t') →
    t'.node? cur = some nd → findCandidate cfg t' cur = some c → c ≠ NONE →
    swapAllowed cur c nd.parent = true ∧ c ≠ t'.root ∧ cur ≠ t'.root ∧
    (∀ bits, follow t' c bits ≠ some cur) ∧ (∀ bits, follow t' cur bits ≠ some c) ∧
    ∃ t'', swap t' cur c = some t'')

/-- Which commands write what: the parameters are never written; the tree and LAST only by ENC, DEC and
RESET; IN_FIFO only by PUSH, DEC and RESET (10_state.md R20, R26, R29, R32, 43_host_interface.md R180).
The words still to come and the coded symbols are the model's own fields (log entries 2 and 13). -/
def Obligations.OnlyCodersAndResetChangeTheTree : Prop :=
  ∀ (i : Instr) (s t : State), exec i s = .next t →
    t.cfg = s.cfg ∧ t.cmds = s.cmds ∧
    ((∀ sym, i ≠ .enc sym) → i ≠ .dec → i ≠ .reset →
      t.tree = s.tree ∧ t.last = s.last ∧ t.coded = s.coded) ∧
    ((∀ n bits, i ≠ .push n bits) → i ≠ .dec → i ≠ .reset → t.inFifo = s.inFifo)

/-- A command depends on no later word, on no earlier response and not on the list of coded symbols: with
others there, it leaves the same engine and the same response (20_memory.md R59; the three fields are the
model's own, log entries 2, 3 and 13). -/
def Obligations.LaterWordsAndOldResponsesDoNotMatter : Prop :=
  ∀ (i : Instr) (s t : State) (ws : List Word) (r : Option Response) (cs : List Symbol),
    exec i s = .next t → ∃ cs', exec i { s with cmds := ws, resp := r, coded := cs } =
      .next { t with cmds := ws, coded := cs' }

/-- A successful query between two commands of a session changes nothing the next command does; repeated,
it answers the same (20_memory.md R57, 43_host_interface.md R189). -/
def Obligations.SuccessfulQueriesDoNotDisturbASession : Prop :=
  ∀ (q i : Instr) (s s' t : State) (r : Response), isQuery q = true → exec q s = .next s' →
    s'.resp = some r → r.faultCode = none → exec i s = .next t → exec i s' = .next t

/-! ### The host's sequences -/

/-- The words of `PUSHS "s"`, issued in order to an engine with room, append exactly the string
(30_encoding.md R90). -/
def Obligations.PushsAppendsTheWholeString : Prop :=
  ∀ (s : State) (bits : Bits), s.inv = true → s.fault = false → s.inFifo.length + bits.length ≤ s.cfg.inDepth →
    runWords ((pushs bits).map encode) s = .next { s with
      inFifo := s.inFifo ++ bits, resp := if bits = [] then s.resp else some .ok }

/-- The round trip: ENCS of any symbols that do not saturate the counts answers a stream; a fresh engine
with the same parameters that is given the stream and DECALL answers the symbols, with the same tree and
LAST and an empty FIFO (41_insert_update.md R169). -/
def Obligations.EncodeThenDecodeRoundTrip : Prop :=
  ∀ (cfg : Config) (syms : List Symbol), cfg.wf = true → syms.length < cfg.countMax →
    ∃ stream a, encs syms [] (State.init cfg) = some { out := stream, stopped := none, final := a } ∧
      (stream.length ≤ cfg.inDepth →
        ∃ b d, runWords ((pushs stream).map encode) (State.init cfg) = .next b ∧
          decall (stream.length + 1) [] b = some { out := syms, stopped := none, final := d } ∧
          d.tree = a.tree ∧ d.last = a.last ∧ d.inFifo = [] ∧ d.fault = false)
end

