-- ==== Sys2Proof/Laws/State.lean ====
section
/-! SUPPORT. What each update of the state leaves in each field: one lemma per field per update. -/

namespace Sys2Proof.Machine

section Respond
variable (r : Response) (s : State)
@[simp] theorem respond_cfg : (respond r s).cfg = s.cfg := rfl
@[simp] theorem respond_tree : (respond r s).tree = s.tree := rfl
@[simp] theorem respond_last : (respond r s).last = s.last := rfl
@[simp] theorem respond_fault : (respond r s).fault = s.fault := rfl
@[simp] theorem respond_errCode : (respond r s).errCode = s.errCode := rfl
@[simp] theorem respond_inFifo : (respond r s).inFifo = s.inFifo := rfl
@[simp] theorem respond_coded : (respond r s).coded = s.coded := rfl
@[simp] theorem respond_cmds : (respond r s).cmds = s.cmds := rfl
@[simp] theorem respond_resp : (respond r s).resp = some r := rfl
end Respond

section Record
variable (c : Fault) (s : State)
@[simp] theorem record_cfg : (record c s).cfg = s.cfg := by unfold record; split <;> rfl
@[simp] theorem record_tree : (record c s).tree = s.tree := by unfold record; split <;> rfl
@[simp] theorem record_last : (record c s).last = s.last := by unfold record; split <;> rfl
@[simp] theorem record_fault : (record c s).fault = true := by unfold record; split <;> simp_all
@[simp] theorem record_errCode :
    (record c s).errCode = if s.fault then s.errCode else c.code := by unfold record; split <;> rfl
@[simp] theorem record_inFifo : (record c s).inFifo = s.inFifo := by unfold record; split <;> rfl
@[simp] theorem record_coded : (record c s).coded = s.coded := by unfold record; split <;> rfl
@[simp] theorem record_cmds : (record c s).cmds = s.cmds := by unfold record; split <;> rfl
@[simp] theorem record_resp : (record c s).resp = s.resp := by unfold record; split <;> rfl
end Record

section Raise
variable (c : Fault) (n : Nat) (s : State)
@[simp] theorem raise_cfg : (raise c n s).cfg = s.cfg := by simp [raise]
@[simp] theorem raise_tree : (raise c n s).tree = s.tree := by simp [raise]
@[simp] theorem raise_last : (raise c n s).last = s.last := by simp [raise]
@[simp] theorem raise_fault : (raise c n s).fault = true := by simp [raise]
@[simp] theorem raise_errCode :
    (raise c n s).errCode = if s.fault then s.errCode else c.code := by simp [raise]
@[simp] theorem raise_inFifo : (raise c n s).inFifo = s.inFifo := by simp [raise]
@[simp] theorem raise_coded : (raise c n s).coded = s.coded := by simp [raise]
@[simp] theorem raise_cmds : (raise c n s).cmds = s.cmds := by simp [raise]
@[simp] theorem raise_resp : (raise c n s).resp = some (.err c (BitVec.ofNat 9 n)) := by simp [raise]
end Raise

section Reject
variable (s : State)
@[simp] theorem reject_cfg : (reject s).cfg = s.cfg := rfl
@[simp] theorem reject_tree : (reject s).tree = s.tree := rfl
@[simp] theorem reject_last : (reject s).last = s.last := rfl
@[simp] theorem reject_fault : (reject s).fault = s.fault := rfl
@[simp] theorem reject_errCode : (reject s).errCode = s.errCode := rfl
@[simp] theorem reject_inFifo : (reject s).inFifo = s.inFifo := rfl
@[simp] theorem reject_coded : (reject s).coded = s.coded := rfl
@[simp] theorem reject_cmds : (reject s).cmds = s.cmds := rfl
@[simp] theorem reject_resp : (reject s).resp = some .rejected := rfl
end Reject

section Reset
variable (s : State)
@[simp] theorem resetProcedure_cfg : (resetProcedure s).cfg = s.cfg := rfl
@[simp] theorem resetProcedure_tree : (resetProcedure s).tree = CodeTree.initial s.cfg := rfl
@[simp] theorem resetProcedure_last : (resetProcedure s).last = NONE := rfl
@[simp] theorem resetProcedure_fault : (resetProcedure s).fault = false := rfl
@[simp] theorem resetProcedure_errCode : (resetProcedure s).errCode = 0 := rfl
@[simp] theorem resetProcedure_inFifo : (resetProcedure s).inFifo = [] := rfl
@[simp] theorem resetProcedure_coded : (resetProcedure s).coded = [] := rfl
@[simp] theorem resetProcedure_cmds : (resetProcedure s).cmds = s.cmds := rfl
end Reset

section Commit
variable (sym : Symbol) (t : CodeTree) (leaf : Handle) (s : State)
@[simp] theorem commitSymbol_cfg : (commitSymbol sym t leaf s).cfg = s.cfg := rfl
@[simp] theorem commitSymbol_tree : (commitSymbol sym t leaf s).tree = t := rfl
@[simp] theorem commitSymbol_last : (commitSymbol sym t leaf s).last = leaf := rfl
@[simp] theorem commitSymbol_fault : (commitSymbol sym t leaf s).fault = s.fault := rfl
@[simp] theorem commitSymbol_errCode : (commitSymbol sym t leaf s).errCode = s.errCode := rfl
@[simp] theorem commitSymbol_inFifo : (commitSymbol sym t leaf s).inFifo = s.inFifo := rfl
@[simp] theorem commitSymbol_cmds : (commitSymbol sym t leaf s).cmds = s.cmds := rfl
@[simp] theorem commitSymbol_resp : (commitSymbol sym t leaf s).resp = s.resp := rfl
@[simp] theorem commitSymbol_coded : (commitSymbol sym t leaf s).coded = s.coded ++ [sym] := rfl
end Commit

section ModNode
variable (t : CodeTree) (h : Handle) (f : Node → Node)
@[simp] theorem modNode_arena : (t.modNode h f).arena = t.arena.modify h.toNat f := rfl
@[simp] theorem modNode_nextHandle : (t.modNode h f).nextHandle = t.nextHandle := rfl
@[simp] theorem modNode_root : (t.modNode h f).root = t.root := rfl
@[simp] theorem modNode_nyt : (t.modNode h f).nyt = t.nyt := rfl
@[simp] theorem modNode_symMap : (t.modNode h f).symMap = t.symMap := rfl
@[simp] theorem modNode_numMap : (t.modNode h f).numMap = t.numMap := rfl
@[simp] theorem modNode_nextNum : (t.modNode h f).nextNum = t.nextNum := rfl
end ModNode

section SetSym
variable (t : CodeTree) (sym : Symbol) (h : Handle)
@[simp] theorem setSym_arena : (t.setSym sym h).arena = t.arena := rfl
@[simp] theorem setSym_nextHandle : (t.setSym sym h).nextHandle = t.nextHandle := rfl
@[simp] theorem setSym_root : (t.setSym sym h).root = t.root := rfl
@[simp] theorem setSym_nyt : (t.setSym sym h).nyt = t.nyt := rfl
@[simp] theorem setSym_symMap : (t.setSym sym h).symMap = t.symMap.write sym.toNat h := rfl
@[simp] theorem setSym_numMap : (t.setSym sym h).numMap = t.numMap := rfl
@[simp] theorem setSym_nextNum : (t.setSym sym h).nextNum = t.nextNum := rfl
end SetSym

section SetNum
variable (t : CodeTree) (k : Number) (h : Handle)
@[simp] theorem setNum_arena : (t.setNum k h).arena = t.arena := rfl
@[simp] theorem setNum_nextHandle : (t.setNum k h).nextHandle = t.nextHandle := rfl
@[simp] theorem setNum_root : (t.setNum k h).root = t.root := rfl
@[simp] theorem setNum_nyt : (t.setNum k h).nyt = t.nyt := rfl
@[simp] theorem setNum_symMap : (t.setNum k h).symMap = t.symMap := rfl
@[simp] theorem setNum_numMap : (t.setNum k h).numMap = t.numMap.write k.toNat h := rfl
@[simp] theorem setNum_nextNum : (t.setNum k h).nextNum = t.nextNum := rfl
end SetNum

section SetSlot
variable (p : Node) (sl : Slot) (c : Handle)
@[simp] theorem setSlot_live : (p.setSlot sl c).live = p.live := by cases sl <;> rfl
@[simp] theorem setSlot_isNyt : (p.setSlot sl c).isNyt = p.isNyt := by cases sl <;> rfl
@[simp] theorem setSlot_symv : (p.setSlot sl c).symv = p.symv := by cases sl <;> rfl
@[simp] theorem setSlot_sym : (p.setSlot sl c).sym = p.sym := by cases sl <;> rfl
@[simp] theorem setSlot_count : (p.setSlot sl c).count = p.count := by cases sl <;> rfl
@[simp] theorem setSlot_number : (p.setSlot sl c).number = p.number := by cases sl <;> rfl
@[simp] theorem setSlot_parent : (p.setSlot sl c).parent = p.parent := by cases sl <;> rfl
@[simp] theorem setSlot_left_left : (p.setSlot .left c).left = c := rfl
@[simp] theorem setSlot_left_right : (p.setSlot .left c).right = p.right := rfl
@[simp] theorem setSlot_right_left : (p.setSlot .right c).left = p.left := rfl
@[simp] theorem setSlot_right_right : (p.setSlot .right c).right = c := rfl
end SetSlot

section Retire
variable (t : CodeTree) (old nN : Handle)
@[simp] theorem retireNyt_arena : (retireNyt t old nN).arena
    = t.arena.modify old.toNat ({ · with live := false, isNyt := false }) := rfl
@[simp] theorem retireNyt_nextHandle : (retireNyt t old nN).nextHandle = t.nextHandle := rfl
@[simp] theorem retireNyt_root : (retireNyt t old nN).root = t.root := rfl
@[simp] theorem retireNyt_nyt : (retireNyt t old nN).nyt = nN := rfl
@[simp] theorem retireNyt_symMap : (retireNyt t old nN).symMap = t.symMap := rfl
@[simp] theorem retireNyt_numMap : (retireNyt t old nN).numMap = t.numMap := rfl
@[simp] theorem retireNyt_nextNum : (retireNyt t old nN).nextNum = t.nextNum := rfl
end Retire

section Advance
variable (t : CodeTree)
@[simp] theorem advanceCounters_arena : (advanceCounters t).arena = t.arena := rfl
@[simp] theorem advanceCounters_nextHandle :
    (advanceCounters t).nextHandle = t.nextHandle + 3 := rfl
@[simp] theorem advanceCounters_root : (advanceCounters t).root = t.root := rfl
@[simp] theorem advanceCounters_nyt : (advanceCounters t).nyt = t.nyt := rfl
@[simp] theorem advanceCounters_symMap : (advanceCounters t).symMap = t.symMap := rfl
@[simp] theorem advanceCounters_numMap : (advanceCounters t).numMap = t.numMap := rfl
@[simp] theorem advanceCounters_nextNum : (advanceCounters t).nextNum = t.nextNum - 2 := rfl
end Advance

end Sys2Proof.Machine
end

