-- ==== Sys2Proof/Laws/Maps.lean ====
section
/-! SUPPORT. The two maps: reading after writing, and that every write keeps the canonical form. -/

namespace Sys2Proof.Machine

@[simp] theorem read_nil (k : Nat) : HandleMap.read [] k = NONE := rfl

@[simp] theorem read_cons (e : Nat × Handle) (m : HandleMap) (k : Nat) :
    HandleMap.read (e :: m) k = if e.1 = k then e.2 else HandleMap.read m k := rfl

/-- Nothing is listed under an index below every listed one. -/
theorem read_of_lt (m : HandleMap) (k : Nat) (h : ∀ e ∈ m, k < e.1) : m.read k = NONE := by
  induction m with
  | nil => rfl
  | cons e m ih =>
    have he := h e (by simp)
    simp [Nat.ne_of_gt he, ih fun e' h' => h e' (by simp [h'])]

theorem wf_cons (e : Nat × Handle) (m : HandleMap) :
    HandleMap.wf (e :: m) = true ↔ e.2 ≠ NONE ∧ (∀ e' ∈ m, e.1 < e'.1) ∧ m.wf = true := by
  simp [HandleMap.wf, and_assoc]

/-- A write is read back. -/
@[simp] theorem read_write_self (m : HandleMap) (k : Nat) (h : Handle) (hm : m.wf = true) :
    (m.write k h).read k = h := by
  induction m with
  | nil => by_cases hh : h = NONE <;> simp [HandleMap.write, hh]
  | cons e m ih =>
    obtain ⟨-, hlt, hwf⟩ := (wf_cons e m).1 hm
    have tail_free : ∀ k', k' ≤ e.1 → HandleMap.read m k' = NONE := fun k' hk =>
      read_of_lt m k' fun e' h' => Nat.lt_of_le_of_lt hk (hlt e' h')
    rcases Nat.lt_trichotomy k e.1 with hk | hk | hk
    · by_cases hh : h = NONE <;>
        simp [HandleMap.write, hk, hh, Nat.ne_of_gt hk, tail_free k hk.le]
    · subst hk
      by_cases hh : h = NONE <;> simp [HandleMap.write, hh, tail_free]
    · simp [HandleMap.write, Nat.lt_asymm hk, Nat.ne_of_gt hk, Nat.ne_of_lt hk, ih hwf]

/-- A write of a handle other than NONE is read back whatever the map's form. -/
theorem read_write_self_of_ne (m : HandleMap) (k : Nat) (h : Handle) (hh : h ≠ NONE) :
    (m.write k h).read k = h := by
  induction m with
  | nil => simp [HandleMap.write, hh]
  | cons e m ih =>
    rcases Nat.lt_trichotomy k e.1 with hk | hk | hk
    · simp [HandleMap.write, hk, hh]
    · simp [HandleMap.write, hk, hh]
    · simp [HandleMap.write, Nat.lt_asymm hk, Nat.ne_of_gt hk, Nat.ne_of_lt hk, ih]

/-- A write leaves every other index alone. -/
@[simp] theorem read_write_other (m : HandleMap) (k j : Nat) (h : Handle) (hj : k ≠ j) :
    (m.write k h).read j = m.read j := by
  induction m with
  | nil => by_cases hh : h = NONE <;> simp [HandleMap.write, hh, hj]
  | cons e m ih =>
    rcases Nat.lt_trichotomy k e.1 with hk | hk | hk
    · by_cases hh : h = NONE <;> simp [HandleMap.write, hk, hh, hj]
    · by_cases hh : h = NONE <;> simp [HandleMap.write, hk, hh, hk ▸ hj]
    · simp [HandleMap.write, Nat.lt_asymm hk, Nat.ne_of_gt hk, ih]

/-- What a write lists: entries of the map, or the one written. -/
theorem mem_write (m : HandleMap) (k : Nat) (h : Handle) (e : Nat × Handle)
    (he : e ∈ m.write k h) : e ∈ m ∨ (e = (k, h) ∧ h ≠ NONE) := by
  induction m with
  | nil => by_cases hh : h = NONE <;> simp_all [HandleMap.write]
  | cons e' m ih =>
    simp only [HandleMap.write] at he
    split_ifs at he <;> simp_all <;> tauto

/-- Every write keeps the canonical form. -/
theorem write_wf (m : HandleMap) (k : Nat) (h : Handle) (hm : m.wf = true) :
    (m.write k h).wf = true := by
  induction m with
  | nil => by_cases hh : h = NONE <;> simp [HandleMap.write, HandleMap.wf, hh]
  | cons e m ih =>
    obtain ⟨hne, hlt, hwf⟩ := (wf_cons e m).1 hm
    rcases Nat.lt_trichotomy k e.1 with hk | hk | hk
    · by_cases hh : h = NONE
      · simpa [HandleMap.write, hk, hh] using hm
      · simp only [HandleMap.write, hk, hh, if_true, if_false, wf_cons]
        refine ⟨hh, fun e' h' => ?_, hne, hlt, hwf⟩
        rcases List.mem_cons.1 h' with rfl | h'
        · exact hk
        · exact hk.trans (hlt e' h')
    · by_cases hh : h = NONE
      · simpa [HandleMap.write, hk, hh] using hwf
      · simp only [HandleMap.write, hk, hh, lt_self_iff_false, if_true, if_false, wf_cons]
        exact ⟨hh, hlt, hwf⟩
    · simp only [HandleMap.write, Nat.lt_asymm hk, Nat.ne_of_gt hk, if_false, wf_cons]
      refine ⟨hne, fun e' h' => ?_, ih hwf⟩
      rcases mem_write m k h e' h' with h' | ⟨rfl, -⟩
      · exact hlt e' h'
      · exact hk

/-- Reading a listed index of a canonical map. -/
theorem read_of_mem (m : HandleMap) (hm : m.wf = true) (e : Nat × Handle) (he : e ∈ m) :
    m.read e.1 = e.2 := by
  induction m with
  | nil => cases he
  | cons e' m ih =>
    obtain ⟨-, hlt, hwf⟩ := (wf_cons e' m).1 hm
    rcases List.mem_cons.1 he with rfl | he
    · simp
    · simp [Nat.ne_of_lt (hlt e he), ih hwf he]

/-- An index that reads as a handle other than NONE is listed. -/
theorem mem_of_read (m : HandleMap) (k : Nat) (h : m.read k ≠ NONE) : (k, m.read k) ∈ m := by
  induction m with
  | nil => exact absurd rfl h
  | cons e m ih =>
    by_cases hk : e.1 = k
    · subst hk
      simp
    · simp only [read_cons, hk, if_false] at h ⊢
      exact List.mem_cons_of_mem _ (ih h)

theorem memory_wf_iff (cfg : Config) (t : CodeTree) :
    Memory.wf cfg t = true ↔ t.symMap.wf = true ∧ t.numMap.wf = true
      ∧ (∀ e ∈ t.symMap, e.1 < 256) ∧ (∀ e ∈ t.numMap, e.1 ≤ cfg.maxNumber) := by
  simp only [Memory.wf, Bool.and_eq_true, List.all_eq_true, decide_eq_true_eq]
  tauto

/-- A SYMMAP write keeps the maps' form. -/
theorem setSym_memory_wf (cfg : Config) (t : CodeTree) (sym : Symbol) (h : Handle)
    (ht : Memory.wf cfg t = true) : Memory.wf cfg (t.setSym sym h) = true := by
  rw [memory_wf_iff] at ht ⊢
  refine ⟨write_wf _ _ _ ht.1, ht.2.1, fun e he => ?_, ht.2.2.2⟩
  rcases mem_write _ _ _ _ he with he | ⟨rfl, -⟩
  · exact ht.2.2.1 e he
  · exact sym.isLt

/-- A NUMMAP write of a number within range keeps the maps' form. -/
theorem setNum_memory_wf (cfg : Config) (t : CodeTree) (k : Number) (h : Handle)
    (hk : k.toNat ≤ cfg.maxNumber) (ht : Memory.wf cfg t = true) :
    Memory.wf cfg (t.setNum k h) = true := by
  rw [memory_wf_iff] at ht ⊢
  refine ⟨ht.1, write_wf _ _ _ ht.2.1, ht.2.2.1, fun e he => ?_⟩
  rcases mem_write _ _ _ _ he with he | ⟨rfl, -⟩
  · exact ht.2.2.2 e he
  · exact hk

/-- The maps' form does not depend on the arena or the registers. -/
theorem memory_wf_modNode (cfg : Config) (t : CodeTree) (h : Handle) (f : Node → Node) :
    Memory.wf cfg (t.modNode h f) = Memory.wf cfg t := rfl

/-- The reset maps are in canonical form. -/
theorem initial_memory_wf (cfg : Config) : Memory.wf cfg (CodeTree.initial cfg) = true := by
  simp [memory_wf_iff, CodeTree.initial, HandleMap.wf, NONE]

end Sys2Proof.Machine
end

