-- ==== Sys2Proof/Laws/Ops.lean ====
section
/-! SUPPORT. The shared operations: arena reads after writes, and what a refusal, a fault and a word
delivery can be. -/

namespace Sys2Proof.Machine

/-- Reading an entry after a write to one. -/
@[simp] theorem node?_modNode (t : CodeTree) (h h' : Handle) (f : Node → Node) :
    (t.modNode h f).node? h' = if h = h' then (t.node? h').map f else t.node? h' := by
  simp only [CodeTree.node?, modNode_arena, List.getElem?_modify, BitVec.toNat_inj]
  split <;> simp

@[simp] theorem node?_setSym (t : CodeTree) (sym : Symbol) (v h : Handle) :
    (t.setSym sym v).node? h = t.node? h := rfl

@[simp] theorem node?_setNum (t : CodeTree) (k : Number) (v h : Handle) :
    (t.setNum k v).node? h = t.node? h := rfl

@[simp] theorem node?_advanceCounters (t : CodeTree) (h : Handle) :
    (advanceCounters t).node? h = t.node? h := rfl

@[simp] theorem symEntry_modNode (t : CodeTree) (h : Handle) (f : Node → Node) (sym : Symbol) :
    (t.modNode h f).symEntry sym = t.symEntry sym := rfl

@[simp] theorem numEntry_modNode (t : CodeTree) (h : Handle) (f : Node → Node) (k : Nat) :
    (t.modNode h f).numEntry k = t.numEntry k := rfl

@[simp] theorem symEntry_setNum (t : CodeTree) (k : Number) (h : Handle) (sym : Symbol) :
    (t.setNum k h).symEntry sym = t.symEntry sym := rfl

@[simp] theorem numEntry_setSym (t : CodeTree) (sym : Symbol) (h : Handle) (k : Nat) :
    (t.setSym sym h).numEntry k = t.numEntry k := rfl

/-- Reading SYMMAP after a write of a handle. -/
theorem symEntry_setSym (t : CodeTree) (sym sym' : Symbol) (h : Handle) (hh : h ≠ NONE) :
    (t.setSym sym h).symEntry sym' = if sym = sym' then h else t.symEntry sym' := by
  split
  · next e => subst e; exact read_write_self_of_ne _ _ _ hh
  · next e => exact read_write_other _ _ _ _ fun hn => e (BitVec.eq_of_toNat_eq hn)

/-- Reading NUMMAP after a write of a handle. -/
theorem numEntry_setNum (t : CodeTree) (k : Number) (j : Nat) (h : Handle) (hh : h ≠ NONE) :
    (t.setNum k h).numEntry j = if k.toNat = j then h else t.numEntry j := by
  split
  · next e => subst e; exact read_write_self_of_ne _ _ _ hh
  · next e => exact read_write_other _ _ _ _ e

/-- An entry that is there is an index of the arena. -/
theorem lt_of_node? {t : CodeTree} {h : Handle} {nd : Node} (hn : t.node? h = some nd) :
    h.toNat < t.arena.length := (List.getElem?_eq_some_iff.1 hn).1

@[simp] theorem modNode_arena_length (t : CodeTree) (h : Handle) (f : Node → Node) :
    (t.modNode h f).arena.length = t.arena.length := by simp

@[simp] theorem orRefuse_eq_next {o : Option State} {t : State} :
    orRefuse o = .next t ↔ o = some t := by cases o <;> simp [orRefuse]

@[simp] theorem orRefuse_ne_fault {o : Option State} {f : Fault} : orRefuse o ≠ .fault f := by
  cases o <;> simp [orRefuse]

/-- A refusal of a meaning is the refusal of an ill-formed state. -/
theorem orRefuse_eq_refused {o : Option State} {r : Refusal} :
    orRefuse o = .refused r ↔ o = none ∧ r = .illFormedState := by
  cases o <;> simp [orRefuse, eq_comm]

/-- Raising while FAULT = 1 changes only the response (R212). -/
theorem raise_of_faulted {s : State} (hs : s.fault = true) (c : Fault) (n : Nat) :
    raise c n s = respond (.err c (BitVec.ofNat 9 n)) s := by simp [raise, record, hs]

/-- Raising the session's first fault (R212). -/
theorem raise_of_clean {s : State} (hs : s.fault = false) (c : Fault) (n : Nat) :
    raise c n s = { s with fault := true, errCode := c.code, resp := some (.err c (BitVec.ofNat 9 n)) } := by
  simp [raise, record, hs, respond]

@[simp] theorem takeWord_nil {s : State} (h : s.cmds = []) : takeWord s = none := by
  simp [takeWord, h]

@[simp] theorem takeWord_cons {s : State} {w : Word} {ws : List Word} (h : s.cmds = w :: ws) :
    takeWord s = some (w, { s with cmds := ws }) := by simp [takeWord, h]

/-- The codes that are recorded are 1 to 7 (R210, I14). -/
theorem code_range (c : Fault) : 1 ≤ c.code.toNat ∧ c.code.toNat ≤ 7 := by cases c <;> decide

/-- Two faults with one code are one fault. -/
theorem code_injective {c d : Fault} (h : c.code = d.code) : c = d := by
  cases c <;> cases d <;> first | rfl | exact absurd h (by decide)

@[simp] theorem topBits_length (n : Nat) (bits : BitVec 8) : (topBits n bits).length = n := by
  simp [topBits]

@[simp] theorem bitsMsb8_length (v : BitVec 8) : (bitsMsb8 v).length = 8 := topBits_length 8 v

/-- `val_msb8` is the inverse of `bits_msb8` (R9). -/
@[simp] theorem valMsb8_bitsMsb8 (v : BitVec 8) : valMsb8 (bitsMsb8 v) = v := by
  revert v; decide

end Sys2Proof.Machine
end

