-- ==== Sys2Proof/Laws/Tree.lean ====
section
/-! SUPPORT. What SWAP, the rebalance, UPDATE and INSERT can do, once each; later proofs cite these and
do not unfold the operations. -/

namespace Sys2Proof.Machine

/-- FIND_CANDIDATE reads cur's node and scans down from MAX_NUMBER. -/
theorem findCandidate_eq_some {cfg : Config} {t : CodeTree} {cur c : Handle} :
    findCandidate cfg t cur = some c ↔ ∃ nd, t.node? cur = some nd ∧
      scanNumbers t nd.count (cfg.maxNumber - nd.number.toNat) cfg.maxNumber = some c := by
  simp [findCandidate, Option.bind_eq_some_iff]

/-- SWAP on two nodes with parents: the eight writes of R145, and nothing else. -/
theorem swap_eq_some {t t' : CodeTree} {a b : Handle} :
    swap t a b = some t' ↔ ∃ na nb pa pb, t.node? a = some na ∧ t.node? b = some nb ∧
      t.node? na.parent = some pa ∧ t.node? nb.parent = some pb ∧
      t' = ((((((t.modNode na.parent (·.setSlot (slotOf pa a) b)).modNode nb.parent
        (·.setSlot (slotOf pb b) a)).modNode a
        ({ · with parent := nb.parent, number := nb.number })).modNode b
        ({ · with parent := na.parent, number := na.number })).setNum nb.number a).setNum na.number b) := by
  simp only [swap, bind, Option.bind_eq_some_iff, Option.some.injEq]
  constructor
  · rintro ⟨na, ha, nb, hb, pa, hpa, pb, hpb, rfl⟩
    exact ⟨na, nb, pa, pb, ha, hb, hpa, hpb, rfl⟩
  · rintro ⟨na, nb, pa, pb, ha, hb, hpa, hpb, rfl⟩
    exact ⟨na, ha, nb, hb, pa, hpa, pb, hpb, rfl⟩

/-- What SWAP and UPDATE leave alone: the registers, SYMMAP and the arena's size. -/
structure SameFrame (t t' : CodeTree) : Prop where
  nextHandle : t'.nextHandle = t.nextHandle
  root : t'.root = t.root
  nyt : t'.nyt = t.nyt
  symMap : t'.symMap = t.symMap
  nextNum : t'.nextNum = t.nextNum
  size : t'.arena.length = t.arena.length

theorem SameFrame.rfl' (t : CodeTree) : SameFrame t t := ⟨rfl, rfl, rfl, rfl, rfl, rfl⟩

theorem SameFrame.trans' {t t' t'' : CodeTree} (h : SameFrame t t') (h' : SameFrame t' t'') :
    SameFrame t t'' :=
  ⟨h'.nextHandle.trans h.nextHandle, h'.root.trans h.root, h'.nyt.trans h.nyt,
    h'.symMap.trans h.symMap, h'.nextNum.trans h.nextNum, h'.size.trans h.size⟩

theorem sameFrame_modNode (t : CodeTree) (h : Handle) (f : Node → Node) :
    SameFrame t (t.modNode h f) := ⟨rfl, rfl, rfl, rfl, rfl, by simp⟩

theorem sameFrame_bumpCount (t : CodeTree) (cur : Handle) : SameFrame t (bumpCount t cur) :=
  sameFrame_modNode _ _ _

theorem swap_frame {t t' : CodeTree} {a b : Handle} (h : swap t a b = some t') : SameFrame t t' := by
  obtain ⟨na, nb, pa, pb, -, -, -, -, rfl⟩ := swap_eq_some.1 h
  exact ⟨rfl, rfl, rfl, rfl, rfl, by simp⟩

/-- One rebalance: a candidate was looked for, and the two nodes are swapped or nothing changes. -/
theorem rebalance_cases {cfg : Config} {t t' : CodeTree} {cur : Handle}
    (h : rebalance cfg t cur = some t') :
    ∃ c nd, findCandidate cfg t cur = some c ∧ t.node? cur = some nd ∧
      ((swapAllowed cur c nd.parent = true ∧ swap t cur c = some t') ∨
        (swapAllowed cur c nd.parent = false ∧ t' = t)) := by
  simp only [rebalance, bind, Option.bind_eq_some_iff] at h
  obtain ⟨c, hc, nd, hnd, h⟩ := h
  refine ⟨c, nd, hc, hnd, ?_⟩
  by_cases hs : swapAllowed cur c nd.parent = true
  · exact .inl ⟨hs, by simpa [hs] using h⟩
  · exact .inr ⟨by simpa using hs, by simpa [hs, eq_comm] using h⟩

theorem rebalance_frame {cfg : Config} {t t' : CodeTree} {cur : Handle}
    (h : rebalance cfg t cur = some t') : SameFrame t t' := by
  obtain ⟨c, nd, -, -, ⟨-, h⟩ | ⟨-, rfl⟩⟩ := rebalance_cases h
  · exact swap_frame h
  · exact .rfl' t'

/-- One iteration at cur: a rebalance, one increment, and the parent after the swap (R150, R151). -/
theorem walkStep_eq_some {cfg : Config} {cur : Handle} {t : CodeTree} {p : Handle × CodeTree} :
    walkStep cfg cur t = some p ↔ ∃ t1 nd, rebalance cfg t cur = some t1 ∧
      (bumpCount t1 cur).node? cur = some nd ∧ p = (nd.parent, bumpCount t1 cur) := by
  simp only [walkStep, bind, Option.bind_eq_some_iff, Option.some.injEq]
  constructor
  · rintro ⟨t1, h1, nd, hnd, rfl⟩
    exact ⟨t1, nd, h1, hnd, rfl⟩
  · rintro ⟨t1, nd, h1, hnd, rfl⟩
    exact ⟨t1, h1, nd, hnd, rfl⟩

/-- One iteration of UPDATE: the walk is over at NONE, or it rebalances, increments and goes on from
the parent after the swap (R150, R151). -/
theorem updateWalk_succ {cfg : Config} {fuel : Nat} {cur : Handle} {t t' : CodeTree} :
    updateWalk cfg (fuel + 1) cur t = some t' ↔ (cur = NONE ∧ t' = t) ∨
      (cur ≠ NONE ∧ ∃ t1 nd, rebalance cfg t cur = some t1 ∧ (bumpCount t1 cur).node? cur = some nd ∧
        updateWalk cfg fuel nd.parent (bumpCount t1 cur) = some t') := by
  by_cases hc : cur = NONE
  · simp [updateWalk, hc, eq_comm]
  · simp only [updateWalk, hc, if_false, bind, Option.bind_eq_some_iff, false_and, false_or,
      ne_eq, not_false_eq_true, true_and, walkStep_eq_some]
    constructor
    · rintro ⟨p, ⟨t1, nd, h1, hnd, rfl⟩, h⟩
      exact ⟨t1, nd, h1, hnd, h⟩
    · rintro ⟨t1, nd, h1, hnd, h⟩
      exact ⟨(nd.parent, bumpCount t1 cur), ⟨t1, nd, h1, hnd, rfl⟩, h⟩

/-- One more iteration goes first: at a node, never at NONE. -/
theorem walkAfter_succ {cfg : Config} {k : Nat} {cur : Handle} {t : CodeTree} {p : Handle × CodeTree} :
    walkAfter cfg (k + 1) cur t = some p ↔ cur ≠ NONE ∧ ∃ q, walkStep cfg cur t = some q ∧
      walkAfter cfg k q.1 q.2 = some p := by
  by_cases hc : cur = NONE
  · simp [walkAfter, hc]
  · simp [walkAfter, hc, Option.bind_eq_some_iff]

/-- The iterations of UPDATE are those `walkAfter` counts: the walk answers the tree it has when it stands
at NONE (R150, R152). -/
theorem updateWalk_iff_walkAfter {cfg : Config} {t' : CodeTree} : ∀ {fuel : Nat} {cur : Handle}
    {t : CodeTree}, updateWalk cfg fuel cur t = some t' ↔
      ∃ k, k < fuel ∧ walkAfter cfg k cur t = some (NONE, t') := by
  intro fuel
  induction fuel with
  | zero => simp [updateWalk]
  | succ fuel ih =>
    intro cur t
    by_cases hc : cur = NONE
    · subst hc
      constructor
      · intro h
        exact ⟨0, Nat.succ_pos _, by simpa [updateWalk, walkAfter] using h⟩
      · rintro ⟨k, -, h⟩
        cases k with
        | zero => simpa [updateWalk, walkAfter] using h
        | succ k => exact absurd rfl (walkAfter_succ.1 h).1
    · simp only [updateWalk, hc, if_false, bind, Option.bind_eq_some_iff]
      constructor
      · rintro ⟨q, hq, h⟩
        obtain ⟨k, hk, h⟩ := ih.1 h
        exact ⟨k + 1, Nat.succ_lt_succ hk, walkAfter_succ.2 ⟨hc, q, hq, h⟩⟩
      · rintro ⟨k, hk, h⟩
        cases k with
        | zero => simp only [walkAfter, Option.some.injEq, Prod.mk.injEq] at h; exact absurd h.1 hc
        | succ k =>
          obtain ⟨-, q, hq, h⟩ := walkAfter_succ.1 h
          exact ⟨q, hq, ih.2 ⟨k, Nat.lt_of_succ_lt_succ hk, h⟩⟩

/-- The induction over UPDATE's iterations, once: a relation that one iteration keeps relates the tree
before the walk to the tree after it. -/
theorem updateWalk_induct {cfg : Config} {P : CodeTree → CodeTree → Prop} (refl : ∀ t, P t t)
    (trans : ∀ {t t' t''}, P t t' → P t' t'' → P t t'')
    (iter : ∀ {t t1 cur}, cur ≠ NONE → rebalance cfg t cur = some t1 → P t (bumpCount t1 cur)) :
    ∀ {fuel : Nat} {cur : Handle} {t t' : CodeTree}, updateWalk cfg fuel cur t = some t' → P t t' := by
  intro fuel
  induction fuel with
  | zero => intro cur t t' h; simp [updateWalk] at h
  | succ fuel ih =>
    intro cur t t' h
    rcases updateWalk_succ.1 h with ⟨-, rfl⟩ | ⟨hc, t1, nd, h1, -, h⟩
    · exact refl t'
    · exact trans (iter hc h1) (ih h)

theorem update_frame {cfg : Config} {start : Handle} {t t' : CodeTree}
    (h : update cfg start t = some t') : SameFrame t t' :=
  updateWalk_induct SameFrame.rfl' SameFrame.trans'
    (fun _ h1 => (rebalance_frame h1).trans' (sameFrame_bumpCount _ _)) h

/-- Step S5: the new root, or one child slot of the old NYT's parent (R131). -/
theorem splice_cases {t t' : CodeTree} {old nI p : Handle} (h : splice t old nI p = some t') :
    (p = NONE ∧ t' = { t with root := nI }) ∨
      (p ≠ NONE ∧ ∃ pn, t.node? p = some pn ∧ t' = t.modNode p (·.setSlot (slotOf pn old) nI)) := by
  by_cases hp : p = NONE
  · exact .inl ⟨hp, by simpa [splice, hp, eq_comm] using h⟩
  · simp only [splice, hp, if_false, bind, Option.bind_eq_some_iff, Option.some.injEq] at h
    obtain ⟨pn, hpn, rfl⟩ := h
    exact .inr ⟨hp, pn, hpn, rfl⟩

/-- INSERT up to step S9 (R131). -/
theorem graft_eq_some {sym : Symbol} {t t' : CodeTree} :
    graft sym t = some t' ↔ ∃ old t2, t.node? t.nyt = some old ∧
      splice (allocate t sym old) t.nyt (t.nextHandle + 2) old.parent = some t2 ∧
      t' = advanceCounters (registerNew (retireNyt t2 t.nyt t.nextHandle) sym t.nextHandle
        (t.nextHandle + 1) (t.nextHandle + 2) (newNyt t).number (newLeaf t sym).number old.number) := by
  simp only [graft, bind, Option.bind_eq_some_iff, Option.some.injEq]
  constructor
  · rintro ⟨old, h1, t2, h2, rfl⟩
    exact ⟨old, t2, h1, h2, rfl⟩
  · rintro ⟨old, t2, h1, h2, rfl⟩
    exact ⟨old, h1, t2, h2, rfl⟩

theorem splice_frame {t t' : CodeTree} {old nI p : Handle} (h : splice t old nI p = some t') :
    t'.nextHandle = t.nextHandle ∧ t'.nyt = t.nyt ∧ t'.symMap = t.symMap ∧ t'.numMap = t.numMap ∧
      t'.nextNum = t.nextNum ∧ t'.arena.length = t.arena.length := by
  rcases splice_cases h with ⟨-, rfl⟩ | ⟨-, pn, -, rfl⟩
  · exact ⟨rfl, rfl, rfl, rfl, rfl, rfl⟩
  · exact ⟨rfl, rfl, rfl, rfl, rfl, by simp⟩

/-- The registers, SYMMAP and the arena's size after steps S1 to S9 (R131). -/
theorem graft_frame {sym : Symbol} {t t' : CodeTree} (h : graft sym t = some t') :
    t'.nextHandle = t.nextHandle + 3 ∧ t'.nextNum = t.nextNum - 2 ∧ t'.nyt = t.nextHandle ∧
      t'.symMap = t.symMap.write sym.toNat (t.nextHandle + 1) ∧
      t'.arena.length = t.arena.length + 3 := by
  obtain ⟨old, t2, -, h2, rfl⟩ := graft_eq_some.1 h
  obtain ⟨e1, e2, e3, e4, e5, e6⟩ := splice_frame h2
  simp [registerNew, e1, e3, e5, e6, allocate]

/-- INSERT is the graft and then UPDATE from the new internal node; it returns the new leaf (R131). -/
theorem insert_eq_some {cfg : Config} {sym : Symbol} {t t' : CodeTree} {leaf : Handle} :
    insert cfg sym t = some (t', leaf) ↔ leaf = t.nextHandle + 1 ∧
      ∃ g, graft sym t = some g ∧ update cfg (t.nextHandle + 2) g = some t' := by
  simp only [insert, bind, Option.bind_eq_some_iff, Option.some.injEq, Prod.mk.injEq]
  constructor
  · rintro ⟨g, hg, t'', hu, rfl, rfl⟩
    exact ⟨rfl, g, hg, hu⟩
  · rintro ⟨rfl, g, hg, hu⟩
    exact ⟨g, hg, t', hu, rfl, rfl⟩

/-- The registers, SYMMAP and the arena's size after INSERT. -/
theorem insert_frame {cfg : Config} {sym : Symbol} {t t' : CodeTree} {leaf : Handle}
    (h : insert cfg sym t = some (t', leaf)) :
    t'.nextHandle = t.nextHandle + 3 ∧ t'.nextNum = t.nextNum - 2 ∧ t'.nyt = t.nextHandle ∧
      t'.symMap = t.symMap.write sym.toNat (t.nextHandle + 1) ∧
      t'.arena.length = t.arena.length + 3 ∧ leaf = t.nextHandle + 1 := by
  obtain ⟨rfl, g, hg, hu⟩ := insert_eq_some.1 h
  obtain ⟨e1, e2, e3, e4, e5⟩ := graft_frame hg
  have f := update_frame hu
  exact ⟨f.nextHandle.trans e1, f.nextNum.trans e2, f.nyt.trans e3, f.symMap.trans e4,
    f.size.trans e5, rfl⟩

end Sys2Proof.Machine
end

