-- ==== Sys2Proof/Laws/TreeInv.lean ====
section
/-! SUPPORT. The tree check as the propositions it decides, part by part. -/

namespace Sys2Proof.Machine

theorem config_wf_iff (c : Config) :
    c.wf = true ↔ 512 ≤ c.maxNumber ∧ c.maxNumber ≤ 1022 ∧ 2 ≤ c.countWidth ∧ 264 ≤ c.inDepth ∧
      c.inDepth ≤ 65535 := by
  simp [Config.wf, and_assoc]

/-- COUNT_MAX is at least 3 (R242). -/
theorem three_le_countMax (c : Config) (h : c.wf = true) : 3 ≤ c.countMax := by
  have h2 : 2 ^ 2 ≤ 2 ^ c.countWidth :=
    Nat.pow_le_pow_right (by decide) ((config_wf_iff c).1 h).2.2.1
  unfold Config.countMax
  omega

/-- The parts of the tree check. -/
theorem treeWf_iff (cfg : Config) (t : CodeTree) :
    treeWf cfg t = true ↔ cfg.wf = true ∧ Memory.wf cfg t = true ∧
      wfCounters cfg t t.symMap.length = true ∧ wfArena cfg t t.symMap.length = true ∧
      wfSymMap t = true ∧ wfNumMap cfg t t.symMap.length = true ∧
      wfCountOrder cfg t t.symMap.length = true ∧ wfRootCount cfg t t.symMap.length = true := by
  simp only [treeWf, Bool.and_eq_true, and_assoc]

theorem wfCounters_iff (cfg : Config) (t : CodeTree) (n : Nat) :
    wfCounters cfg t n = true ↔ t.arena.length = 1 + 3 * n ∧ t.nextHandle.toNat = 1 + 3 * n ∧
      t.nextNum.toInt = (cfg.maxNumber : Int) - 2 * n - 1 ∧
      t.nyt.toNat = (if n = 0 then 0 else 1 + 3 * (n - 1)) ∧
      t.root.toNat = (if n = 0 then 0 else 3) := by
  simp only [wfCounters, Bool.and_eq_true, decide_eq_true_eq, and_assoc]

theorem wfSymbolLeaf_iff (t : CodeTree) (i : Nat) (nd : Node) :
    wfSymbolLeaf t i nd = true ↔ nd.live = true ∧ nd.isNyt = false ∧ nd.symv = true ∧
      nd.left = NONE ∧ nd.right = NONE ∧ 1 ≤ nd.count ∧ (t.symEntry nd.sym).toNat = i := by
  simp only [wfSymbolLeaf, Bool.and_eq_true, Bool.not_eq_true', decide_eq_true_eq, and_assoc]

theorem wfChild_iff (t : CodeTree) (h : Nat) (nd : Node) (c : Handle) :
    wfChild t h nd c = true ↔ ∃ ch, t.node? c = some ch ∧ ch.live = true ∧ ch.parent.toNat = h ∧
      ch.number.toNat < nd.number.toNat ∧ ch.count < nd.count := by
  simp only [wfChild, Option.any_eq_true, Bool.and_eq_true, decide_eq_true_eq, and_assoc]

theorem wfSiblings_iff (t : CodeTree) (nd : Node) :
    wfSiblings t nd = true ↔ ∃ l, t.node? nd.left = some l ∧ ∃ r, t.node? nd.right = some r ∧
      (l.number.toNat + 1 = r.number.toNat ∨ r.number.toNat + 1 = l.number.toNat) := by
  simp only [wfSiblings, Option.any_eq_true, Bool.or_eq_true, decide_eq_true_eq]

theorem wfInternal_iff (t : CodeTree) (i : Nat) (nd : Node) :
    wfInternal t i nd = true ↔ nd.live = true ∧ nd.isNyt = false ∧ nd.symv = false ∧ nd.sym = 0 ∧
      wfChild t i nd nd.left = true ∧ wfChild t i nd nd.right = true ∧ wfSiblings t nd = true := by
  simp only [wfInternal, Bool.and_eq_true, Bool.not_eq_true', decide_eq_true_eq, and_assoc]

theorem wfNyt_iff (cfg : Config) (t : CodeTree) (n : Nat) (nd : Node) :
    wfNyt cfg t n nd = true ↔ nd.live = true ∧ nd.isNyt = true ∧ nd.symv = false ∧ nd.sym = 0 ∧
      nd.count = 0 ∧ nd.number.toNat + 2 * n = cfg.maxNumber ∧ nd.left = NONE ∧ nd.right = NONE ∧
      (n = 0 ∨ nd.parent.toNat = t.nyt.toNat + 2 ∧ ∃ p, t.node? nd.parent = some p ∧ p.left = t.nyt) := by
  simp only [wfNyt, Option.any_eq_true, Bool.and_eq_true, Bool.not_eq_true', Bool.or_eq_true,
    decide_eq_true_eq, and_assoc]

theorem wfHistorical_iff (cfg : Config) (i : Nat) (nd : Node) :
    wfHistorical cfg i nd = true ↔ nd.live = false ∧ nd.isNyt = false ∧ nd.symv = false ∧ nd.sym = 0 ∧
      nd.count = 0 ∧ nd.left = NONE ∧ nd.right = NONE ∧
      nd.number.toNat + 2 * ((i + 2) / 3) = cfg.maxNumber ∧
      (if i = 0 then nd.parent = NONE else nd.parent.toNat = i + 2) := by
  simp only [wfHistorical, Bool.and_eq_true, Bool.not_eq_true', decide_eq_true_eq, and_assoc]
  split <;> simp only [decide_eq_true_eq]

theorem wfPlace_iff (cfg : Config) (t : CodeTree) (i : Nat) (nd : Node) :
    wfPlace cfg t i nd = true ↔ (t.numEntry nd.number.toNat).toNat = i ∧
      (if i = t.root.toNat then nd.parent = NONE ∧ nd.number.toNat = cfg.maxNumber
        else ∃ p, t.node? nd.parent = some p ∧ p.live = true ∧
          (p.left.toNat = i ∨ p.right.toNat = i)) := by
  simp only [wfPlace, Bool.and_eq_true, decide_eq_true_eq]
  split <;> simp only [Option.any_eq_true, Bool.and_eq_true, Bool.or_eq_true, decide_eq_true_eq]

/-- The check of every entry, read at one handle. -/
theorem wfArena_iff (cfg : Config) (t : CodeTree) (n : Nat) :
    wfArena cfg t n = true ↔
      ∀ i nd, t.arena[i]? = some nd → wfEntry cfg t n i nd = true := by
  simp only [wfArena, List.all_eq_true, List.mem_range, Option.any_eq_true]
  constructor
  · intro h i nd hi
    obtain ⟨nd', h', hw⟩ := h i (List.getElem?_eq_some_iff.1 hi).1
    exact Option.some.inj (hi.symm.trans h') ▸ hw
  · intro h i hi
    exact ⟨t.arena[i], List.getElem?_eq_getElem hi, h i _ (List.getElem?_eq_getElem hi)⟩

theorem wfSymMap_iff (t : CodeTree) :
    wfSymMap t = true ↔ ∀ e ∈ t.symMap, ∃ nd, t.node? e.2 = some nd ∧ nd.symv = true ∧
      nd.sym.toNat = e.1 := by
  simp only [wfSymMap, List.all_eq_true, Option.any_eq_true, Bool.and_eq_true, decide_eq_true_eq]

theorem wfNumMap_iff (cfg : Config) (t : CodeTree) (n : Nat) :
    wfNumMap cfg t n = true ↔
      t.numMap.map Prod.fst = List.range' (cfg.maxNumber - 2 * n) (2 * n + 1) ∧
      ∀ e ∈ t.numMap, ∃ nd, t.node? e.2 = some nd ∧ nd.live = true ∧ nd.number.toNat = e.1 := by
  simp only [wfNumMap, List.all_eq_true, Option.any_eq_true, Bool.and_eq_true, decide_eq_true_eq]

theorem wfCountOrder_iff (cfg : Config) (t : CodeTree) (n : Nat) :
    wfCountOrder cfg t n = true ↔ ∀ j, j < 2 * n →
      t.countAt (cfg.maxNumber - j - 1) ≤ t.countAt (cfg.maxNumber - j) := by
  simp only [wfCountOrder, List.all_eq_true, List.mem_range, decide_eq_true_eq]

theorem wfRootCount_iff (cfg : Config) (t : CodeTree) (n : Nat) :
    wfRootCount cfg t n = true ↔ ∃ r, t.node? t.root = some r ∧
      r.count = (if n = 0 then 0 else t.leafTotal + 1) ∧ r.count ≤ cfg.countMax := by
  simp only [wfRootCount, Option.any_eq_true, Bool.and_eq_true, decide_eq_true_eq]

/-- A canonical SYMMAP lists exactly its NSYM entries (R26). -/
theorem nsym_eq_length {cfg : Config} {t : CodeTree} (h : Memory.wf cfg t = true) :
    t.nsym = t.symMap.length := by
  obtain ⟨hwf, -, hlt, -⟩ := (memory_wf_iff cfg t).1 h
  have key : (List.range 256).filter (fun k => t.symMap.read k ≠ NONE) = t.symMap.map Prod.fst := by
    have hs : (t.symMap.map Prod.fst).Pairwise (· < ·) := by
      clear h hlt
      generalize t.symMap = m at hwf
      induction m with
      | nil => simp
      | cons e m ih =>
        obtain ⟨-, hl, hw⟩ := (wf_cons e m).1 hwf
        simp only [List.map_cons, List.pairwise_cons]
        exact ⟨fun k hk => by obtain ⟨e', he', rfl⟩ := List.mem_map.1 hk; exact hl e' he', ih hw⟩
    have hn : ∀ e ∈ t.symMap, e.2 ≠ NONE := by
      clear h hlt hs
      generalize t.symMap = m at hwf
      induction m with
      | nil => simp
      | cons e m ih =>
        obtain ⟨h1, -, hw⟩ := (wf_cons e m).1 hwf
        intro e' he'
        rcases List.mem_cons.1 he' with rfl | he'
        · exact h1
        · exact ih hw e' he'
    refine List.Perm.eq_of_pairwise (le := (· < ·)) (fun a b _ _ h1 h2 => absurd h1 (Nat.lt_asymm h2))
      (List.Pairwise.filter _ List.pairwise_lt_range) hs ?_
    refine (List.perm_ext_iff_of_nodup (List.nodup_range.filter _) ?_).2 fun k => ?_
    · exact hs.imp fun h => Nat.ne_of_lt h
    · simp only [List.mem_filter, List.mem_range, decide_eq_true_eq, List.mem_map]
      constructor
      · rintro ⟨-, hk⟩
        exact ⟨_, mem_of_read _ _ hk, rfl⟩
      · rintro ⟨e, he, rfl⟩
        exact ⟨hlt e he, by rw [read_of_mem _ hwf _ he]; exact hn e he⟩
  rw [CodeTree.nsym, key, List.length_map]

end Sys2Proof.Machine
end

