-- ==== Sys2Proof/Laws/Codec.lean ====
section
/-! SUPPORT. Everything ENC, DEC, PUSH and CODE can do when they answer a next state. -/

namespace Sys2Proof.Machine

/-- A codeword and a tree change are had together or not at all in ENC (R100). -/
theorem execEnc_cases {sym : Symbol} {s t : State} (h : execEnc sym s = .next t) :
    (s.fault = true ∧ t = reject s) ∨
    (s.fault = false ∧ treeWf s.cfg s.tree = true ∧ saturated s.cfg s.tree = true ∧
      t = raise .countSaturated 0 s) ∨
    (s.fault = false ∧ treeWf s.cfg s.tree = true ∧ saturated s.cfg s.tree = false ∧
      ∃ out t' leaf, codeword sym s.tree = some out ∧ codeSymbol s.cfg sym s.tree = some (t', leaf) ∧
        t = respond (okBitsOf out) (commitSymbol sym t' leaf s)) := by
  cases hf : s.fault
  case true => simp [execEnc, hf] at h; exact .inl ⟨rfl, h.symm⟩
  cases hw : treeWf s.cfg s.tree
  case false => simp [execEnc, hf, hw] at h
  cases hs : saturated s.cfg s.tree
  case true => simp [execEnc, hf, hw, hs] at h; exact .inr (.inl ⟨rfl, rfl, rfl, h.symm⟩)
  simp only [execEnc, hf, hw, hs, Bool.not_true, if_false, Bool.false_eq_true, orRefuse_eq_next, bind,
    Option.bind_eq_some_iff, Option.some.injEq] at h
  obtain ⟨out, ho, ⟨t', leaf⟩, hc, rfl⟩ := h
  exact .inr (.inr ⟨rfl, rfl, rfl, out, t', leaf, ho, hc, rfl⟩)

/-- One more symbol comes first: from a root that is not saturated (R101). -/
theorem codeSession_cons {cfg : Config} {sym : Symbol} {syms : List Symbol} {p q : CodeTree × Handle} :
    codeSession cfg (sym :: syms) p = some q ↔ saturated cfg p.1 = false ∧
      ∃ m, codeSymbol cfg sym p.1 = some m ∧ codeSession cfg syms m = some q := by
  cases hs : saturated cfg p.1 <;> simp [codeSession, hs, Option.bind_eq_some_iff]

/-- A session in two parts (R169). -/
theorem codeSession_append {cfg : Config} {syms syms' : List Symbol} {p q : CodeTree × Handle} :
    codeSession cfg (syms ++ syms') p = some q ↔
      ∃ m, codeSession cfg syms p = some m ∧ codeSession cfg syms' m = some q := by
  induction syms generalizing p with
  | nil => simp [codeSession]
  | cons sym syms ih =>
    simp only [List.cons_append, codeSession_cons, ih]
    constructor
    · rintro ⟨hs, m, hm, m', h, h'⟩
      exact ⟨m', ⟨hs, m, hm, h⟩, h'⟩
    · rintro ⟨m', ⟨hs, m, hm, h⟩, h'⟩
      exact ⟨hs, m, hm, m', h, h'⟩

/-- One more coded symbol at the end of a session (R100, R115). -/
theorem codeSession_snoc {cfg : Config} {syms : List Symbol} {sym : Symbol} {p m q : CodeTree × Handle}
    (h : codeSession cfg syms p = some m) (hs : saturated cfg m.1 = false)
    (hq : codeSymbol cfg sym m.1 = some q) : codeSession cfg (syms ++ [sym]) p = some q :=
  codeSession_append.2 ⟨m, h, codeSession_cons.2 ⟨hs, q, hq, rfl⟩⟩

/-- One visit of DEC's walk (R110). -/
theorem decWalk_succ (t : CodeTree) (fuel : Nat) (cur : Handle) (fifo : Bits) (n : Nat) (nd : Node)
    (hn : t.node? cur = some nd) :
    decWalk t (fuel + 1) cur fifo n = if nd.left = NONE then .leaf cur nd fifo n
      else match fifo with
        | [] => .dry n
        | b :: rest => decWalk t fuel (if b then nd.right else nd.left) rest (n + 1) := by
  cases fifo <;> simp [decWalk, hn]

/-- What DEC's walk pops: it ends at a leaf of the arena, or with an empty FIFO; the bits popped and
the bits left are the FIFO's, and one bit is popped per internal node visited (R110, R111). -/
theorem decWalk_pops (t : CodeTree) : ∀ (fuel : Nat) (cur : Handle) (fifo : Bits) (n : Nat),
    (∀ c nd rest m, decWalk t fuel cur fifo n = .leaf c nd rest m →
      t.node? c = some nd ∧ nd.left = NONE ∧ n ≤ m ∧ m < n + fuel ∧ rest = fifo.drop (m - n) ∧
        m - n ≤ fifo.length) ∧
    (∀ m, decWalk t fuel cur fifo n = .dry m → m = n + fifo.length ∧ fifo.length < fuel) := by
  intro fuel
  induction fuel with
  | zero => intro cur fifo n; simp [decWalk]
  | succ fuel ih =>
    intro cur fifo n
    cases hn : t.node? cur with
    | none => simp [decWalk, hn]
    | some nd =>
      rw [decWalk_succ t fuel cur fifo n nd hn]
      by_cases hl : nd.left = NONE
      · simp only [hl, if_true, Walk.leaf.injEq, reduceCtorEq, false_implies, implies_true, and_true]
        rintro c nd' rest m ⟨rfl, rfl, rfl, rfl⟩
        simp [hn, hl]
      · cases fifo with
        | nil => simp [hl, eq_comm]
        | cons b bs =>
          simp only [hl, if_false]
          obtain ⟨h1, h2⟩ := ih (if b then nd.right else nd.left) bs (n + 1)
          refine ⟨fun c nd' rest m h => ?_, fun m h => ?_⟩
          · obtain ⟨g1, g2, g3, g4, rfl, g6⟩ := h1 c nd' rest m h
            refine ⟨g1, g2, by omega, by omega, ?_, by simp only [List.length_cons]; omega⟩
            obtain ⟨k, hk⟩ : ∃ k, m - n = k + 1 := ⟨m - n - 1, by omega⟩
            rw [hk, List.drop_succ_cons]
            congr 1
            omega
          · obtain ⟨rfl, g⟩ := h2 m h
            simp only [List.length_cons]
            omega

/-- Everything DEC can do when it answers a next state (R110 to R113). -/
theorem execDec_cases {s t : State} (h : execDec s = .next t) :
    (s.fault = true ∧ t = reject s) ∨
    (s.fault = false ∧ treeWf s.cfg s.tree = true ∧ saturated s.cfg s.tree = true ∧
      t = raise .countSaturated 0 s) ∨
    (s.fault = false ∧ treeWf s.cfg s.tree = true ∧ saturated s.cfg s.tree = false ∧
      ((∃ n, decWalk s.tree (maxCodeLen + 1) s.tree.root s.inFifo 0 = .dry n ∧
          t = raise .incompleteStream n { s with inFifo := [] }) ∨
        (∃ cur nd fifo n, decWalk s.tree (maxCodeLen + 1) s.tree.root s.inFifo 0 = .leaf cur nd fifo n ∧
          ((nd.isNyt = true ∧ fifo.length < 8 ∧
              t = raise .incompleteStream n { s with inFifo := fifo }) ∨
            (nd.isNyt = true ∧ 8 ≤ fifo.length ∧ s.tree.symEntry (valMsb8 (fifo.take 8)) ≠ NONE ∧
              t = raise .dupSymbol (n + 8) { s with inFifo := fifo.drop 8 }) ∨
            (nd.isNyt = true ∧ 8 ≤ fifo.length ∧ s.tree.symEntry (valMsb8 (fifo.take 8)) = NONE ∧
              ∃ t' leaf, insert s.cfg (valMsb8 (fifo.take 8)) s.tree = some (t', leaf) ∧
                t = respond (.okSym (valMsb8 (fifo.take 8)) (BitVec.ofNat 9 (n + 8)))
                  (commitSymbol (valMsb8 (fifo.take 8)) t' leaf { s with inFifo := fifo.drop 8 })) ∨
            (nd.isNyt = false ∧ ∃ t', update s.cfg cur s.tree = some t' ∧
              t = respond (.okSym nd.sym (BitVec.ofNat 9 n))
                (commitSymbol nd.sym t' cur { s with inFifo := fifo })))))) := by
  rcases Bool.eq_false_or_eq_true s.fault with hf | hf
  · simp only [execDec, hf, if_true, Host.Outcome.next.injEq] at h; exact .inl ⟨hf, h.symm⟩
  cases hw : treeWf s.cfg s.tree
  case false => simp [execDec, hf, hw] at h
  cases hs : saturated s.cfg s.tree
  case true => simp [execDec, hf, hw, hs] at h; exact .inr (.inl ⟨hf, rfl, rfl, h.symm⟩)
  refine .inr (.inr ⟨hf, rfl, rfl, ?_⟩)
  rw [execDec, if_neg (by simp [hf]), if_neg (by simp [hw]), if_neg (by simp [hs])] at h
  cases hwalk : decWalk s.tree (maxCodeLen + 1) s.tree.root s.inFifo 0 with
  | broken => simp [hwalk] at h
  | dry n => simp only [hwalk, Host.Outcome.next.injEq] at h; exact .inl ⟨n, rfl, h.symm⟩
  | leaf cur nd fifo n =>
    simp only [hwalk] at h
    refine .inr ⟨cur, nd, fifo, n, rfl, ?_⟩
    cases hnyt : nd.isNyt
    case false =>
      simp only [hnyt, Bool.false_eq_true, if_false, decLeaf, orRefuse_eq_next, bind,
        Option.bind_eq_some_iff, Option.some.injEq] at h
      obtain ⟨t', ht, rfl⟩ := h
      exact .inr (.inr (.inr ⟨rfl, t', ht, rfl⟩))
    simp only [hnyt, if_true, decEscape] at h
    split_ifs at h with h8 hd
    · exact .inl ⟨rfl, h8, by simpa [eq_comm] using h⟩
    · exact .inr (.inl ⟨rfl, by omega, hd, by simpa [eq_comm] using h⟩)
    · simp only [orRefuse_eq_next, bind, Option.bind_eq_some_iff, Option.some.injEq] at h
      obtain ⟨⟨t', leaf⟩, ht, rfl⟩ := h
      exact .inr (.inr (.inl ⟨rfl, by omega, not_not.1 hd, t', leaf, ht, rfl⟩))

/-- Everything PUSH can do: it always answers (R120, R121). -/
theorem execPush_cases (n : Nat) (bits : BitVec 8) (s : State) :
    (s.fault = true ∧ execPush n bits s = .next (reject s)) ∨
    (s.fault = false ∧ s.cfg.inDepth < s.inFifo.length + n ∧
      execPush n bits s = .next (raise .inOverflow 0 s)) ∨
    (s.fault = false ∧ s.inFifo.length + n ≤ s.cfg.inDepth ∧
      execPush n bits s = .next (respond .ok { s with inFifo := s.inFifo ++ topBits n bits })) := by
  cases hf : s.fault
  case true => exact .inl ⟨rfl, by simp [execPush, hf]⟩
  rcases Nat.lt_or_ge s.cfg.inDepth (s.inFifo.length + n) with ho | ho
  · exact .inr (.inl ⟨rfl, ho, by simp [execPush, hf, ho]⟩)
  · exact .inr (.inr ⟨rfl, ho, by simp [execPush, hf, Nat.not_lt.2 ho]⟩)

/-- Everything CODE can do when it answers a next state (R172). -/
theorem execCode_cases {h : Handle} {s t : State} (he : execCode h s = .next t) :
    treeWf s.cfg s.tree = true ∧
      ((liveHandle s.tree h = false ∧ t = raise .badHandle 0 s) ∨
        (liveHandle s.tree h = true ∧ ∃ out, codePath s.tree h = some out ∧
          t = respond (okBitsOf out) s)) := by
  cases hw : treeWf s.cfg s.tree
  case false => simp [execCode, hw] at he
  refine ⟨rfl, ?_⟩
  cases hl : liveHandle s.tree h
  case false => simp [execCode, hw, hl] at he; exact .inl ⟨rfl, he.symm⟩
  simp only [execCode, hw, hl, Bool.not_true, if_false, Bool.false_eq_true, orRefuse_eq_next, bind,
    Option.bind_eq_some_iff, Option.some.injEq] at he
  obtain ⟨out, ho, rfl⟩ := he
  exact .inr ⟨rfl, out, ho, rfl⟩

/-- Everything RDNODE can do when it answers a next state (R185). -/
theorem execRdnode_cases {h : Handle} {s t : State} (he : execRdnode h s = .next t) :
    (s.tree.nextHandle.toNat ≤ h.toNat ∧ t = raise .badHandle 0 s) ∨
      (h.toNat < s.tree.nextHandle.toNat ∧ ∃ nd, s.tree.node? h = some nd ∧
        t = respond (.okNode nd) s) := by
  unfold execRdnode at he
  split_ifs at he with hh
  · exact .inl ⟨hh, by simpa [eq_comm] using he⟩
  · simp only [orRefuse_eq_next, bind, Option.bind_eq_some_iff, Option.some.injEq] at he
    obtain ⟨nd, hn, rfl⟩ := he
    exact .inr ⟨by omega, nd, hn, rfl⟩

/-- The one-visit form of the walk of CODE_PATH (R170). -/
theorem codePathFrom_succ {t : CodeTree} {fuel : Nat} {c : Handle} {out bits : Bits} :
    codePathFrom t (fuel + 1) c out = some bits ↔ ∃ nd, t.node? c = some nd ∧
      ((nd.parent = NONE ∧ bits = out) ∨ (nd.parent ≠ NONE ∧ ∃ p, t.node? nd.parent = some p ∧
        codePathFrom t fuel nd.parent (decide (slotOf p c = .right) :: out) = some bits)) := by
  simp only [codePathFrom, bind, Option.bind_eq_some_iff]
  refine exists_congr fun nd => and_congr_right fun _ => ?_
  by_cases hp : nd.parent = NONE
  · simp [hp, eq_comm]
  · simp [hp, Option.bind_eq_some_iff]

/-- The walk only prepends: the bits so far stay at the end (R170). -/
theorem codePathFrom_append {t : CodeTree} : ∀ {fuel : Nat} {c : Handle} {out bits : Bits},
    codePathFrom t fuel c out = some bits → ∃ path, bits = path ++ out ∧ path.length < fuel ∧
      codePathFrom t fuel c [] = some path := by
  intro fuel
  induction fuel with
  | zero => intro c out bits h; simp [codePathFrom] at h
  | succ fuel ih =>
    intro c out bits h
    obtain ⟨nd, hn, ⟨hp, rfl⟩ | ⟨hp, p, hpn, h⟩⟩ := codePathFrom_succ.1 h
    · exact ⟨[], by simp, by simp, codePathFrom_succ.2 ⟨nd, hn, .inl ⟨hp, rfl⟩⟩⟩
    · obtain ⟨path, rfl, hlen, h0⟩ := ih h
      refine ⟨path ++ [decide (slotOf p c = .right)], by simp, by simpa using hlen, ?_⟩
      refine codePathFrom_succ.2 ⟨nd, hn, .inr ⟨hp, p, hpn, ?_⟩⟩
      clear h hlen ih
      generalize decide (slotOf p c = .right) = b
      revert h0
      generalize nd.parent = c'
      suffices key : ∀ (fuel : Nat) (c : Handle) (out path suffix : Bits),
          codePathFrom t fuel c out = some path → codePathFrom t fuel c (out ++ suffix)
            = some (path ++ suffix) from fun h0 => by simpa using key fuel c' [] path [b] h0
      intro fuel
      induction fuel with
      | zero => intro c out path suffix h; simp [codePathFrom] at h
      | succ fuel ih =>
        intro c out path suffix h
        obtain ⟨nd, hn, ⟨hp, rfl⟩ | ⟨hp, p, hpn, h⟩⟩ := codePathFrom_succ.1 h
        · exact codePathFrom_succ.2 ⟨nd, hn, .inl ⟨hp, rfl⟩⟩
        · exact codePathFrom_succ.2 ⟨nd, hn, .inr ⟨hp, p, hpn, by
            simpa using ih _ _ _ suffix h⟩⟩

/-- A path-code has at most MAX_CODE_LEN bits (R170). -/
theorem codePath_length_le {t : CodeTree} {x : Handle} {bits : Bits} (h : codePath t x = some bits) :
    bits.length ≤ maxCodeLen := by
  obtain ⟨path, rfl, hlen, -⟩ := codePathFrom_append h
  simp only [List.append_nil]
  omega

end Sys2Proof.Machine
end

