-- ==== Sys2Proof/Laws/PerInstr.lean ====
section
/-! SUPPORT. Facts about every instruction, one lemma per constructor. -/

namespace Sys2Proof.Laws

/-- Family EncodesInItsRow: the word of a command is selected by the command's row of the opcode map
(30_encoding.md R77). -/
def EncodesInItsRow.Statement (i : Instr) : Prop :=
  i.wellFormed = true → (opcodeRow i).selects (encode i) = true

/-- A word whose high bits are fixed, under the mask of its high bits. -/
theorem append_and_high {a b : Nat} (hi : BitVec a) (lo : BitVec b) :
    (hi ++ lo) &&& (BitVec.allOnes a ++ 0#b) = hi ++ 0#b := by
  simp [BitVec.and_append]

/-- Format S: an 8-bit operand under the mask 0xFF00. -/
theorem formatS_and (op : BitVec 4) (sym : Symbol) :
    (op ++ 0#4 ++ sym) &&& 0xFF00#16 = op ++ 0#4 ++ 0#8 :=
  append_and_high (op ++ 0#4) sym

/-- Formats H and K: a 10-bit operand under the mask 0xFC00. -/
theorem formatH_and (op : BitVec 4) (v : BitVec 10) :
    (op ++ 0#2 ++ v) &&& 0xFC00#16 = op ++ 0#2 ++ 0#10 :=
  append_and_high (op ++ 0#2) v

/-- Format P: NM1 and the bits under the mask 0xF800. -/
theorem formatP_and (op : BitVec 4) (nm1 : BitVec 3) (bits : BitVec 8) :
    (op ++ 0#1 ++ nm1 ++ bits) &&& 0xF800#16 = op ++ 0#1 ++ 0#3 ++ 0#8 := by
  rw [show 0xF800#16 = BitVec.allOnes 5 ++ 0#3 ++ 0#8 from rfl, BitVec.and_append,
    append_and_high (op ++ 0#1) nm1, BitVec.and_zero]

theorem EncodesInItsRow.reset : EncodesInItsRow.Statement .reset := by
  intro; decide

theorem EncodesInItsRow.enc (sym : Symbol) : EncodesInItsRow.Statement (.enc sym) :=
  fun _ => decide_eq_true (formatS_and 0x2#4 sym)

theorem EncodesInItsRow.dec : EncodesInItsRow.Statement .dec := by
  intro; decide

theorem EncodesInItsRow.push (n : Nat) (bits : BitVec 8) :
    EncodesInItsRow.Statement (.push n bits) :=
  fun _ => decide_eq_true (formatP_and 0x4#4 _ bits)

theorem EncodesInItsRow.rdroot : EncodesInItsRow.Statement .rdroot := by
  intro; decide

theorem EncodesInItsRow.rdnyt : EncodesInItsRow.Statement .rdnyt := by
  intro; decide

theorem EncodesInItsRow.rdlast : EncodesInItsRow.Statement .rdlast := by
  intro; decide

theorem EncodesInItsRow.rdsym (sym : Symbol) : EncodesInItsRow.Statement (.rdsym sym) :=
  fun _ => decide_eq_true (formatS_and 0x8#4 sym)

theorem EncodesInItsRow.rdnode (h : Handle) : EncodesInItsRow.Statement (.rdnode h) :=
  fun _ => decide_eq_true (formatH_and 0x9#4 h)

theorem EncodesInItsRow.code (h : Handle) : EncodesInItsRow.Statement (.code h) :=
  fun _ => decide_eq_true (formatH_and 0xA#4 h)

theorem EncodesInItsRow.rdnum (k : Number) : EncodesInItsRow.Statement (.rdnum k) :=
  fun _ => decide_eq_true (formatH_and 0xB#4 k)

theorem EncodesInItsRow.rdstat : EncodesInItsRow.Statement .rdstat := by
  intro; decide

end Sys2Proof.Laws
end

