-- ==== Sys2Proof/Laws/Step.lean ====
section
/-! SUPPORT. What one step can do. -/

namespace Sys2Proof.Machine

/-- No meaning ends in a fault outcome: a fault of the engine is a next state (log entry 4). -/
theorem exec_ne_fault (i : Instr) (s : State) (f : Fault) : exec i s ≠ .fault f := by
  intro h
  cases i <;> simp only [exec, execReset, execEnc, execDec, execPush, execRdroot, execRdnyt,
    execRdlast, execRdsym, execRdnode, execCode, execRdnum, execRdstat, decEscape, decLeaf] at h
  all_goals repeat' split at h
  all_goals first | exact orRefuse_ne_fault h | cases h

/-- The one refusal of a meaning is that of an ill-formed state (log entry 5). -/
theorem exec_refused {i : Instr} {s : State} {r : Refusal} (h : exec i s = .refused r) :
    r = .illFormedState := by
  cases i <;> simp only [exec, execReset, execEnc, execDec, execPush, execRdroot, execRdnyt,
    execRdlast, execRdsym, execRdnode, execCode, execRdnum, execRdstat, decEscape, decLeaf] at h
  all_goals repeat' split at h
  all_goals first | exact (orRefuse_eq_refused.1 h).2 | (cases h; rfl) | cases h

/-- The parts of the state invariant. -/
theorem inv_iff (s : State) :
    s.inv = true ↔ s.inFifo.length ≤ s.cfg.inDepth ∧ wfStatus s = true ∧ treeWf s.cfg s.tree = true ∧
      wfLast s = true ∧ wfFirstFault s = true ∧ wfSession s = true := by
  simp only [State.inv, Bool.and_eq_true, decide_eq_true_eq, and_assoc]

theorem wfSession_iff (s : State) :
    wfSession s = true ↔
      codeSession s.cfg s.coded (CodeTree.initial s.cfg, NONE) = some (s.tree, s.last) := by
  simp only [wfSession, decide_eq_true_eq]

theorem ifMeaningful_of_inv {s : State} {o : Host.Outcome State Fault Refusal} (h : s.inv = true) :
    ifMeaningful s o = o := if_pos h

theorem ifMeaningful_of_not_inv {s : State} {o : Host.Outcome State Fault Refusal}
    (h : s.inv = false) : ifMeaningful s o = .refused .illFormedState := by
  simp [ifMeaningful, h]

/-- A state that fails the invariant is refused, whatever the host delivers (R220; log entry 5). -/
theorem step_of_not_inv {s : State} (h : s.inv = false) : step s = .refused .illFormedState := by
  unfold step
  split <;> exact ifMeaningful_of_not_inv h

/-- The words still to come and the last response are no part of the invariant. -/
@[simp] theorem inv_cmds (s : State) (ws : List Word) : State.inv { s with cmds := ws } = s.inv := rfl
@[simp] theorem inv_resp (s : State) (r : Option Response) : State.inv { s with resp := r } = s.inv := rfl
@[simp] theorem inv_withFetchWord (s : State) (nbits w : Nat) :
    (s.withFetchWord nbits w).inv = s.inv := rfl

/-- Everything a step can do when it answers a next state, which it does from a state that meets the
invariant alone: wait, run the delivered command, or answer an illegal word. -/
theorem step_cases {s t : State} (h : step s = .next t) :
    s.inv = true ∧ ((s.cmds = [] ∧ t = s) ∨ ∃ w ws, s.cmds = w :: ws ∧
      ((∃ i, decode w = .command i ∧ exec i { s with cmds := ws } = .next t) ∨
        (∃ why, decode w = .illegal why ∧ t = raise .illegalCmd 0 { s with cmds := ws }))) := by
  cases hi : s.inv with
  | false => rw [step_of_not_inv hi] at h; cases h
  | true =>
  refine ⟨rfl, ?_⟩
  cases hc : s.cmds with
  | nil =>
    simp only [step, takeWord, hc, ifMeaningful_of_inv hi, Host.Outcome.next.injEq] at h
    exact .inl ⟨rfl, h.symm⟩
  | cons w ws =>
    refine .inr ⟨w, ws, rfl, ?_⟩
    simp only [step, takeWord_cons hc, ifMeaningful_of_inv hi] at h
    cases hd : decode w with
    | command i => simp only [hd] at h; exact .inl ⟨i, rfl, h⟩
    | illegal why =>
      simp only [hd, illegalWord, Host.Outcome.next.injEq] at h
      exact .inr ⟨why, rfl, h.symm⟩

/-- What the host lays down to have one table word run next is what a step takes. -/
theorem takeWord_withFetchWord (s : State) (nbits w : Nat) :
    takeWord (s.withFetchWord nbits w) = some (tableWord nbits w, s) := rfl

end Sys2Proof.Machine
end

