-- ==== Sys2Proof/Machine/Assembler.lean ====
section
/-! DEFINITION. The assembler notation (30_encoding.md R88 to R93): one line of text to the words the
host issues. Host software, not hardware. The text is a list of characters. -/

namespace Sys2Proof.Machine

/-- What a line assembles to: words to issue, or the host loop DECALL (R92). -/
inductive AsmItem where
  | word (w : Word)
  | decall
deriving DecidableEq, Repr

/-- A piece of a line (R88). -/
inductive Token where
  | name (cs : List Char)
  | comma
  | text (cs : List Char)
  | char (c : Char)
deriving DecidableEq, Repr

/-- Where the scanner stands: outside quotes with the letters of the current word, inside a string,
after the opening quote of a character literal, or after its character. -/
inductive LexMode where
  | plain (word : List Char)
  | inText (cs : List Char)
  | openChar
  | closeChar (c : Char)
deriving DecidableEq, Repr

/-- The double quote. -/
def dquote : Char := Char.ofNat 0x22

/-- The single quote. -/
def squote : Char := Char.ofNat 0x27

/-- Put a finished word before the tokens that follow it. -/
def flushName (word : List Char) (ts : List Token) : List Token :=
  if word = [] then ts else .name word :: ts

/-- The tokens of a line. A comment starts at `;` outside quotes (R88). DESIGN CHOICE (log entry 11): blanks
and tabs separate words; a comma or a quote ends the word before it, and a word may follow a closing quote,
with no blank between; a string or a character literal ends at the next quote, with no escape; a character
literal holds exactly one character, whichever it is. -/
def lex : LexMode → List Char → Option (List Token)
  | .plain word, [] => some (flushName word [])
  | .plain word, c :: cs =>
    if c = ';' then some (flushName word [])
    else if c = ' ' || c = '\t' then (lex (.plain []) cs).map (flushName word)
    else if c = ',' then (lex (.plain []) cs).map fun ts => flushName word (.comma :: ts)
    else if c = dquote then (lex (.inText []) cs).map (flushName word)
    else if c = squote then (lex .openChar cs).map (flushName word)
    else lex (.plain (word ++ [c])) cs
  | .inText acc, c :: cs =>
    if c = dquote then (lex (.plain []) cs).map (.text acc :: ·) else lex (.inText (acc ++ [c])) cs
  | .openChar, c :: cs => lex (.closeChar c) cs
  | .closeChar a, c :: cs =>
    if c = squote then (lex (.plain []) cs).map (.char a :: ·) else none
  | .inText _, [] | .openChar, [] | .closeChar _, [] => none

/-- A digit's value, if it is one of the base. -/
def digitValue (base : Nat) (c : Char) : Option Nat :=
  let v := if '0' ≤ c && c ≤ '9' then c.toNat - '0'.toNat
    else if 'a' ≤ c && c ≤ 'f' then c.toNat - 'a'.toNat + 10
    else if 'A' ≤ c && c ≤ 'F' then c.toNat - 'A'.toNat + 10
    else base
  if v < base then some v else none

/-- The digits of a number in a base; at least one. -/
def digitsValue (base : Nat) (cs : List Char) : Option Nat :=
  if cs = [] then none
  else cs.foldlM (fun acc c => (digitValue base c).map fun d => acc * base + d) 0

/-- A decimal, hexadecimal (`0x`) or binary (`0b`) numeral (R88). DESIGN CHOICE (log entry 11): the base marks
are lower case, hexadecimal digits are of either case, and leading zeros are allowed. -/
def numeral : List Char → Option Nat
  | '0' :: 'x' :: ds => digitsValue 16 ds
  | '0' :: 'b' :: ds => digitsValue 2 ds
  | ds => digitsValue 10 ds

/-- A numeric operand within its bound; a character literal stands for the code the host's character
map `chars` gives it (R88, R89, I7). -/
def operand (chars : Char → Option Symbol) (bound : Nat) : Token → Option Nat
  | .name cs => (numeral cs).bind fun v => if v ≤ bound then some v else none
  | .char c => (chars c).bind fun v => if v.toNat ≤ bound then some v.toNat else none
  | .comma | .text _ => none

/-- A string of binary digits; any other character is refused (R89, R90). -/
def bitString (cs : List Char) : Option Bits :=
  cs.mapM fun c => if c = '0' then some false else if c = '1' then some true else none

/-- Operands separated by commas, at least one (R91). -/
def operandList (chars : Char → Option Symbol) (bound : Nat) : List Token → Option (List Nat)
  | [a] => (operand chars bound a).map fun v => [v]
  | a :: .comma :: ts => do
    let v ← operand chars bound a
    let vs ← operandList chars bound ts
    some (v :: vs)
  | _ => none

/-- The words of a list of commands. -/
def wordsOf (is : List Instr) : List AsmItem := is.map fun i => .word (encode i)

/-- One command from a mnemonic in capitals and its operand tokens (R89), or a pseudo-instruction
(R90 to R93). -/
def assemble (chars : Char → Option Symbol) (mnemonic : String) (ops : List Token) :
    Option (List AsmItem) :=
  let one (bound : Nat) (mk : Nat → Instr) : Option (List AsmItem) :=
    match ops with
    | [a] => (operand chars bound a).map fun v => wordsOf [mk v]
    | _ => none
  let plain (i : Instr) : Option (List AsmItem) := if ops = [] then some (wordsOf [i]) else none
  if mnemonic = "RESET" then plain .reset
  else if mnemonic = "ENC" then one 255 fun v => .enc (BitVec.ofNat 8 v)
  else if mnemonic = "DEC" then plain .dec
  else if mnemonic = "PUSH" then
    match ops with
    | [.text cs] => (bitString cs).bind fun s =>
        if 1 ≤ s.length && s.length ≤ 8 then some (wordsOf [pushOf s]) else none
    | [a, .comma, b] => do
        let n ← operand chars 8 a
        let v ← operand chars 255 b
        if 1 ≤ n then some (wordsOf [.push n (BitVec.ofNat 8 v)]) else none
    | _ => none
  else if mnemonic = "RDROOT" then plain .rdroot
  else if mnemonic = "RDNYT" then plain .rdnyt
  else if mnemonic = "RDLAST" then plain .rdlast
  else if mnemonic = "RDSYM" then one 255 fun v => .rdsym (BitVec.ofNat 8 v)
  else if mnemonic = "RDNODE" then one 1023 fun v => .rdnode (BitVec.ofNat 10 v)
  else if mnemonic = "CODE" then one 1023 fun v => .code (BitVec.ofNat 10 v)
  else if mnemonic = "RDNUM" then one 1023 fun v => .rdnum (BitVec.ofNat 10 v)
  else if mnemonic = "RDSTAT" then plain .rdstat
  else if mnemonic = "PUSHS" then
    match ops with
    | [.text cs] => (bitString cs).map fun s => wordsOf (pushs s)
    | _ => none
  else if mnemonic = "ENCS" then
    match ops with
    | [.text cs] => (cs.mapM chars).map fun syms => wordsOf (syms.map .enc)
    | _ => (operandList chars 255 ops).map fun vs => wordsOf (vs.map fun v => .enc (BitVec.ofNat 8 v))
  else if mnemonic = "DECALL" then (if ops = [] then some [.decall] else none)
  else if mnemonic = "ENUMSYM" then (if ops = [] then some (wordsOf enumsym) else none)
  else none

/-- One line (R88): mnemonics are case-insensitive; a line with no word issues nothing (DESIGN CHOICE, log
entry 11). -/
def assembleLine (chars : Char → Option Symbol) (line : List Char) : Option (List AsmItem) :=
  match lex (.plain []) line with
  | some (.name m :: ops) => assemble chars (String.ofList (m.map Char.toUpper)) ops
  | some [] => some []
  | _ => none

/-- The character map of the spec's examples: ASCII (G1; a parameter of the host, I7). -/
def asciiCode (c : Char) : Option Symbol :=
  if c.toNat < 128 then some (BitVec.ofNat 8 c.toNat) else none

end Sys2Proof.Machine
end

