-- ==== Sys2Proof/Tests/Slice0.lean ====
section
/-! SUPPORT. Tests against the spec's own words and vectors (95_test_vectors.md), and for each statement with
hypotheses a witness: concrete states and operands that meet all of them. -/

namespace Sys2Proof.Tests

open Sys2Proof Sys2Proof.Machine

/-- The next state of an outcome, if it has one. -/
def nextOf (o : Host.Outcome State Fault Refusal) : Option State :=
  match o with
  | .next s => some s
  | .fault _ | .refused _ => none

theorem eq_next {o : Host.Outcome State Fault Refusal} {t : State} (h : nextOf o = some t) :
    o = .next t := by
  cases o <;> simp_all [nextOf]

/-! ### WellFormed refuses each ill-formed term -/

theorem test_push_zero_is_ill_formed : (Instr.push 0 0xFF).wellFormed = false := by decide
theorem test_push_nine_is_ill_formed : (Instr.push 9 0xFF).wellFormed = false := by decide
theorem test_push_eight_is_well_formed : (Instr.push 8 0xFF).wellFormed = true := by decide

/-! ### Decoding: one word of each row, written out from R71 and R77 -/

theorem test_decode_reset : decode 0b0001000000000000#16 = .command .reset := by decide
theorem test_decode_enc : decode 0b0010000001000001#16 = .command (.enc 0x41) := by decide
theorem test_decode_dec : decode 0b0011000000000000#16 = .command .dec := by decide
theorem test_decode_push : decode 0b0100011000110110#16 = .command (.push 7 0b00110110) := by decide
theorem test_decode_rdroot : decode 0b0101000000000000#16 = .command .rdroot := by decide
theorem test_decode_rdnyt : decode 0b0110000000000000#16 = .command .rdnyt := by decide
theorem test_decode_rdlast : decode 0b0111000000000000#16 = .command .rdlast := by decide
theorem test_decode_rdsym : decode 0b1000000011111111#16 = .command (.rdsym 0xFF) := by decide
theorem test_decode_rdnode : decode 0b1001001111111111#16 = .command (.rdnode 1023) := by decide
theorem test_decode_code : decode 0b1010000000001101#16 = .command (.code 13) := by decide
theorem test_decode_rdnum : decode 0b1011001000000000#16 = .command (.rdnum 512) := by decide
theorem test_decode_rdstat : decode 0b1100000000000000#16 = .command .rdstat := by decide

/-- The illegal words of V81, V9, V30, V43 and V62. -/
theorem test_illegal_words :
    ([0xD000, 0xE123, 0xFFFF, 0x0000].all fun w => decide (decode w = .illegal .opcode)) = true ∧
    ([0x1001, 0x5001, 0xC800, 0x8100, 0xB400, 0x2141, 0x3001, 0x4800, 0xA40A, 0xAC00].all fun w =>
      decide (decode w = .illegal .reservedBits)) = true := by decide

theorem test_table_word : decodeTableWord 16 0x9002 = some (.rdnode 2) := by decide

/-! ### States of the vectors, written out from their tables -/

/-- The arena at the end of V1. -/
def arenaV1 : List Node :=
  [{ live := false, isNyt := false, symv := false, sym := 0, count := 0, number := 512,
     left := NONE, right := NONE, parent := NONE },
   { live := true, isNyt := true, symv := false, sym := 0, count := 0, number := 510,
     left := NONE, right := NONE, parent := 3 },
   { live := true, isNyt := false, symv := true, sym := 0x41, count := 1, number := 511,
     left := NONE, right := NONE, parent := 3 },
   { live := true, isNyt := false, symv := false, sym := 0, count := 2, number := 512,
     left := 1, right := 2, parent := NONE }]

/-- The end state of V1. -/
def stateV1 : State :=
  { State.reset with
    tree := { arena := arenaV1, nextHandle := 4, root := 3, nyt := 1, symMap := [(0x41, 2)],
              numMap := [(510, 1), (511, 2), (512, 3)], nextNum := 509 }
    last := 2
    coded := [0x41]
    resp := some (.okBits 8 [false, true, false, false, false, false, false, true]) }

/-- The arena at the end of V2. -/
def arenaV2 : List Node :=
  [{ live := false, isNyt := false, symv := false, sym := 0, count := 0, number := 512,
     left := NONE, right := NONE, parent := NONE },
   { live := false, isNyt := false, symv := false, sym := 0, count := 0, number := 510,
     left := NONE, right := NONE, parent := 3 },
   { live := true, isNyt := false, symv := true, sym := 0x41, count := 1, number := 510,
     left := NONE, right := NONE, parent := 3 },
   { live := true, isNyt := false, symv := false, sym := 0, count := 3, number := 512,
     left := 2, right := 6, parent := NONE },
   { live := true, isNyt := true, symv := false, sym := 0, count := 0, number := 508,
     left := NONE, right := NONE, parent := 6 },
   { live := true, isNyt := false, symv := true, sym := 0x42, count := 1, number := 509,
     left := NONE, right := NONE, parent := 6 },
   { live := true, isNyt := false, symv := false, sym := 0, count := 2, number := 511,
     left := 4, right := 5, parent := 3 }]

/-- The end state of V2. -/
def stateV2 : State :=
  { State.reset with
    tree := { arena := arenaV2, nextHandle := 7, root := 3, nyt := 4, symMap := [(0x41, 2), (0x42, 5)],
              numMap := [(508, 4), (509, 5), (510, 2), (511, 6), (512, 3)], nextNum := 507 }
    last := 5
    coded := [0x41, 0x42]
    resp := some (.okBits 9 [false, false, true, false, false, false, false, true, false]) }

/-- The state of V7 and V29 when the root's count is COUNT_MAX = 7 (COUNT_WIDTH = 3). -/
def stateSaturated : State :=
  { stateV1 with
    cfg := { Config.standard with countWidth := 3 }
    coded := List.replicate 6 0x41
    tree := { stateV1.tree with arena :=
      [{ live := false, isNyt := false, symv := false, sym := 0, count := 0, number := 512,
         left := NONE, right := NONE, parent := NONE },
       { live := true, isNyt := true, symv := false, sym := 0, count := 0, number := 510,
         left := NONE, right := NONE, parent := 3 },
       { live := true, isNyt := false, symv := true, sym := 0x41, count := 6, number := 511,
         left := NONE, right := NONE, parent := 3 },
       { live := true, isNyt := false, symv := false, sym := 0, count := 7, number := 512,
         left := 1, right := 2, parent := NONE }] } }

/-- `s` with the FIFO's bits given. -/
def withFifo (s : State) (bits : Bits) : State := { s with inFifo := bits }

/-- `s` with a fault recorded, as V23 leaves it. -/
def faulted (s : State) : State := { s with fault := true, errCode := 2 }

/-- The bits of V20: 'A' as an escape of the fresh tree. -/
def bitsA : Bits := [false, true, false, false, false, false, false, true]

/-- The bits of the second 'B' escape of V2. -/
def bitsB : Bits := [false, false, true, false, false, false, false, true, false]

/-! ### One step against the vectors -/

/-- V1: `ENC 'A'` from reset, through the fetch of the command word. -/
theorem test_enc_first : nextOf (step (State.reset.withFetchWord 16 0x2041)) = some stateV1 := by
  decide

/-- V2: the second distinct symbol, with the sibling swap. -/
theorem test_enc_second : nextOf (exec (.enc 0x42) stateV1) = some stateV2 := by decide

/-- V20: `DEC` of the bits of 'A' makes V1's tree. -/
theorem test_dec_first : nextOf (exec .dec (withFifo State.reset bitsA)) =
    some { stateV1 with resp := some (.okSym 0x41 8) } := by decide

/-- V28: an escape that names a present symbol pops 9 bits and faults. -/
theorem test_dec_dup : nextOf (exec .dec (withFifo stateV1 (false :: bitsA))) =
    some { stateV1 with fault := true, errCode := 3, resp := some (.err .dupSymbol 9) } := by decide

/-- V41: with n = 1 only the top bit is pushed. -/
theorem test_push_one : nextOf (exec (.push 1 0x80) State.reset) =
    some { State.reset with inFifo := [true], resp := some .ok } := by decide

/-- V40: seven bits. -/
theorem test_push_seven : (nextOf (exec (.push 7 0x40) State.reset)).map (·.inFifo) =
    some [false, true, false, false, false, false, false] := by decide

/-- V3's CODE_PATH column: the NYT of "AB" has the code `10`. -/
theorem test_code_nyt : (nextOf (exec (.code 4) stateV2)).bind (·.resp) =
    some (.okBits 2 [true, false]) := by decide

/-- R172's example: CODE of the historical first NYT. -/
theorem test_code_historical : (nextOf (exec (.code 0) stateV1)).bind (·.resp) =
    some (.err .badHandle 0) := by decide

/-- R181's example. -/
theorem test_rdroot : (nextOf (exec .rdroot stateV1)).bind (·.resp) = some (.okHandle 3) := by decide

/-- V70: after reset. -/
theorem test_rdnyt : (nextOf (exec .rdnyt State.reset)).bind (·.resp) = some (.okHandle 0) := by
  decide

/-- V70: LAST is NONE after reset. -/
theorem test_rdlast : (nextOf (exec .rdlast State.reset)).bind (·.resp) =
    some (.okHandle 0x3FF) := by decide

/-- V28: RDSYM of a coded symbol. -/
theorem test_rdsym : (nextOf (exec (.rdsym 0x41) stateV1)).bind (·.resp) = some (.okHandle 2) := by
  decide

/-- R185's example. -/
theorem test_rdnode : (nextOf (exec (.rdnode 2) stateV1)).bind (·.resp) =
    some (.okNode { live := true, isNyt := false, symv := true, sym := 0x41, count := 1, number := 511,
                    left := NONE, right := NONE, parent := 3 }) := by decide

/-- V72: an unallocated handle. -/
theorem test_rdnode_bad : (nextOf (exec (.rdnode 7) stateV2)).bind (·.resp) =
    some (.err .badHandle 0) := by decide

/-- R186's example on the tree of "AB". -/
theorem test_rdnum : (nextOf (exec (.rdnum 511) stateV2)).bind (·.resp) = some (.okHandle 6) := by
  decide

/-- V72: a number above MAX_NUMBER. -/
theorem test_rdnum_bad : (nextOf (exec (.rdnum 513) stateV2)).bind (·.resp) =
    some (.err .badNumber 0) := by decide

/-- V24: seven bits left, INCOMPLETE_STREAM recorded. -/
theorem test_rdstat : (nextOf (exec .rdstat (faulted (withFifo State.reset (bitsA.take 7))))).bind
    (·.resp) = some (.okStatus 0x0001000700000005) := by decide

/-- V20: the status word of one symbol. -/
theorem test_rdstat_nsym : (nextOf (exec .rdstat stateV1)).bind (·.resp) =
    some (.okStatus 0x0004000000000100) := by decide

/-- V80: RESET after a fault. -/
theorem test_reset : nextOf (exec .reset (faulted (withFifo stateV2 bitsA))) =
    some { State.reset with resp := some .ok } := by decide

/-- V7: the seventh ENC. -/
theorem test_enc_saturated : nextOf (exec (.enc 0x41) stateSaturated) =
    some { stateSaturated with fault := true, errCode := 4,
                               resp := some (.err .countSaturated 0) } := by decide

/-- V9: an illegal word, and the rejection after it. -/
theorem test_illegal_step : (nextOf (step (State.reset.withFetchWord 16 0x2141))).map
    (fun s => (s.fault, s.errCode, s.resp)) = some (true, 1, some (.err .illegalCmd 0)) := by decide

/-- An ill-formed tree is refused: a NYT register that names no entry. -/
theorem test_ill_formed_tree_is_refused :
    nextOf (exec (.enc 0x41) { State.reset with tree := { State.reset.tree with nyt := 5 } }) = none := by
  decide

/-- R90's example. -/
theorem test_pushs_words : (pushs ("01000001001000010011011".toList.map (· == '1'))).map encode =
    [0x4741, 0x4721, 0x4636] := by decide

/-- R88's syntax: a character literal, lower case, a comment. -/
theorem test_assembler_line : assembleLine asciiCode "enc 'A' ; first".toList =
    some [.word 0x2041] := by decide

/-- R89: an operand out of range is refused. -/
theorem test_assembler_refuses : assembleLine asciiCode "RDNODE 1024".toList = none := by decide

/-! ### Witnesses: the hypotheses of each statement, met together -/

theorem witness_DecodeOfEncodeIsTheCommand :
    (Instr.push 1 0).wellFormed = true ∧ (Instr.push 8 0xFF).wellFormed = true := by decide

theorem witness_EncodeOfDecodeIsTheWord : decode 0x407F#16 = .command (.push 1 0x7F) := by decide

theorem witness_EachWordIsSelectedByItsOwnRowAlone :
    decode 0x9002#16 = .command (.rdnode 2) ∧ decode 0xAC00#16 = .illegal .reservedBits := by decide

theorem witness_StepRunsTheDeliveredCommand :
    (State.reset.withFetchWord 16 0x2041).inv = true ∧
    (State.reset.withFetchWord 16 0x2041).cmds = [0x2041#16] ∧
      decode 0x2041#16 = .command (.enc 0x41) := by decide

/-- Ill-formed in the tree, in LAST, in the status, in the ground of the recorded fault, and a LAST that
another session would leave. -/
theorem witness_StepRefusesAStateThatFailsTheInvariant :
    State.inv { State.reset with tree := { State.reset.tree with nyt := 5 } } = false ∧
      State.inv { stateV1 with last := 3 } = false ∧ State.inv { stateV1 with errCode := 9 } = false ∧
      State.inv { faulted stateV1 with errCode := 4 } = false ∧
      State.inv { stateV2 with last := 2 } = false := by decide

/-- A refused RESET: R220 goes before the reset procedure. -/
theorem test_ill_formed_state_is_refused_by_step :
    nextOf (step (State.withFetchWord { stateV1 with last := 3 } 16 0x1000)) = none := by decide

theorem witness_StepWithNoWordDeliveredWaits : State.reset.inv = true ∧ State.reset.cmds = [] := by
  decide

theorem witness_IllegalWordRecordsIllegalCmd :
    ((faulted stateV1).withFetchWord 16 0x2100).inv = true ∧
      ((faulted stateV1).withFetchWord 16 0x2100).cmds = [0x2100#16] ∧
      decode 0x2100#16 = .illegal .reservedBits := by decide

theorem witness_InitialStateIsTheResetState :
    Config.standard.wf = true ∧ ({ maxNumber := 1022, countWidth := 2, inDepth := 264 } : Config).wf = true := by
  decide

theorem witness_FaultedEngineRejectsCodersAndPush :
    (faulted stateV1).fault = true ∧ isQuery (.code 0) = true ∧ Instr.code 0 ≠ .rdstat ∧
      nextOf (exec (.code 0) (faulted stateV1)) ≠ none ∧
      nextOf (exec (.code 0) { faulted stateV1 with fault := false }) ≠ none ∧
      ((faulted stateV1).withFetchWord 16 0xD000).inv = true ∧
      ((faulted stateV1).withFetchWord 16 0xD000).cmds = [0xD000#16] ∧
      decode 0xD000#16 = .illegal .opcode := by decide

/-- A recorded fault that a query's fault does not replace. -/
theorem witness_ErrCodeKeepsTheFirstFaultUntilReset_faulted :
    ((faulted stateV1).withFetchWord 16 0xB201).cmds = [0xB201#16] ∧ (0xB201#16 ≠ 0x1000#16) ∧
      (faulted stateV1).fault = true ∧
      (nextOf (step ((faulted stateV1).withFetchWord 16 0xB201))).map (fun t => (t.errCode, t.resp)) =
        some (2, some (.err .badNumber 0)) := by decide

/-- A first fault recorded, and a command without one. -/
theorem witness_ErrCodeKeepsTheFirstFaultUntilReset_clean :
    stateV1.fault = false ∧
      (nextOf (step (stateV1.withFetchWord 16 0xB201))).map (fun t => (t.fault, t.errCode)) =
        some (true, 7) ∧
      (nextOf (step (stateV1.withFetchWord 16 0xB200))).map (fun t => (t.fault, t.errCode)) =
        some (false, 0) := by decide

theorem witness_FaultsArePrecise_dup :
    ((withFifo stateV1 (false :: bitsA)).withFetchWord 16 0x3000).cmds ≠ [] ∧
      (nextOf (step ((withFifo stateV1 (false :: bitsA)).withFetchWord 16 0x3000))).bind (·.resp) =
        some (.err .dupSymbol 9) := by decide

theorem witness_FaultsArePrecise_dry :
    (nextOf (step ((withFifo stateV2 [true]).withFetchWord 16 0x3000))).bind (·.resp) =
      some (.err .incompleteStream 1) := by decide

theorem witness_FaultsArePrecise_short :
    (nextOf (step ((withFifo stateV1 (false :: bitsA.take 7)).withFetchWord 16 0x3000))).map
      (fun t => (t.resp, t.inFifo)) = some (some (.err .incompleteStream 1), bitsA.take 7) := by decide

theorem witness_FaultsArePrecise_none_popped :
    (nextOf (step (stateSaturated.withFetchWord 16 0x2041))).bind (·.resp) =
      some (.err .countSaturated 0) := by decide

theorem witness_SaturatedRootStopsEncAndDec :
    stateSaturated.fault = false ∧ treeWf stateSaturated.cfg stateSaturated.tree = true ∧
      (stateSaturated.tree.node? stateSaturated.tree.root).map (·.count) =
        some stateSaturated.cfg.countMax := by decide

theorem witness_FirstEncOfASessionEmitsTheBarePayload :
    State.reset.cfg.wf = true ∧ State.reset.tree = CodeTree.initial State.reset.cfg ∧
      State.reset.fault = false := by decide

/-- The exec of the hypothesis, as the statement writes it. -/
theorem witness_FirstDecOfASessionPopsEightBits_enc :
    exec (.enc 0x41) (withFifo State.reset (bitsA ++ [true])) =
      .next (withFifo stateV1 (bitsA ++ [true])) := eq_next (by decide)

theorem witness_FirstDecOfASessionPopsEightBits :
    (withFifo State.reset (bitsA ++ [true])).tree = CodeTree.initial Config.standard ∧
      (withFifo State.reset (bitsA ++ [true])).inFifo = bitsMsb8 0x41 ++ [true] ∧
      nextOf (exec (.enc 0x41) (withFifo State.reset (bitsA ++ [true]))) =
        some (withFifo stateV1 (bitsA ++ [true])) := by decide

theorem witness_EncOfAFirstOccurrenceEscapesAndInserts :
    stateV1.fault = false ∧ treeWf stateV1.cfg stateV1.tree = true ∧
      (stateV1.tree.node? stateV1.tree.root).map (·.count) = some 2 ∧ stateV1.cfg.countMax ≠ 2 ∧
      stateV1.tree.symEntry 0x42 = NONE := by decide

theorem witness_EncOfARepeatEmitsTheLeafsCode :
    stateV2.fault = false ∧ treeWf stateV2.cfg stateV2.tree = true ∧
      (stateV2.tree.node? stateV2.tree.root).map (·.count) = some 3 ∧ stateV2.cfg.countMax ≠ 3 ∧
      stateV2.tree.symEntry 0x42 ≠ NONE := by decide

theorem witness_InsertPlacesTheThreeNewNodes :
    treeWf stateV1.cfg stateV1.tree = true ∧ stateV1.tree.symEntry 0x42 = NONE ∧
      stateV1.tree.node? stateV1.tree.nyt ≠ none ∧
      treeWf State.reset.cfg State.reset.tree = true ∧ State.reset.tree.node? 0 ≠ none := by decide

/-- The second 'B' after "AB" (V3), and the insertion of 'B' after "A" (V2). -/
theorem witness_UpdateStart_leaf : UpdateStart stateV2.cfg stateV2.tree 5 :=
  .inl ⟨by decide, _, rfl, rfl⟩

theorem witness_UpdateStart_insert :
    ∃ g, graft 0x42 stateV1.tree = some g ∧ UpdateStart stateV1.cfg g 6 := by
  obtain ⟨g, hg⟩ := Option.isSome_iff_exists.1 (show (graft 0x42 stateV1.tree).isSome = true by decide)
  exact ⟨g, hg, .inr ⟨stateV1.tree, 0x42, by decide, by decide, hg, by decide⟩⟩

theorem witness_CodingKeepsEveryNodesIdentity :
    nextOf (exec (.enc 0x42) stateV1) = some stateV2 ∧ stateV1.tree.node? 0 ≠ none ∧
      stateV1.tree.node? stateV1.tree.nyt ≠ none ∧ stateV1.tree.node? 2 ≠ none ∧
      stateV1.tree.symEntry 0x41 ≠ NONE := by decide

theorem witness_DecMirrorsEnc :
    nextOf (exec (.enc 0x42) (withFifo stateV1 (bitsB ++ [true]))) =
        some (withFifo stateV2 (bitsB ++ [true])) ∧
      (withFifo stateV2 (bitsB ++ [true])).resp = some (.okBits 9 bitsB) ∧
      (withFifo stateV1 (bitsB ++ [true])).inFifo = bitsB ++ [true] := by decide

theorem witness_DecMirrorsEnc_dec :
    (nextOf (exec .dec (withFifo stateV1 (bitsB ++ [true])))).bind (·.resp) =
      some (.okSym 0x42 9) := by decide

theorem witness_DecDecodesACompleteCodeword_repeat :
    (withFifo stateV2 [true, true, false]).fault = false ∧
      treeWf stateV2.cfg stateV2.tree = true ∧
      (stateV2.tree.node? stateV2.tree.root).map (·.count) = some 3 ∧ stateV2.cfg.countMax ≠ 3 ∧
      stateV2.tree.symEntry 0x42 ≠ NONE ∧
      codePath stateV2.tree (stateV2.tree.symEntry 0x42) = some [true, true] ∧
      (withFifo stateV2 [true, true, false]).inFifo = [true, true] ++ [false] := by decide

theorem witness_DecDecodesACompleteCodeword_escape :
    stateV1.fault = false ∧ treeWf stateV1.cfg stateV1.tree = true ∧
      (stateV1.tree.node? stateV1.tree.root).map (·.count) = some 2 ∧ stateV1.cfg.countMax ≠ 2 ∧
      stateV1.tree.symEntry 0x42 = NONE ∧ codePath stateV1.tree stateV1.tree.nyt = some [false] ∧
      (withFifo stateV1 (bitsB ++ [true])).inFifo = [false] ++ bitsMsb8 0x42 ++ [true] := by decide

theorem witness_DecThatRunsDryInThePath :
    (withFifo stateV2 [true]).fault = false ∧ treeWf stateV2.cfg stateV2.tree = true ∧
      (stateV2.tree.node? stateV2.tree.root).map (·.count) = some 3 ∧ stateV2.cfg.countMax ≠ 3 ∧
      (stateV2.tree.node? 6).any (fun nd => decide (nd.left ≠ NONE)) = true ∧
      codePath stateV2.tree 6 = some (withFifo stateV2 [true]).inFifo := by decide

theorem witness_DecOfAShortPayloadLeavesItsBits :
    stateV1.fault = false ∧ treeWf stateV1.cfg stateV1.tree = true ∧
      (stateV1.tree.node? stateV1.tree.root).map (·.count) = some 2 ∧ stateV1.cfg.countMax ≠ 2 ∧
      codePath stateV1.tree stateV1.tree.nyt = some [false] ∧
      (withFifo stateV1 (false :: bitsA.take 7)).inFifo = [false] ++ bitsA.take 7 ∧
      (bitsA.take 7).length < 8 := by decide

theorem witness_DecOfAPresentSymbolsEscapeFaults :
    stateV1.fault = false ∧ treeWf stateV1.cfg stateV1.tree = true ∧
      (stateV1.tree.node? stateV1.tree.root).map (·.count) = some 2 ∧ stateV1.cfg.countMax ≠ 2 ∧
      codePath stateV1.tree stateV1.tree.nyt = some [false] ∧
      (withFifo stateV1 (false :: bitsA)).inFifo = [false] ++ bitsMsb8 0x41 ++ [] ∧
      stateV1.tree.symEntry 0x41 ≠ NONE := by decide

/-- The push that exactly fills the FIFO, and the one that does not fit (R120, V42). -/
theorem witness_PushAppendsTheTopBits :
    State.reset.fault = false ∧
      (withFifo State.reset (List.replicate 1016 true)).inFifo.length + 8 ≤ State.reset.cfg.inDepth :=
  ⟨rfl, by rw [show (withFifo State.reset (List.replicate 1016 true)).inFifo = List.replicate 1016 true
    from rfl, List.length_replicate]; decide⟩

theorem witness_PushThatDoesNotFitAppendsNothing :
    State.reset.fault = false ∧ State.reset.cfg.inDepth <
      (withFifo State.reset (List.replicate 1017 true)).inFifo.length + 8 :=
  ⟨rfl, by rw [show (withFifo State.reset (List.replicate 1017 true)).inFifo = List.replicate 1017 true
    from rfl, List.length_replicate]; decide⟩

/-- The last allocated handle, and the first that is not. -/
theorem witness_RdnodeReadsEveryAllocatedEntry :
    treeWf stateV1.cfg stateV1.tree = true ∧ (3#10).toNat < stateV1.tree.nextHandle.toNat ∧
      stateV1.tree.nextHandle.toNat ≤ (4#10).toNat := by decide

/-- MAX_NUMBER and the number above it. -/
theorem witness_RdnumReadsTheNumberMap :
    (512#10).toNat ≤ stateV1.cfg.maxNumber ∧ stateV1.cfg.maxNumber < (513#10).toNat := by decide

theorem witness_RdstatAssemblesTheStatusWord : stateV1.inFifo.length ≤ 65535 := by decide

/-- A live node, a historical one, and the first unallocated handle. -/
theorem witness_CodeAnswersThePathCodeOfALiveNode :
    treeWf stateV1.cfg stateV1.tree = true ∧ (stateV1.tree.node? 3).map (·.live) = some true ∧
      (stateV1.tree.node? 0).map (·.live) = some false ∧
      stateV1.tree.nextHandle.toNat ≤ (4#10).toNat := by decide

theorem witness_QueriesChangeNothingOnSuccess :
    isQuery (.code 1) = true ∧ treeWf stateV1.cfg stateV1.tree = true ∧ nextOf (exec (.code 1) stateV1) ≠ none ∧
      nextOf (exec (.code 0) stateV1) ≠ none := by decide

/-- V2's walk finds node 2; the root finds none. -/
theorem witness_CandidateIsTheHighestNodeOfEqualCount :
    treeWf stateV1.cfg stateV1.tree = true ∧ stateV1.tree.node? 3 ≠ none ∧ findCandidate stateV1.cfg stateV1.tree 3 = some NONE ∧
      (graft 0x42 stateV1.tree).bind (fun t => findCandidate stateV1.cfg t 6) = some 2 := by decide

/-- On the tree of V2: node 5 (number 509, under 6) and node 2 (number 510, under 3). -/
theorem witness_SwapExchangesPositionsAndNumbers :
    (5#10) ≠ NONE ∧ (2#10) ≠ NONE ∧ (5#10) ≠ (2#10) ∧
      (stateV2.tree.node? 5).map (fun n => (n.parent, n.number)) = some (6, 509) ∧
      (stateV2.tree.node? 2).map (fun n => (n.parent, n.number)) = some (3, 510) ∧
      stateV2.tree.node? 6 ≠ none ∧ stateV2.tree.node? 3 ≠ none := by decide

theorem witness_SiblingSwapExchangesTheTwoChildren :
    (6#10) ≠ NONE ∧ (2#10) ≠ NONE ∧
      (stateV2.tree.node? 6).map (fun n => (n.parent, n.number)) = some (3, 511) ∧
      (stateV2.tree.node? 2).map (fun n => (n.parent, n.number)) = some (3, 510) ∧
      (stateV2.tree.node? 3).map (fun n => (n.left, n.right)) = some (2, 6) := by decide

theorem witness_FollowingACodeFromTheRootArrives :
    treeWf stateV2.cfg stateV2.tree = true ∧ (stateV2.tree.node? 4).map (·.live) = some true := by
  decide

theorem witness_LeafCodesArePrefixFree :
    treeWf stateV2.cfg stateV2.tree = true ∧
      (stateV2.tree.node? 5).map (fun n => (n.live, n.left)) = some (true, NONE) ∧
      codePath stateV2.tree 5 = some [true, true] ∧
      codePath stateV2.tree 5 = some ([true, true] ++ []) := by decide

theorem witness_InitialStateMeetsTheInvariant : Config.standard.wf = true := by decide

theorem witness_EveryStepKeepsTheInvariant :
    (stateV1.withFetchWord 16 0x2042).inv = true ∧
      nextOf (step (stateV1.withFetchWord 16 0x2042)) = some stateV2 := by decide

theorem witness_EveryAdmittedStateIsProducedByCommands :
    stateV2.inv = true ∧ (faulted stateV1).inv = true ∧ Config.standard.wf = true := by decide

theorem witness_CountsAreThoseOfTheSession :
    stateV2.inv = true ∧ (stateV2.tree.node? 5).map (·.symv) = some true ∧ State.reset.inv = true := by
  decide

theorem witness_EveryDeliveredWordIsAnswered :
    (stateV1.withFetchWord 16 0x3000).inv = true ∧
      (stateV1.withFetchWord 16 0x3000).cmds = [0x3000#16] := by decide

theorem witness_HigherNumberNeverHasTheLowerCount :
    treeWf stateV2.cfg stateV2.tree = true ∧
      (stateV2.tree.node? 6).map (fun n => (n.live, n.number)) = some (true, 511) ∧
      (stateV2.tree.node? 2).map (fun n => (n.live, n.number)) = some (true, 510) := by decide

theorem witness_ExactlyOneNytAndItIsALeftLeaf :
    treeWf stateV2.cfg stateV2.tree = true ∧ stateV2.tree.nsym ≠ 0 ∧
      treeWf State.reset.cfg State.reset.tree = true ∧ State.reset.tree.nsym = 0 := by decide

theorem witness_NoCountExceedsTheRoots :
    treeWf stateV2.cfg stateV2.tree = true ∧ stateV2.tree.node? stateV2.tree.root ≠ none ∧
      (stateV2.tree.node? 6).map (fun n => (n.live, n.left)) = some (true, 4) ∧
      stateV2.tree.node? 4 ≠ none := by decide

/-- The least number, the number below it, and MAX_NUMBER. -/
theorem witness_LiveNumbersAreOneUniqueRange :
    treeWf stateV2.cfg stateV2.tree = true ∧ stateV2.cfg.maxNumber ≤ 508 + 2 * stateV2.tree.nsym ∧
      507 + 2 * stateV2.tree.nsym < stateV2.cfg.maxNumber ∧ stateV2.cfg.maxNumber = 512 := by decide

theorem witness_CodeLengthsAreAtMostNsym :
    treeWf stateV2.cfg stateV2.tree = true ∧ (stateV2.tree.node? 4).map (·.live) = some true := by
  decide

/-- On the tree of V2 node 5 (count 1) has the candidate 2. -/
theorem witness_CandidateIsNeverAnAncestorOrDescendant :
    treeWf stateV2.cfg stateV2.tree = true ∧ (stateV2.tree.node? 5).map (·.live) = some true ∧
      findCandidate stateV2.cfg stateV2.tree 5 = some 2 := by decide

/-- In the walk of INSERT: the new internal node 6 has the candidate 2 at once. -/
theorem witness_CandidateIsNeverAnAncestorOrDescendant_insert :
    (((graft 0x42 stateV1.tree).bind (walkAfter stateV1.cfg 0 6)).bind
      fun p => findCandidate stateV1.cfg p.2 p.1) = some 2 ∧
    ((graft 0x42 stateV1.tree).bind (walkAfter stateV1.cfg 0 6)).any
      (fun p => decide (p.1 = 6) && (p.2.node? 6).isSome) = true := by decide

theorem witness_OnlyCodersAndResetChangeTheTree :
    nextOf (exec (.push 8 0xFF) stateV1) ≠ none ∧ nextOf (exec (.enc 0x42) stateV1) ≠ none := by decide

theorem witness_LaterWordsAndOldResponsesDoNotMatter :
    nextOf (exec (.enc 0x42) stateV1) = some stateV2 := by decide

theorem witness_SuccessfulQueriesDoNotDisturbASession :
    isQuery (.rdnode 2) = true ∧
      ((nextOf (exec (.rdnode 2) stateV1)).bind (·.resp)).map Response.faultCode = some none ∧
      nextOf (exec (.enc 0x42) stateV1) ≠ none := by decide

theorem witness_PushsAppendsTheWholeString :
    stateV1.inv = true ∧ stateV1.fault = false ∧ stateV1.inFifo.length + bitsB.length ≤ stateV1.cfg.inDepth := by decide

theorem witness_EncodeThenDecodeRoundTrip :
    Config.standard.wf = true ∧ ([0x41, 0x42, 0x41] : List Symbol).length < Config.standard.countMax := by
  decide

end Sys2Proof.Tests
end

section
/-! The state after power-on: the fields that the spec gives no place (log entries 2, 3 and 13), and the
default parameters of 00_scope.md R7. -/

namespace Sys2Proof.Machine

section PowerOn
variable (cfg : Config)

@[simp] theorem State.init_cmds : (State.init cfg).cmds = [] := rfl
@[simp] theorem State.init_resp : (State.init cfg).resp = none := rfl
@[simp] theorem State.init_coded : (State.init cfg).coded = [] := rfl

end PowerOn

/-- Settles O12: `State.reset` is `State.init` at `Config.standard`, whose fields are the values of R7, and
power-on leaves the model's own three fields empty whatever the parameters. -/
theorem stateResetHasTheDefaultParameters : Obligations.StateResetHasTheDefaultParameters :=
  ⟨congrArg State.init (rfl : Config.standard = ⟨512, 32, 1024⟩),
    State.init_cmds Config.standard, State.init_resp Config.standard, State.init_coded Config.standard⟩

end Sys2Proof.Machine
end

section
/-! The step on a delivered command, and the frames of the commands: what a query, PUSH, ENC and DEC leave of
the state (10_state.md R20, R26, R29, R32, R34). -/

namespace Sys2Proof.Machine

/-- Settles O7: on a state that meets the invariant the guard is transparent, and the word at the head of the
stream is the one that is taken and decoded. -/
theorem stepRunsTheDeliveredCommand : Obligations.StepRunsTheDeliveredCommand := by
  intro s w ws i hinv hcmds hdecode
  rw [step, takeWord_cons hcmds]
  simp only [ifMeaningful_of_inv hinv, hdecode]

/-- Everything a query can do when it answers a next state: respond, or raise an operand fault (R188). -/
theorem exec_query_cases {i : Instr} {s t : State} (hq : isQuery i = true) (h : exec i s = .next t) :
    (∃ r, t = respond r s) ∨ ∃ c, t = raise c 0 s := by
  cases i with
  | reset | enc _ | dec | push _ _ => cases hq
  | rdroot | rdnyt | rdlast | rdsym _ | rdstat => cases h; exact .inl ⟨_, rfl⟩
  | rdnode n =>
    obtain ⟨-, rfl⟩ | ⟨-, nd, -, rfl⟩ := execRdnode_cases h
    · exact .inr ⟨_, rfl⟩
    · exact .inl ⟨_, rfl⟩
  | code n =>
    obtain ⟨-, ⟨-, rfl⟩ | ⟨-, out, -, rfl⟩⟩ := execCode_cases h
    · exact .inr ⟨_, rfl⟩
    · exact .inl ⟨_, rfl⟩
  | rdnum k =>
    simp only [exec, execRdnum] at h
    split at h <;> cases h
    · exact .inr ⟨_, rfl⟩
    · exact .inl ⟨_, rfl⟩

theorem query_frame {i : Instr} {s t : State} (hq : isQuery i = true) (h : exec i s = .next t) :
    t.cfg = s.cfg ∧ t.cmds = s.cmds ∧ t.tree = s.tree ∧ t.last = s.last ∧ t.coded = s.coded ∧
      t.inFifo = s.inFifo := by
  obtain ⟨r, rfl⟩ | ⟨c, rfl⟩ := exec_query_cases hq h <;> simp

theorem execPush_frame {n : Nat} {bits : BitVec 8} {s t : State} (h : execPush n bits s = .next t) :
    t.cfg = s.cfg ∧ t.cmds = s.cmds ∧ t.tree = s.tree ∧ t.last = s.last ∧ t.coded = s.coded := by
  obtain ⟨-, h'⟩ | ⟨-, -, h'⟩ | ⟨-, -, h'⟩ := execPush_cases n bits s <;>
    (rw [h'] at h; cases h; simp)

theorem execEnc_frame {sym : Symbol} {s t : State} (h : execEnc sym s = .next t) :
    t.cfg = s.cfg ∧ t.cmds = s.cmds ∧ t.inFifo = s.inFifo := by
  obtain ⟨-, rfl⟩ | ⟨-, -, -, rfl⟩ | ⟨-, -, -, out, t', leaf, -, -, rfl⟩ := execEnc_cases h <;> simp

theorem execDec_frame {s t : State} (h : execDec s = .next t) : t.cfg = s.cfg ∧ t.cmds = s.cmds := by
  obtain ⟨-, rfl⟩ | ⟨-, -, -, rfl⟩ | ⟨-, -, -, ⟨n, -, rfl⟩ | ⟨cur, nd, fifo, n, -, ⟨-, -, rfl⟩ |
    ⟨-, -, -, rfl⟩ | ⟨-, -, -, t', leaf, -, rfl⟩ | ⟨-, t', -, rfl⟩⟩⟩ := execDec_cases h <;> simp

/-- Settles O54: the command at hand is RESET, ENC, DEC, PUSH or a query, and the frame of each says it. -/
theorem onlyCodersAndResetChangeTheTree : Obligations.OnlyCodersAndResetChangeTheTree := by
  intro i s t h
  cases i with
  | reset =>
    cases h
    exact ⟨rfl, rfl, fun _ _ hr => absurd rfl hr, fun _ _ hr => absurd rfl hr⟩
  | enc sym =>
    obtain ⟨hcfg, hcmds, hfifo⟩ := execEnc_frame h
    exact ⟨hcfg, hcmds, fun he _ _ => absurd rfl (he sym), fun _ _ _ => hfifo⟩
  | dec =>
    obtain ⟨hcfg, hcmds⟩ := execDec_frame h
    exact ⟨hcfg, hcmds, fun _ hd _ => absurd rfl hd, fun _ hd _ => absurd rfl hd⟩
  | push n bits =>
    obtain ⟨hcfg, hcmds, htree, hlast, hcoded⟩ := execPush_frame h
    exact ⟨hcfg, hcmds, fun _ _ _ => ⟨htree, hlast, hcoded⟩, fun hp _ _ => absurd rfl (hp n bits)⟩
  | rdroot | rdnyt | rdlast | rdsym _ | rdnode _ | code _ | rdnum _ | rdstat =>
    obtain ⟨hcfg, hcmds, htree, hlast, hcoded, hfifo⟩ := query_frame rfl h
    exact ⟨hcfg, hcmds, fun _ _ _ => ⟨htree, hlast, hcoded⟩, fun _ _ _ => hfifo⟩

end Sys2Proof.Machine
end

section
/-! The status word of RDSTAT: each field is read back from its place (10_state.md R31). -/

namespace Sys2Proof.Machine

/-- A field of the upper part of a concatenation. -/
theorem extractLsb'_append_skip {v w start len : Nat} {x : BitVec v} {y : BitVec w} {z : BitVec len}
    (hw : w ≤ start) (h : x.extractLsb' (start - w) len = z) :
    (x ++ y).extractLsb' start len = z :=
  (BitVec.extractLsb'_append_eq_of_le hw).trans h

/-- The lower part of a concatenation. -/
theorem extractLsb'_append_low {v w : Nat} (x : BitVec v) (y : BitVec w) :
    (x ++ y).extractLsb' 0 w = y :=
  (BitVec.extractLsb'_append_eq_of_add_le (Nat.zero_add w).le).trans BitVec.extractLsb'_eq_self

section StatusWord
variable (nextHandle : Handle) (inCount : BitVec 16) (nsym : BitVec 9) (errCode : BitVec 4) (fault : Bool)

theorem statusWord_fault : (statusWord nextHandle inCount nsym errCode fault).getLsbD 0 = fault := by
  simp only [statusWord, BitVec.getLsbD_append]
  simp

theorem statusWord_errCode :
    (statusWord nextHandle inCount nsym errCode fault).extractLsb' 1 4 = errCode :=
  extractLsb'_append_skip (by decide) (extractLsb'_append_low _ _)

theorem statusWord_reserved_low :
    (statusWord nextHandle inCount nsym errCode fault).extractLsb' 5 3 = 0 :=
  extractLsb'_append_skip (by decide) <| extractLsb'_append_skip (by decide) <|
    extractLsb'_append_low _ _

theorem statusWord_nsym :
    (statusWord nextHandle inCount nsym errCode fault).extractLsb' 8 9 = nsym :=
  extractLsb'_append_skip (by decide) <| extractLsb'_append_skip (by decide) <|
    extractLsb'_append_skip (by decide) <| extractLsb'_append_low _ _

/-- The fields from bit 17 up, read without the four below them. -/
theorem statusWord_high (start len : Nat) (h : 17 ≤ start) :
    (statusWord nextHandle inCount nsym errCode fault).extractLsb' start len =
      (0#6 ++ nextHandle ++ inCount ++ 0#15).extractLsb' (start - 1 - 4 - 3 - 9) len :=
  extractLsb'_append_skip (by omega) <| extractLsb'_append_skip (by omega) <|
    extractLsb'_append_skip (by omega) <| extractLsb'_append_skip (by omega) rfl

theorem statusWord_reserved_mid :
    (statusWord nextHandle inCount nsym errCode fault).extractLsb' 17 15 = 0 :=
  (statusWord_high _ _ _ _ _ _ _ le_rfl).trans (extractLsb'_append_low _ _)

theorem statusWord_inCount :
    (statusWord nextHandle inCount nsym errCode fault).extractLsb' 32 16 = inCount :=
  (statusWord_high _ _ _ _ _ _ _ (by decide)).trans <|
    extractLsb'_append_skip (by decide) <| extractLsb'_append_low _ _

theorem statusWord_nextHandle :
    (statusWord nextHandle inCount nsym errCode fault).extractLsb' 48 10 = nextHandle :=
  (statusWord_high _ _ _ _ _ _ _ (by decide)).trans <|
    extractLsb'_append_skip (by decide) <| extractLsb'_append_skip (by decide) <|
      extractLsb'_append_low _ _

theorem statusWord_reserved_high :
    (statusWord nextHandle inCount nsym errCode fault).extractLsb' 58 6 = 0 :=
  (statusWord_high _ _ _ _ _ _ _ (by decide)).trans <|
    extractLsb'_append_skip (by decide) <| extractLsb'_append_skip (by decide) <|
      extractLsb'_append_skip (by decide) BitVec.extractLsb'_eq_self

end StatusWord

/-- NSYM counts entries of SYMMAP, which has 256 (R26). -/
theorem nsym_le (t : CodeTree) : t.nsym ≤ 256 := by
  simpa [CodeTree.nsym] using
    List.length_filter_le (fun k => decide (t.symMap.read k ≠ NONE)) (List.range 256)

/-- Settles O35: the fields of the status word, with NSYM and IN_COUNT small enough for theirs. -/
theorem rdstatAssemblesTheStatusWord : Obligations.RdstatAssemblesTheStatusWord := by
  intro s hfifo
  have hnsym := nsym_le s.tree
  refine ⟨_, rfl, statusWord_fault _ _ _ _ _, statusWord_errCode _ _ _ _ _,
    statusWord_reserved_low _ _ _ _ _, ?_, statusWord_reserved_mid _ _ _ _ _, ?_,
    statusWord_nextHandle _ _ _ _ _, statusWord_reserved_high _ _ _ _ _⟩
  · rw [statusWord_nsym, BitVec.toNat_ofNat]
    omega
  · rw [statusWord_inCount, BitVec.toNat_ofNat]
    omega

end Sys2Proof.Machine
end

section
/-! The tree after reset: its one entry, its registers and maps, and that it passes the check of every tree
(10_state.md R37, 41_insert_update.md R160 to R168). -/

namespace Sys2Proof.Machine

/-- One entry's check: what its handle says it is, and its place while it is live. -/
theorem wfEntry_iff (cfg : Config) (t : CodeTree) (n i : Nat) (nd : Node) :
    wfEntry cfg t n i nd = true ↔
      (if i % 3 = 2 then wfSymbolLeaf t i nd = true
        else if i % 3 = 0 ∧ i ≠ 0 then wfInternal t i nd = true
        else if i = t.nyt.toNat then wfNyt cfg t n nd = true
        else wfHistorical cfg i nd = true) ∧
      (nd.live = true → wfPlace cfg t i nd = true) := by
  simp only [wfEntry, Bool.and_eq_true, decide_eq_true_eq, Bool.or_eq_true, Bool.not_eq_true']
  refine and_congr (by split_ifs <;> rfl) ?_
  cases nd.live <;> simp

theorem initial_number_toNat {cfg : Config} (h : cfg.wf = true) :
    (Node.initial cfg.maxNumber).number.toNat = cfg.maxNumber := by
  obtain ⟨-, hle, -⟩ := (config_wf_iff cfg).1 h
  rw [Node.initial, BitVec.toNat_ofNat]
  omega

theorem initial_nextNum_toInt {cfg : Config} (h : cfg.wf = true) :
    (CodeTree.initial cfg).nextNum.toInt = (cfg.maxNumber : Int) - 1 := by
  obtain ⟨hge, hle, -⟩ := (config_wf_iff cfg).1 h
  rw [show (CodeTree.initial cfg).nextNum = BitVec.ofNat 11 (cfg.maxNumber - 1) from rfl,
    BitVec.toInt_eq_toNat_cond, BitVec.toNat_ofNat]
  omega

theorem initial_symEntry (cfg : Config) (sym : Symbol) :
    (CodeTree.initial cfg).symEntry sym = NONE := rfl

theorem initial_numEntry (cfg : Config) (k : Nat) :
    (CodeTree.initial cfg).numEntry k = if cfg.maxNumber = k then 0 else NONE := rfl

/-- Settles O11: the values of the reset tree, which RESET reaches as it is the same tree. -/
theorem initialStateIsTheResetState : Obligations.InitialStateIsTheResetState := by
  refine ⟨fun cfg h => ?_, fun s => ⟨_, rfl, rfl, rfl, rfl, rfl, rfl⟩⟩
  refine ⟨⟨Node.initial cfg.maxNumber, rfl, rfl, rfl, rfl, rfl, rfl, initial_number_toNat h, rfl,
    rfl, rfl⟩, rfl, rfl, rfl, initial_symEntry cfg, ?_, fun k hk => ?_, initial_nextNum_toInt h, rfl,
    rfl, rfl, rfl⟩
  · exact if_pos rfl
  · exact if_neg (Nat.ne_of_gt hk)

/-- The one entry of the reset tree is the NYT and the root. -/
theorem initial_wfArena {cfg : Config} (h : cfg.wf = true) :
    wfArena cfg (CodeTree.initial cfg) 0 = true := by
  refine (wfArena_iff _ _ _).2 fun i nd hi => ?_
  obtain ⟨rfl, rfl⟩ : i = 0 ∧ nd = Node.initial cfg.maxNumber := by
    cases i <;> simp_all [CodeTree.initial]
  have hnumber := initial_number_toNat h
  have hnyt : wfNyt cfg (CodeTree.initial cfg) 0 (Node.initial cfg.maxNumber) = true :=
    (wfNyt_iff _ _ _ _).2 ⟨rfl, rfl, rfl, rfl, rfl, by simpa using hnumber, rfl, rfl, .inl rfl⟩
  have hplace : wfPlace cfg (CodeTree.initial cfg) 0 (Node.initial cfg.maxNumber) = true :=
    (wfPlace_iff _ _ _ _).2 ⟨by simp [initial_numEntry, hnumber], rfl, hnumber⟩
  exact (wfEntry_iff _ _ _ _ _).2 ⟨hnyt, fun _ => hplace⟩

theorem initial_treeWf {cfg : Config} (h : cfg.wf = true) :
    treeWf cfg (CodeTree.initial cfg) = true := by
  refine (treeWf_iff _ _).2 ⟨h, initial_memory_wf cfg, ?_, initial_wfArena h, rfl, ?_, rfl, ?_⟩
  · exact (wfCounters_iff _ _ _).2
      ⟨rfl, rfl, by simpa [CodeTree.initial] using initial_nextNum_toInt h, rfl, rfl⟩
  · refine (wfNumMap_iff _ _ _).2 ⟨rfl, fun e he => ?_⟩
    obtain rfl : e = (cfg.maxNumber, 0) := List.mem_singleton.1 he
    exact ⟨Node.initial cfg.maxNumber, rfl, rfl, initial_number_toNat h⟩
  · exact (wfRootCount_iff _ _ _).2 ⟨Node.initial cfg.maxNumber, rfl, rfl, Nat.zero_le _⟩

/-- Settles O43: the FIFO is empty, no fault is recorded, the tree passes its check, and no symbol has been
coded. -/
theorem initialStateMeetsTheInvariant : Obligations.InitialStateMeetsTheInvariant := by
  intro cfg h
  exact (inv_iff _).2 ⟨Nat.zero_le _, rfl, initial_treeWf h, rfl, rfl, (wfSession_iff _).2 rfl⟩

end Sys2Proof.Machine
end

section
/-! What a well-formed tree says of its live nodes. -/

namespace Sys2Proof.Machine

/-- `h` names the live node `nd`. -/
def LiveAt (t : CodeTree) (h : Handle) (nd : Node) : Prop := t.node? h = some nd ∧ nd.live = true

theorem node?_unique {t : CodeTree} {h : Handle} {x y : Node} (hx : t.node? h = some x)
    (hy : t.node? h = some y) : x = y := Option.some.inj (hx.symm.trans hy)

theorem LiveAt.unique {t : CodeTree} {h : Handle} {x y : Node} (hx : LiveAt t h x) (hy : LiveAt t h y) :
    x = y := node?_unique hx.1 hy.1

section WellFormed
variable {cfg : Config} {t : CodeTree} (hw : treeWf cfg t = true)
include hw

theorem treeWf_length_le : t.symMap.length ≤ 256 := by
  obtain ⟨-, hm, -⟩ := (treeWf_iff _ _).1 hw
  exact nsym_eq_length hm ▸ nsym_le t

theorem treeWf_none_absent : t.node? NONE = none := by
  obtain ⟨-, -, hc, -⟩ := (treeWf_iff _ _).1 hw
  obtain ⟨hlen, -⟩ := (wfCounters_iff _ _ _).1 hc
  have hn := treeWf_length_le hw
  exact List.getElem?_eq_none (show t.arena.length ≤ 1023 by omega)

theorem treeWf_ne_none {h : Handle} {nd : Node} (hn : t.node? h = some nd) : h ≠ NONE := by
  rintro rfl
  rw [treeWf_none_absent hw] at hn
  cases hn

/-- Each entry is a symbol leaf, an internal node, the NYT or historical (R22, R168). -/
theorem treeWf_entry {h : Handle} {nd : Node} (hn : t.node? h = some nd) :
    wfSymbolLeaf t h.toNat nd = true ∨ wfInternal t h.toNat nd = true ∨
      (h = t.nyt ∧ wfNyt cfg t t.symMap.length nd = true) ∨ wfHistorical cfg h.toNat nd = true := by
  obtain ⟨-, -, -, ha, -⟩ := (treeWf_iff _ _).1 hw
  obtain ⟨he, -⟩ := (wfEntry_iff _ _ _ _ _).1 ((wfArena_iff _ _ _).1 ha _ _ hn)
  split_ifs at he with h1 h2 h3
  · exact .inl he
  · exact .inr (.inl he)
  · exact .inr (.inr (.inl ⟨BitVec.eq_of_toNat_eq h3, he⟩))
  · exact .inr (.inr (.inr he))

/-- The NYT reference names the NYT (R25). -/
theorem treeWf_nyt : ∃ old, t.node? t.nyt = some old ∧ wfNyt cfg t t.symMap.length old = true := by
  obtain ⟨-, -, hc, ha, -⟩ := (treeWf_iff _ _).1 hw
  obtain ⟨hlen, -, -, hnyt, -⟩ := (wfCounters_iff _ _ _).1 hc
  have hlt : t.nyt.toNat < t.arena.length := by split at hnyt <;> omega
  have hn : t.node? t.nyt = some t.arena[t.nyt.toNat] := List.getElem?_eq_getElem hlt
  obtain ⟨he, -⟩ := (wfEntry_iff _ _ _ _ _).1 ((wfArena_iff _ _ _).1 ha _ _ hn)
  rw [if_neg (by split at hnyt <;> omega), if_neg (by split at hnyt <;> omega), if_pos rfl] at he
  exact ⟨_, hn, he⟩

/-- The root is live (R24). -/
theorem treeWf_root_live : ∃ r, LiveAt t t.root r := by
  obtain ⟨-, -, hc, ha, -⟩ := (treeWf_iff _ _).1 hw
  obtain ⟨hlen, -, -, hnyt, hroot⟩ := (wfCounters_iff _ _ _).1 hc
  by_cases hn : t.symMap.length = 0
  · obtain ⟨old, ho, hold⟩ := treeWf_nyt hw
    obtain ⟨hlive, -⟩ := (wfNyt_iff _ _ _ _).1 hold
    have : t.root = t.nyt := BitVec.eq_of_toNat_eq (by simp [hnyt, hroot, hn])
    exact ⟨old, this ▸ ho, hlive⟩
  · rw [if_neg hn] at hroot
    have hr : t.node? t.root = some t.arena[t.root.toNat] := List.getElem?_eq_getElem (by omega)
    obtain ⟨he, -⟩ := (wfEntry_iff _ _ _ _ _).1 ((wfArena_iff _ _ _).1 ha _ _ hr)
    rw [if_neg (by omega), if_pos (by omega)] at he
    exact ⟨_, hr, ((wfInternal_iff _ _ _).1 he).1⟩

/-- A live node other than the NYT has been counted (R164). -/
theorem treeWf_one_le_count {h : Handle} {nd : Node} (hn : LiveAt t h nd) (hh : nd.isNyt = false) :
    1 ≤ nd.count := by
  rcases treeWf_entry hw hn.1 with he | he | ⟨-, he⟩ | he
  · obtain ⟨-, -, -, -, -, hc, -⟩ := (wfSymbolLeaf_iff _ _ _).1 he
    exact hc
  · obtain ⟨-, -, -, -, hl, -⟩ := (wfInternal_iff _ _ _).1 he
    obtain ⟨l, -, -, -, -, hc⟩ := (wfChild_iff _ _ _ _).1 hl
    omega
  · obtain ⟨-, hnyt, -⟩ := (wfNyt_iff _ _ _ _).1 he
    rw [hh] at hnyt; cases hnyt
  · obtain ⟨hlive, -⟩ := (wfHistorical_iff _ _ _).1 he
    rw [hn.2] at hlive; cases hlive

/-- The NYT is the one live node that is marked so (R25, R160). -/
theorem treeWf_not_nyt {h : Handle} {nd : Node} (hn : LiveAt t h nd) (hh : h ≠ t.nyt) :
    nd.isNyt = false := by
  rcases treeWf_entry hw hn.1 with he | he | ⟨h', -⟩ | he
  · exact ((wfSymbolLeaf_iff _ _ _).1 he).2.1
  · exact ((wfInternal_iff _ _ _).1 he).2.1
  · exact absurd h' hh
  · exact ((wfHistorical_iff _ _ _).1 he).2.1

/-- A node with a left or right link is internal. -/
theorem treeWf_internal {h : Handle} {nd : Node} (hn : t.node? h = some nd)
    (hc : nd.left ≠ NONE ∨ nd.right ≠ NONE) : wfInternal t h.toNat nd = true := by
  rcases treeWf_entry hw hn with he | he | ⟨-, he⟩ | he
  · obtain ⟨-, -, -, hl, hr, -⟩ := (wfSymbolLeaf_iff _ _ _).1 he
    simp [hl, hr] at hc
  · exact he
  · obtain ⟨-, -, -, -, -, -, hl, hr, -⟩ := (wfNyt_iff _ _ _ _).1 he
    simp [hl, hr] at hc
  · obtain ⟨-, -, -, -, -, hl, hr, -⟩ := (wfHistorical_iff _ _ _).1 he
    simp [hl, hr] at hc

/-- A live node's parent is live, numbered and counted above it (R162, R164). -/
theorem treeWf_parent {h : Handle} {nd : Node} (hn : LiveAt t h nd) (hp : nd.parent ≠ NONE) :
    ∃ p, LiveAt t nd.parent p ∧ nd.number.toNat < p.number.toNat ∧ nd.count < p.count := by
  obtain ⟨-, -, -, ha, -⟩ := (treeWf_iff _ _).1 hw
  obtain ⟨-, hplace⟩ := (wfEntry_iff _ _ _ _ _).1 ((wfArena_iff _ _ _).1 ha _ _ hn.1)
  obtain ⟨-, hpl⟩ := (wfPlace_iff _ _ _ _).1 (hplace hn.2)
  split_ifs at hpl with hroot
  · exact absurd hpl.1 hp
  obtain ⟨p, hpn, hplive, hlr⟩ := hpl
  rw [BitVec.toNat_inj, BitVec.toNat_inj] at hlr
  have hne := treeWf_ne_none hw hn.1
  have hi := treeWf_internal hw hpn (hlr.imp (ne_of_eq_of_ne · hne) (ne_of_eq_of_ne · hne))
  obtain ⟨-, -, -, -, hl, hr, -⟩ := (wfInternal_iff _ _ _).1 hi
  have hchild : wfChild t nd.parent.toNat p h = true := by
    rcases hlr with rfl | rfl
    · exact hl
    · exact hr
  obtain ⟨ch, hch, -, -, hnum, hcnt⟩ := (wfChild_iff _ _ _ _).1 hchild
  obtain rfl : ch = nd := node?_unique hch hn.1
  exact ⟨p, ⟨hpn, hplive⟩, hnum, hcnt⟩

/-- NUMMAP names every live node by its number, and numbers reach down to the NYT's (R161). -/
theorem treeWf_named {h : Handle} {nd : Node} (hn : LiveAt t h nd) :
    t.numEntry nd.number.toNat = h ∧ nd.number.toNat ≤ cfg.maxNumber ∧
      cfg.maxNumber ≤ nd.number.toNat + 2 * t.symMap.length := by
  obtain ⟨-, hm, -, ha, -, hnm, -⟩ := (treeWf_iff _ _).1 hw
  obtain ⟨-, -, -, hle⟩ := (memory_wf_iff _ _).1 hm
  obtain ⟨hkeys, -⟩ := (wfNumMap_iff _ _ _).1 hnm
  obtain ⟨-, hplace⟩ := (wfEntry_iff _ _ _ _ _).1 ((wfArena_iff _ _ _).1 ha _ _ hn.1)
  have hh : t.numEntry nd.number.toNat = h :=
    BitVec.eq_of_toNat_eq ((wfPlace_iff _ _ _ _).1 (hplace hn.2)).1
  have hmem := mem_of_read t.numMap nd.number.toNat
    (show t.numEntry nd.number.toNat ≠ NONE from hh ▸ treeWf_ne_none hw hn.1)
  have hkey := List.mem_map_of_mem (f := Prod.fst) hmem
  rw [hkeys, List.mem_range'_1] at hkey
  exact ⟨hh, hle _ hmem, by omega⟩

/-- Every NUMMAP entry names the live node of its number (R161). -/
theorem treeWf_numbered {k : Nat} (hk : t.numEntry k ≠ NONE) :
    ∃ nd, LiveAt t (t.numEntry k) nd ∧ nd.number.toNat = k := by
  obtain ⟨-, -, -, -, -, hnm, -⟩ := (treeWf_iff _ _).1 hw
  obtain ⟨nd, hn, hlive, hnum⟩ := ((wfNumMap_iff _ _ _).1 hnm).2 _ (mem_of_read t.numMap k hk)
  exact ⟨nd, ⟨hn, hlive⟩, hnum⟩

/-- The sibling property between any two live nodes (R163). -/
theorem treeWf_order {h h' : Handle} {x y : Node} (hx : LiveAt t h x) (hy : LiveAt t h' y)
    (hlt : x.number.toNat < y.number.toNat) : x.count ≤ y.count := by
  obtain ⟨-, -, -, -, -, -, ho, -⟩ := (treeWf_iff _ _).1 hw
  obtain ⟨hxn, -, hxlo⟩ := treeWf_named hw hx
  obtain ⟨hyn, hyle, -⟩ := treeWf_named hw hy
  have rising : ∀ d j, j + d ≤ 2 * t.symMap.length →
      t.countAt (cfg.maxNumber - (j + d)) ≤ t.countAt (cfg.maxNumber - j) := by
    intro d j
    induction d with
    | zero => exact fun _ => le_rfl
    | succ d ih =>
      intro hd
      have hstep := (wfCountOrder_iff _ _ _).1 ho (j + d) (by omega)
      exact hstep.trans (ih (by omega))
  have hxc : t.countAt x.number.toNat = x.count := by simp [CodeTree.countAt, hxn, hx.1]
  have hyc : t.countAt y.number.toNat = y.count := by simp [CodeTree.countAt, hyn, hy.1]
  have := rising (y.number.toNat - x.number.toNat) (cfg.maxNumber - y.number.toNat) (by omega)
  rwa [show cfg.maxNumber - (cfg.maxNumber - y.number.toNat + (y.number.toNat - x.number.toNat))
      = x.number.toNat by omega, show cfg.maxNumber - (cfg.maxNumber - y.number.toNat)
      = y.number.toNat by omega, hxc, hyc] at this

/-- A symbol's SYMMAP entry names a live leaf that has been counted (R26, R164). -/
theorem treeWf_symbol_leaf {sym : Symbol} (hs : t.symEntry sym ≠ NONE) :
    ∃ nd, LiveAt t (t.symEntry sym) nd ∧ 1 ≤ nd.count := by
  obtain ⟨-, -, -, -, hsm, -⟩ := (treeWf_iff _ _).1 hw
  obtain ⟨nd, hn, hsymv, -⟩ := (wfSymMap_iff t).1 hsm _ (mem_of_read t.symMap _ hs)
  have hleaf : wfSymbolLeaf t (t.symEntry sym).toNat nd = true := by
    rcases treeWf_entry hw hn with he | he | ⟨-, he⟩ | he
    · exact he
    · obtain ⟨-, -, h0, -⟩ := (wfInternal_iff _ _ _).1 he
      exact absurd (hsymv.symm.trans h0) (by decide)
    · obtain ⟨-, -, h0, -⟩ := (wfNyt_iff _ _ _ _).1 he
      exact absurd (hsymv.symm.trans h0) (by decide)
    · obtain ⟨-, -, h0, -⟩ := (wfHistorical_iff _ _ _).1 he
      exact absurd (hsymv.symm.trans h0) (by decide)
  obtain ⟨hlive, -, -, -, -, hc, -⟩ := (wfSymbolLeaf_iff _ _ _).1 hleaf
  exact ⟨nd, ⟨hn, hlive⟩, hc⟩

/-- DEC's walk goes from live nodes to live nodes (R110, R162). -/
theorem decWalk_leaf_live : ∀ {fuel : Nat} {cur c : Handle} {fifo rest : Bits} {n m : Nat} {nd : Node},
    (∃ x, LiveAt t cur x) → decWalk t fuel cur fifo n = .leaf c nd rest m → LiveAt t c nd := by
  intro fuel
  induction fuel with
  | zero => intro cur c fifo rest n m nd _ h; cases h
  | succ fuel ih =>
    rintro cur c fifo rest n m nd ⟨x, hx⟩ h
    rw [decWalk_succ t fuel cur fifo n x hx.1] at h
    split_ifs at h with hl
    · cases h; exact hx
    · have hi := treeWf_internal hw hx.1 (.inl hl)
      obtain ⟨-, -, -, -, hcl, hcr, -⟩ := (wfInternal_iff _ _ _).1 hi
      cases fifo with
      | nil => cases h
      | cons b bs =>
        refine ih ?_ h
        cases b
        · obtain ⟨l, hl, hlive, -⟩ := (wfChild_iff _ _ _ _).1 hcl
          exact ⟨l, hl, hlive⟩
        · obtain ⟨r, hr, hlive, -⟩ := (wfChild_iff _ _ _ _).1 hcr
          exact ⟨r, hr, hlive⟩

end WellFormed

end Sys2Proof.Machine
end

section
/-! The climb of UPDATE: an invariant of the tree and of the node the walk stands at, kept by every rebalance
and increment (41_insert_update.md R140, R141, R145, R150, R163). -/

namespace Sys2Proof.Machine

/-- What UPDATE's walk keeps of the tree while it stands at `cur` (at NONE: above the root). The one child
that may already count as much as its parent is the one the walk has just come from, below `cur`. -/
structure Climb (cfg : Config) (cur : Handle) (t : CodeTree) : Prop where
  none_absent : t.node? NONE = none
  named : ∀ {h nd}, LiveAt t h nd → t.numEntry nd.number.toNat = h ∧ nd.number.toNat ≤ cfg.maxNumber
  numbered : ∀ {k}, t.numEntry k ≠ NONE → ∃ nd, LiveAt t (t.numEntry k) nd ∧ nd.number.toNat = k
  parent : ∀ {h nd}, LiveAt t h nd → nd.parent ≠ NONE → ∃ p, LiveAt t nd.parent p ∧
    nd.number.toNat < p.number.toNat ∧ nd.count ≤ p.count ∧ (nd.count = p.count → nd.parent = cur)
  order : ∀ {h h' x y}, LiveAt t h x → LiveAt t h' y → x.number.toNat < y.number.toNat →
    x.count ≤ y.count
  counted : cur ≠ NONE → ∃ nd, LiveAt t cur nd ∧ 1 ≤ nd.count

/-- No live node numbered above `cur` has `cur`'s count. -/
def TopOfCount (t : CodeTree) (cur : Handle) : Prop :=
  ∀ {nd h x}, t.node? cur = some nd → LiveAt t h x → nd.number.toNat < x.number.toNat → x.count ≠ nd.count

section Facts
variable {cfg : Config} {cur : Handle} {t : CodeTree}

theorem Climb.ne_none (hc : Climb cfg cur t) {h : Handle} {nd : Node} (hn : t.node? h = some nd) :
    h ≠ NONE := by
  rintro rfl
  rw [hc.none_absent] at hn
  cases hn

/-- Two live nodes of one number are one node (R161). -/
theorem Climb.eq_of_number (hc : Climb cfg cur t) {h h' : Handle} {x y : Node} (hx : LiveAt t h x)
    (hy : LiveAt t h' y) (hn : x.number.toNat = y.number.toNat) : h = h' := by
  rw [← (hc.named hx).1, ← (hc.named hy).1, hn]

/-- A well-formed tree meets the invariant with the walk above the root. -/
theorem climb_of_treeWf (hw : treeWf cfg t = true) : Climb cfg NONE t where
  none_absent := treeWf_none_absent hw
  named hn := ⟨(treeWf_named hw hn).1, (treeWf_named hw hn).2.1⟩
  numbered := treeWf_numbered hw
  parent hn hp := by
    obtain ⟨p, hpl, hnum, hcnt⟩ := treeWf_parent hw hn hp
    exact ⟨p, hpl, hnum, hcnt.le, fun e => absurd e hcnt.ne⟩
  order := treeWf_order hw
  counted h := absurd rfl h

/-- From above the root, a walk may start at any live node that has been counted. -/
theorem Climb.start (hc : Climb cfg NONE t) {nd : Node} (hn : LiveAt t cur nd) (h1 : 1 ≤ nd.count) :
    Climb cfg cur t where
  none_absent := hc.none_absent
  named := hc.named
  numbered := hc.numbered
  parent hx hp := by
    obtain ⟨p, hpl, hnum, hcnt, hlast⟩ := hc.parent hx hp
    exact ⟨p, hpl, hnum, hcnt, fun e => absurd (hlast e) hp⟩
  order := hc.order
  counted _ := ⟨nd, hn, h1⟩

end Facts

/-! FIND_CANDIDATE. -/

/-- NUMMAP names no node of count `w` by the number `j`. -/
def NoCountAt (t : CodeTree) (w j : Nat) : Prop :=
  ∀ nd, t.numEntry j ≠ NONE → t.node? (t.numEntry j) = some nd → nd.count ≠ w

/-- The scan over the `steps` numbers down from `k` answers the highest node of count `w`, or NONE where
there is none (R140, D31). -/
theorem scanNumbers_cases {t : CodeTree} {w : Nat} {c : Handle} : ∀ {steps k : Nat}, steps ≤ k →
    scanNumbers t w steps k = some c →
      (c = NONE ∧ ∀ j, k - steps < j → j ≤ k → NoCountAt t w j) ∨
      (c ≠ NONE ∧ ∃ j nd, k - steps < j ∧ t.numEntry j = c ∧ t.node? c = some nd ∧ nd.count = w ∧
        ∀ i, j < i → i ≤ k → NoCountAt t w i) := by
  intro steps
  induction steps with
  | zero =>
    intro k _ h
    exact .inl ⟨(Option.some.inj h).symm, fun j h1 h2 => by omega⟩
  | succ steps ih =>
    intro k hk h
    have extend : NoCountAt t w k → scanNumbers t w steps (k - 1) = some c →
        (c = NONE ∧ ∀ j, k - (steps + 1) < j → j ≤ k → NoCountAt t w j) ∨
        (c ≠ NONE ∧ ∃ j nd, k - (steps + 1) < j ∧ t.numEntry j = c ∧ t.node? c = some nd ∧
          nd.count = w ∧ ∀ i, j < i → i ≤ k → NoCountAt t w i) := by
      intro hno hrec
      have upTo : ∀ i, (i ≤ k - 1 → NoCountAt t w i) → i ≤ k → NoCountAt t w i := fun i hi hik =>
        (Nat.lt_or_ge i k).elim (fun hlt => hi (by omega)) (fun hge => (by omega : k = i) ▸ hno)
      rcases ih (by omega) hrec with ⟨hc, hall⟩ | ⟨hc, j, nd, hj, hjc, hn, hw, hall⟩
      · exact .inl ⟨hc, fun j hj => upTo j (hall j (by omega))⟩
      · exact .inr ⟨hc, j, nd, by omega, hjc, hn, hw, fun i hi => upTo i (hall i hi)⟩
    rw [scanNumbers] at h
    split at h
    · next he => exact extend (fun _ hne => absurd he hne) h
    · next he =>
      split at h
      · cases h
      · next nd hn =>
        split_ifs at h with hcount
        · obtain rfl : t.numEntry k = c := Option.some.inj h
          exact .inr ⟨he, k, nd, by omega, rfl, hn, hcount, fun i h1 h2 => by omega⟩
        · exact extend (fun nd' _ hn' => node?_unique hn hn' ▸ hcount) h

/-- The candidate is the highest live node of `cur`'s count above `cur`; where there is none it is NONE
and `cur` itself is the highest (R140). -/
theorem findCandidate_cases {cfg : Config} {t : CodeTree} {cur c : Handle} {nd : Node}
    (hc : Climb cfg cur t) (hn : LiveAt t cur nd) (hf : findCandidate cfg t cur = some c) :
    (c = NONE ∧ TopOfCount t cur) ∨ ∃ nc, LiveAt t c nc ∧ nd.number.toNat < nc.number.toNat ∧
      nc.count = nd.count ∧ TopOfCount t c := by
  obtain ⟨nd', hn', hscan⟩ := findCandidate_eq_some.1 hf
  obtain rfl : nd' = nd := node?_unique hn' hn.1
  have hmax := (hc.named hn).2
  have differs : ∀ {h x}, LiveAt t h x → NoCountAt t nd'.count x.number.toNat → x.count ≠ nd'.count := by
    intro h x hx hno
    have hxh := (hc.named hx).1
    exact hno x (hxh ▸ hc.ne_none hx.1) (hxh ▸ hx.1)
  rcases scanNumbers_cases (Nat.sub_le _ _) hscan with ⟨rfl, hall⟩ | ⟨hne, j, nc, hj, hjc, hnc, hw, hall⟩
  · refine .inl ⟨rfl, fun {nd h x} hnd hx hlt => ?_⟩
    obtain rfl : nd' = nd := node?_unique hn' hnd
    exact differs hx (hall _ (by omega) (hc.named hx).2)
  · subst hjc
    obtain ⟨nc', hlive, hnum⟩ := hc.numbered hne
    obtain rfl : nc' = nc := node?_unique hlive.1 hnc
    refine .inr ⟨nc', hlive, by omega, hw, fun {nd h x} hnd hx hlt => ?_⟩
    obtain rfl : nc' = nd := node?_unique hnc hnd
    exact hw ▸ differs hx (hall _ (by omega) (hc.named hx).2)

end Sys2Proof.Machine
end

section
/-! SWAP and the increment, entry by entry: what they change of a node, and that they keep the climb. -/

namespace Sys2Proof.Machine

/-- An entry after a write to one. -/
theorem node?_modNode_some {t : CodeTree} {h k : Handle} {x : Node} (hx : t.node? h = some x)
    (f : Node → Node) : (t.modNode k f).node? h = some (if k = h then f x else x) := by
  rw [node?_modNode, hx]
  split <;> rfl

/-- The fields of an entry that SWAP and the splice of INSERT leave alone (R145). -/
structure SameBody (x y : Node) : Prop where
  live : y.live = x.live
  isNyt : y.isNyt = x.isNyt
  symv : y.symv = x.symv
  sym : y.sym = x.sym
  count : y.count = x.count

/-- SWAP moves `a` and `b` to each other's position, number and parent. It keeps every body, and all of an
entry that is neither of the two nor a parent of one (R145). -/
structure SwapEntry (t : CodeTree) (a b h : Handle) (x y : Node) : Prop where
  body : SameBody x y
  position : ∃ z, t.node? (Equiv.swap a b h) = some z ∧ y.number = z.number ∧ y.parent = z.parent
  untouched : h ≠ a → h ≠ b → (∀ na, t.node? a = some na → na.parent ≠ h) →
    (∀ nb, t.node? b = some nb → nb.parent ≠ h) → y = x

theorem swap_entry {t t' : CodeTree} {a b h : Handle} {x : Node} (hs : swap t a b = some t')
    (hab : a ≠ b) (hx : t.node? h = some x) : ∃ y, t'.node? h = some y ∧ SwapEntry t a b h x y := by
  obtain ⟨na, nb, pa, pb, ha, hb, -, -, rfl⟩ := swap_eq_some.1 hs
  refine ⟨_, node?_modNode_some (node?_modNode_some (node?_modNode_some
    (node?_modNode_some hx _) _) _) _, ?_, ?_, ?_⟩
  · constructor <;> split_ifs <;> simp
  · by_cases hha : a = h
    · subst hha
      exact ⟨nb, by rw [Equiv.swap_apply_left, hb], by simp [hab.symm], by simp [hab.symm]⟩
    by_cases hhb : b = h
    · subst hhb
      exact ⟨na, by rw [Equiv.swap_apply_right, ha], by simp, by simp⟩
    · refine ⟨x, by rw [Equiv.swap_apply_of_ne_of_ne (Ne.symm hha) (Ne.symm hhb), hx], ?_, ?_⟩
      · rw [if_neg hhb, if_neg hha]; split_ifs <;> simp
      · rw [if_neg hhb, if_neg hha]; split_ifs <;> simp
  · intro h1 h2 h3 h4
    rw [if_neg h2.symm, if_neg h1.symm, if_neg (h4 nb hb), if_neg (h3 na ha)]

/-- An entry after SWAP was there before it. -/
theorem swap_entry_before {t t' : CodeTree} {a b h : Handle} {y : Node} (hs : swap t a b = some t')
    (hab : a ≠ b) (hy : t'.node? h = some y) : ∃ x, t.node? h = some x ∧ SwapEntry t a b h x y := by
  have hx : t.node? h = some _ :=
    List.getElem?_eq_getElem ((swap_frame hs).size ▸ lt_of_node? hy)
  obtain ⟨y', hy', he⟩ := swap_entry hs hab hx
  obtain rfl : y' = y := node?_unique hy' hy
  exact ⟨_, hx, he⟩

/-- What the walk does when it stands at `cur` and finds `c`: the two are live and of one count, `c` is
numbered above `cur`, and is not its parent (R140, R141). -/
structure Swappable (t : CodeTree) (cur c : Handle) (nd nc : Node) : Prop where
  cur : LiveAt t cur nd
  cand : LiveAt t c nc
  higher : nd.number.toNat < nc.number.toNat
  same_count : nc.count = nd.count
  not_parent : nd.parent ≠ c

section Swap
variable {cfg : Config} {cur c : Handle} {t t' : CodeTree} {nd nc : Node}

theorem Swappable.ne (h : Swappable t cur c nd nc) : cur ≠ c := by
  rintro rfl
  have hlt := h.higher
  rw [h.cur.unique h.cand] at hlt
  exact lt_irrefl _ hlt

/-- The node whose place a live node takes in the swap is live and of its count. -/
theorem Swappable.partner (h : Swappable t cur c nd nc) {k : Handle} {x : Node} (hx : LiveAt t k x) :
    ∃ z, LiveAt t (Equiv.swap cur c k) z ∧ z.count = x.count := by
  by_cases h1 : k = cur
  · subst h1
    rw [Equiv.swap_apply_left, hx.unique h.cur]
    exact ⟨nc, h.cand, h.same_count⟩
  by_cases h2 : k = c
  · subst h2
    rw [Equiv.swap_apply_right, hx.unique h.cand]
    exact ⟨nd, h.cur, h.same_count.symm⟩
  · rw [Equiv.swap_apply_of_ne_of_ne h1 h2]
    exact ⟨x, hx, rfl⟩

/-- A live node after the swap has the count, the number and the parent of the live node whose place it
took. -/
theorem Swappable.liveAt (h : Swappable t cur c nd nc) (hs : swap t cur c = some t') {k : Handle}
    {y : Node} (hy : LiveAt t' k y) : ∃ z, LiveAt t (Equiv.swap cur c k) z ∧
      y.count = z.count ∧ y.number = z.number ∧ y.parent = z.parent := by
  obtain ⟨x, hx, he⟩ := swap_entry_before hs h.ne hy.1
  obtain ⟨z, hz, hzx⟩ := h.partner ⟨hx, he.body.live ▸ hy.2⟩
  obtain ⟨z', hz', hnum, hpar⟩ := he.position
  obtain rfl : z' = z := node?_unique hz' hz.1
  exact ⟨z', hz, he.body.count.trans hzx.symm, hnum, hpar⟩

/-- Each live node's place is taken by a live node of its count and its number. -/
theorem Swappable.place_taken (h : Swappable t cur c nd nc) (hs : swap t cur c = some t') {k : Handle}
    {z : Node} (hz : LiveAt t (Equiv.swap cur c k) z) :
    ∃ y, LiveAt t' k y ∧ y.count = z.count ∧ y.number = z.number := by
  obtain ⟨x, hx, hxz⟩ := h.partner hz
  rw [Equiv.swap_apply_self] at hx
  obtain ⟨y, hy, he⟩ := swap_entry hs h.ne hx.1
  obtain ⟨z', hz', hnum, -⟩ := he.position
  obtain rfl : z' = z := node?_unique hz' hz.1
  exact ⟨y, ⟨hy, he.body.live.trans hx.2⟩, he.body.count.trans hxz, hnum⟩

/-- NUMMAP after a swap of the walk. -/
theorem Climb.swap_numEntry (hc : Climb cfg cur t) (h : Swappable t cur c nd nc)
    (hs : swap t cur c = some t') (k : Nat) : t'.numEntry k = Equiv.swap cur c (t.numEntry k) := by
  have own_number : ∀ {a : Handle} {x : Node} {j : Nat}, LiveAt t a x → t.numEntry j = a →
      x.number.toNat = j := by
    rintro a x j hx rfl
    obtain ⟨y, hy, hyj⟩ := hc.numbered (hc.ne_none hx.1)
    rw [hx.unique hy, hyj]
  obtain ⟨na, nb, pa, pb, ha, hb, -, -, rfl⟩ := swap_eq_some.1 hs
  obtain rfl : na = nd := node?_unique ha h.cur.1
  obtain rfl : nb = nc := node?_unique hb h.cand.1
  rw [numEntry_setNum _ _ _ _ (hc.ne_none hb), numEntry_setNum _ _ _ _ (hc.ne_none ha)]
  split_ifs with h1 h2
  · rw [← h1, (hc.named h.cur).1, Equiv.swap_apply_left]
  · rw [← h2, (hc.named h.cand).1, Equiv.swap_apply_right]
  · exact (Equiv.swap_apply_of_ne_of_ne (fun e => h1 (own_number h.cur e))
      (fun e => h2 (own_number h.cand e))).symm

/-- After a swap of the walk a parent is still numbered above its child: the children of the candidate count
less than `cur`, and so are numbered below it (R163). -/
theorem Climb.parent_place (hc : Climb cfg cur t) (h : Swappable t cur c nd nc) {k : Handle}
    {z p q : Node} (hz : LiveAt t k z) (hp : LiveAt t z.parent p)
    (hq : LiveAt t (Equiv.swap cur c z.parent) q) (hnum : z.number.toNat < p.number.toNat)
    (hcnt : z.count ≤ p.count) (hlast : z.count = p.count → z.parent = cur) :
    z.number.toNat < q.number.toNat := by
  by_cases h1 : z.parent = cur
  · rw [h1, Equiv.swap_apply_left] at hq
    rw [hq.unique h.cand]
    rw [h1] at hp
    exact (hp.unique h.cur ▸ hnum).trans h.higher
  by_cases h2 : z.parent = c
  · rw [h2, Equiv.swap_apply_right] at hq
    rw [h2] at hp
    have hpc := hp.unique h.cand
    have hqc := hq.unique h.cur
    subst hpc hqc
    have hlt : z.count < q.count := h.same_count ▸ lt_of_le_of_ne hcnt fun e => h1 (hlast e)
    rcases lt_trichotomy z.number.toNat q.number.toNat with hn | hn | hn
    · exact hn
    · have hk := hc.eq_of_number hz h.cur hn
      subst hk
      exact absurd h2 (hz.unique h.cur ▸ h.not_parent)
    · exact absurd (hc.order h.cur hz hn) (by omega)
  · rw [Equiv.swap_apply_of_ne_of_ne h1 h2] at hq
    exact hq.unique hp ▸ hnum

/-- A swap of the walk keeps the climb: the two nodes have one count, so every number keeps its count. -/
theorem Climb.after_swap (hc : Climb cfg cur t) (h : Swappable t cur c nd nc) (hs : swap t cur c = some t') :
    Climb cfg cur t' where
  none_absent := Option.eq_none_iff_forall_ne_some.2 fun y hy => by
    obtain ⟨x, hx, -⟩ := swap_entry_before hs h.ne hy
    exact hc.ne_none hx rfl
  named {k y} hy := by
    obtain ⟨z, hz, -, hyn, -⟩ := h.liveAt hs hy
    rw [hyn, hc.swap_numEntry h hs, (hc.named hz).1, Equiv.swap_apply_self]
    exact ⟨rfl, (hc.named hz).2⟩
  numbered {k} hk := by
    rw [hc.swap_numEntry h hs] at hk ⊢
    have hk' : t.numEntry k ≠ NONE := fun e => hk (by
      rw [e, Equiv.swap_apply_of_ne_of_ne (hc.ne_none h.cur.1).symm (hc.ne_none h.cand.1).symm])
    obtain ⟨z, hz, hzk⟩ := hc.numbered hk'
    obtain ⟨y, hy, -, hyn⟩ := h.place_taken hs
      (k := Equiv.swap cur c (t.numEntry k)) (z := z) (by rwa [Equiv.swap_apply_self])
    exact ⟨y, hy, hyn ▸ hzk⟩
  parent {k y} hy hp := by
    obtain ⟨z, hz, hyc, hyn, hyp⟩ := h.liveAt hs hy
    rw [hyc, hyn, hyp]
    obtain ⟨p, hpl, hnum, hcnt, hlast⟩ := hc.parent hz (hyp ▸ hp)
    obtain ⟨q, hq, hqp⟩ := h.partner hpl
    obtain ⟨p', hp', hpc, hpn⟩ := h.place_taken hs hq
    refine ⟨p', hp', hpn ▸ hc.parent_place h hz hpl hq hnum hcnt hlast, ?_⟩
    rw [hpc, hqp]
    exact ⟨hcnt, hlast⟩
  order hy hy' hlt := by
    obtain ⟨z, hz, hyc, hyn, -⟩ := h.liveAt hs hy
    obtain ⟨z', hz', hyc', hyn', -⟩ := h.liveAt hs hy'
    rw [hyc, hyc']
    exact hc.order hz hz' (hyn ▸ hyn' ▸ hlt)
  counted hne := by
    obtain ⟨x, hx, h1⟩ := hc.counted hne
    obtain ⟨z, hz, hzx⟩ := h.partner hx
    obtain ⟨y, hy, hyc, -⟩ := h.place_taken hs hz
    exact ⟨y, hy, by omega⟩

/-- After the swap `cur` stands where the candidate stood, the highest of its count. -/
theorem Swappable.topOfCount (h : Swappable t cur c nd nc) (hs : swap t cur c = some t')
    (ht : TopOfCount t c) : TopOfCount t' cur := by
  intro y k x hy hx hlt
  obtain ⟨y', hy', hyc, hyn⟩ := h.place_taken hs (k := cur) (z := nc)
    (by rw [Equiv.swap_apply_left]; exact h.cand)
  obtain rfl : y = y' := node?_unique hy hy'.1
  obtain ⟨z, hz, hxc, hxn, -⟩ := h.liveAt hs hx
  rw [hxc, hyc]
  exact ht h.cand.1 hz (hyn ▸ hxn ▸ hlt)

end Swap

section Increment
variable {cfg : Config} {cur : Handle} {t : CodeTree}

/-- A live node after the increment at `cur`. -/
theorem liveAt_bumpCount {k : Handle} {y : Node} (hy : LiveAt (bumpCount t cur) k y) :
    ∃ x, LiveAt t k x ∧ y.number = x.number ∧ y.parent = x.parent ∧
      y.count = if cur = k then x.count + 1 else x.count := by
  obtain ⟨hy, hl⟩ := hy
  rw [bumpCount, node?_modNode] at hy
  split_ifs at hy ⊢ with he
  · obtain ⟨x, hx, rfl⟩ := Option.map_eq_some_iff.1 hy
    exact ⟨x, ⟨hx, hl⟩, rfl, rfl, rfl⟩
  · exact ⟨y, ⟨hy, hl⟩, rfl, rfl, rfl⟩

theorem LiveAt.after_bumpCount {k : Handle} {x : Node} (hx : LiveAt t k x) :
    ∃ y, LiveAt (bumpCount t cur) k y ∧ y.number = x.number ∧ y.parent = x.parent ∧
      y.count = if cur = k then x.count + 1 else x.count := by
  refine ⟨_, ⟨node?_modNode_some hx.1 _, ?_⟩, ?_, ?_, ?_⟩
  · split_ifs <;> exact hx.2
  all_goals split_ifs <;> rfl

/-- The increment keeps the climb and moves it to the parent: nobody above `cur` had its count, so the
counts still rise with the numbers, and `cur` may now count as much as its parent (R150, R163). -/
theorem Climb.after_bumpCount (hc : Climb cfg cur t) (ht : TopOfCount t cur) {nd : Node}
    (hn : LiveAt t cur nd) : Climb cfg nd.parent (bumpCount t cur) where
  none_absent := by simp [bumpCount, hc.none_absent]
  named hy := by
    obtain ⟨x, hx, hyn, -, -⟩ := liveAt_bumpCount hy
    exact hyn ▸ hc.named hx
  numbered hk := by
    obtain ⟨x, hx, hxk⟩ := hc.numbered hk
    obtain ⟨y, hy, hyn, -, -⟩ := hx.after_bumpCount (cur := cur)
    exact ⟨y, hy, hyn ▸ hxk⟩
  parent {k y} hy hp := by
    obtain ⟨x, hx, hyn, hyp, hyc⟩ := liveAt_bumpCount hy
    obtain ⟨p, hpl, hnum, hcnt, hlast⟩ := hc.parent hx (hyp ▸ hp)
    obtain ⟨q, hq, hqn, -, hqc⟩ := hpl.after_bumpCount (cur := cur)
    rw [hyc, hyn, hyp]
    refine ⟨q, hq, hqn ▸ hnum, ?_⟩
    rw [hqc]
    by_cases hk : cur = k
    · subst hk
      obtain rfl := hx.unique hn
      have hne : cur ≠ x.parent := fun e => by
        rw [← e] at hpl
        rw [hpl.unique hx] at hnum
        exact lt_irrefl _ hnum
      rw [if_pos rfl, if_neg hne]
      exact ⟨lt_of_le_of_ne hcnt fun e => hne (hlast e).symm, fun _ => rfl⟩
    · rw [if_neg hk]
      split_ifs with hcur
      · exact ⟨by omega, fun e => by omega⟩
      · exact ⟨hcnt, fun e => absurd (hlast e).symm hcur⟩
  order {k k' y y'} hy hy' hlt := by
    obtain ⟨x, hx, hyn, -, hyc⟩ := liveAt_bumpCount hy
    obtain ⟨x', hx', hyn', -, hyc'⟩ := liveAt_bumpCount hy'
    rw [hyn, hyn'] at hlt
    have hle := hc.order hx hx' hlt
    rw [hyc, hyc']
    by_cases hk : cur = k
    · subst hk
      have hne := ht hx.1 hx' hlt
      rw [if_pos rfl]
      split_ifs <;> omega
    · rw [if_neg hk]
      split_ifs <;> omega
  counted hne := by
    obtain ⟨p, hpl, -, hcnt, -⟩ := hc.parent hn hne
    obtain ⟨x, hx, h1⟩ := hc.counted (hc.ne_none hn.1)
    obtain rfl := hx.unique hn
    obtain ⟨q, hq, -, -, hqc⟩ := hpl.after_bumpCount (cur := cur)
    refine ⟨q, hq, ?_⟩
    split_ifs at hqc <;> omega

end Increment

end Sys2Proof.Machine
end

section
/-! UPDATE from a climbing tree: every entry keeps its identity and its count grows by at most 1
(41_insert_update.md R145, R150). -/

namespace Sys2Proof.Machine

/-- One iteration's rebalance: nothing changes and `cur` is the highest of its count, or `cur` changes places
with the highest, which is live, of one count with it and not its parent (R140, R141). -/
theorem Climb.rebalance_swaps {cfg : Config} {cur : Handle} {t t' : CodeTree} {nd : Node}
    (hc : Climb cfg cur t) (hn : LiveAt t cur nd) (hr : rebalance cfg t cur = some t') :
    (t' = t ∧ TopOfCount t cur) ∨ ∃ c nc, Swappable t cur c nd nc ∧ swap t cur c = some t' ∧
      TopOfCount t c := by
  obtain ⟨c, nd', hf, hn', hswap⟩ := rebalance_cases hr
  obtain rfl : nd' = nd := node?_unique hn' hn.1
  rcases findCandidate_cases hc hn hf with ⟨rfl, htop⟩ | ⟨nc, hnc, hlt, hcount, htop⟩
  · rcases hswap with ⟨ha, -⟩ | ⟨-, rfl⟩
    · simp [swapAllowed] at ha
    · exact .inl ⟨rfl, htop⟩
  · have hparent : nd'.parent ≠ c := by
      rintro rfl
      obtain ⟨p, hp, hnum, hcnt, hlast⟩ := hc.parent hn (hc.ne_none hnc.1)
      rw [hp.unique hnc] at hlast
      rw [hlast hcount.symm] at hnc
      rw [hnc.unique hn] at hlt
      exact absurd hlt (lt_irrefl _)
    have hs : Swappable t cur c nd' nc := ⟨hn, hnc, hlt, hcount, hparent⟩
    rcases hswap with ⟨-, hswap⟩ | ⟨ha, -⟩
    · exact .inr ⟨c, nc, hs, hswap, htop⟩
    · simp [swapAllowed, hc.ne_none hnc.1, hs.ne.symm, hparent.symm] at ha

/-- What UPDATE has done to an entry `x` by the time it stands at `cur`: `y` is one node with it, untouched if
it is dead or was never counted, and counted at most once, which is when the walk has passed it. -/
structure Passed (t : CodeTree) (cur : Handle) (x y : Node) : Prop where
  live : y.live = x.live
  isNyt : y.isNyt = x.isNyt
  symv : y.symv = x.symv
  sym : y.sym = x.sym
  untouched : x.live = false ∨ x.count = 0 → y = x
  count : y.count = x.count ∨ y.count = x.count + 1 ∧
    ∀ nd, t.node? cur = some nd → y.number.toNat < nd.number.toNat

/-- Every entry of the tree `t₀` as UPDATE has left it so far. -/
def Progress (t₀ : CodeTree) (cur : Handle) (t : CodeTree) : Prop :=
  ∀ h x, t₀.node? h = some x → ∃ y, t.node? h = some y ∧ Passed t cur x y

theorem Progress.start (t : CodeTree) (cur : Handle) : Progress t cur t := fun _ x hx =>
  ⟨x, hx, rfl, rfl, rfl, rfl, fun _ => rfl, .inl rfl⟩

section Iteration
variable {cfg : Config} {cur c : Handle} {t₀ t t' : CodeTree} {nd nc : Node}

/-- The parent of a node that has been counted is live and has been counted. -/
theorem Climb.parent_counted (hc : Climb cfg cur t) {k : Handle} {x p : Node} (hx : LiveAt t k x)
    (h1 : 1 ≤ x.count) (hp : t.node? x.parent = some p) : p.live = true ∧ 1 ≤ p.count := by
  obtain ⟨q, hq, -, hcnt, -⟩ := hc.parent hx (hc.ne_none hp)
  obtain rfl : q = p := node?_unique hq.1 hp
  exact ⟨hq.2, h1.trans hcnt⟩

/-- A swap of the walk touches neither a dead entry nor one that was never counted: the two nodes and their
parents are live and counted. -/
theorem Climb.swap_untouched (hc : Climb cfg cur t) (h : Swappable t cur c nd nc) {k : Handle}
    {y w : Node} (hy : t.node? k = some y) (hidle : y.live = false ∨ y.count = 0)
    (he : SwapEntry t cur c k y w) : w = y := by
  obtain ⟨x, hx, h1⟩ := hc.counted (hc.ne_none h.cur.1)
  obtain rfl := hx.unique h.cur
  have idle : ¬ (y.live = true ∧ 1 ≤ y.count) := by
    rintro ⟨hl, h1⟩
    rcases hidle with h0 | h0
    · rw [hl] at h0; cases h0
    · omega
  have not_here : ∀ {a : Handle} {x : Node}, LiveAt t a x → 1 ≤ x.count → k ≠ a := by
    rintro a x hx h1 rfl
    rw [node?_unique hy hx.1] at idle
    exact idle ⟨hx.2, h1⟩
  have not_parent : ∀ {a : Handle} {x : Node}, LiveAt t a x → 1 ≤ x.count →
      ∀ x', t.node? a = some x' → x'.parent ≠ k := by
    rintro a x hx h1 x' hx' rfl
    obtain rfl := node?_unique hx.1 hx'
    exact idle (hc.parent_counted hx h1 hy)
  have h1' : 1 ≤ nc.count := h.same_count ▸ h1
  exact he.untouched (not_here h.cur h1) (not_here h.cand h1') (not_parent h.cur h1)
    (not_parent h.cand h1')

/-- A swap of the walk keeps the progress: it moves no node that the walk has passed. -/
theorem Progress.after_swap (hp : Progress t₀ cur t) (hc : Climb cfg cur t)
    (h : Swappable t cur c nd nc) (hs : swap t cur c = some t') : Progress t₀ cur t' := by
  intro k x hx
  obtain ⟨y, hy, hpass⟩ := hp k x hx
  obtain ⟨w, hw, he⟩ := swap_entry hs h.ne hy
  refine ⟨w, hw, he.body.live.trans hpass.live, he.body.isNyt.trans hpass.isNyt,
    he.body.symv.trans hpass.symv, he.body.sym.trans hpass.sym, fun hidle => ?_, ?_⟩
  · have hyx := hpass.untouched hidle
    exact (hc.swap_untouched h hy (hyx ▸ hidle) he).trans hyx
  · rw [he.body.count]
    refine hpass.count.imp id fun ⟨hcount, hbehind⟩ => ⟨hcount, fun d hd => ?_⟩
    have hlt := hbehind nd h.cur.1
    have hkcur : k ≠ cur := by
      rintro rfl
      rw [node?_unique hy h.cur.1] at hlt
      exact lt_irrefl _ hlt
    have hkc : k ≠ c := by
      rintro rfl
      rw [node?_unique hy h.cand.1] at hlt
      exact lt_asymm hlt h.higher
    obtain ⟨z, hz, hwn, -⟩ := he.position
    rw [Equiv.swap_apply_of_ne_of_ne hkcur hkc] at hz
    obtain rfl : z = y := node?_unique hz hy
    obtain ⟨d', hd', -, hdn⟩ := h.place_taken hs (k := cur) (z := nc)
      (by rw [Equiv.swap_apply_left]; exact h.cand)
    obtain rfl : d' = d := node?_unique hd'.1 hd
    rw [hwn, hdn]
    exact hlt.trans h.higher

/-- The increment keeps the progress as the walk moves to the parent, which is numbered above `cur` and so
above all that the walk has passed: `cur` itself had not been counted yet. -/
theorem Progress.after_bumpCount (hp : Progress t₀ cur t) (hc : Climb cfg cur t)
    (hn : LiveAt t cur nd) : Progress t₀ nd.parent (bumpCount t cur) := by
  obtain ⟨nd', hn', h1⟩ := hc.counted (hc.ne_none hn.1)
  obtain rfl := hn'.unique hn
  have above : ∀ p, (bumpCount t cur).node? nd'.parent = some p →
      nd'.number.toNat < p.number.toNat := by
    intro p hpn
    have hne : nd'.parent ≠ NONE := fun e => by
      rw [e, bumpCount, node?_modNode, hc.none_absent] at hpn
      simp at hpn
    obtain ⟨q, hq, hnum, -⟩ := hc.parent hn hne
    obtain ⟨p', hp', hpq, -⟩ := hq.after_bumpCount (cur := cur)
    obtain rfl : p' = p := node?_unique hp'.1 hpn
    exact hpq ▸ hnum
  intro k x hx
  obtain ⟨y, hy, hpass⟩ := hp k x hx
  refine ⟨_, node?_modNode_some hy _, ?_⟩
  by_cases hk : cur = k
  · subst hk
    obtain rfl : y = nd' := node?_unique hy hn.1
    rw [if_pos rfl]
    refine ⟨hpass.live, hpass.isNyt, hpass.symv, hpass.sym, fun hidle => ?_, .inr ⟨?_, above⟩⟩
    · rw [← hpass.untouched hidle] at hidle
      rcases hidle with h0 | h0
      · exact absurd (h0.symm.trans hn.2) (by simp)
      · omega
    · rcases hpass.count with hcount | ⟨-, hbehind⟩
      · simp [hcount]
      · exact absurd (hbehind y hy) (lt_irrefl _)
  · rw [if_neg hk]
    refine ⟨hpass.live, hpass.isNyt, hpass.symv, hpass.sym, hpass.untouched, ?_⟩
    exact hpass.count.imp id fun ⟨hcount, hbehind⟩ =>
      ⟨hcount, fun p hpn => (hbehind nd' hn.1).trans (above p hpn)⟩

/-- A rebalance keeps the climb and the progress, and makes `cur` the highest of its count. -/
theorem Climb.after_rebalance (hc : Climb cfg cur t) (hp : Progress t₀ cur t) (hne : cur ≠ NONE)
    (hr : rebalance cfg t cur = some t') :
    Climb cfg cur t' ∧ Progress t₀ cur t' ∧ TopOfCount t' cur := by
  obtain ⟨nd, hn, -⟩ := hc.counted hne
  rcases hc.rebalance_swaps hn hr with ⟨rfl, htop⟩ | ⟨c, nc, h, hs, htop⟩
  · exact ⟨hc, hp, htop⟩
  · exact ⟨hc.after_swap h hs, hp.after_swap hc h hs, h.topOfCount hs htop⟩

end Iteration

/-- The whole walk of UPDATE, to above the root. -/
theorem updateWalk_progress {cfg : Config} {t₀ : CodeTree} : ∀ {fuel : Nat} {cur : Handle}
    {t t' : CodeTree}, updateWalk cfg fuel cur t = some t' → Climb cfg cur t → Progress t₀ cur t →
      Progress t₀ NONE t' := by
  intro fuel
  induction fuel with
  | zero => intro cur t t' h; cases h
  | succ fuel ih =>
    intro cur t t' h hc hp
    rcases updateWalk_succ.1 h with ⟨rfl, rfl⟩ | ⟨hne, t1, nd', hr, hnd', h⟩
    · exact hp
    obtain ⟨hc1, hp1, htop⟩ := hc.after_rebalance hp hne hr
    obtain ⟨nd, hn, -⟩ := hc1.counted hne
    have hparent : nd'.parent = nd.parent := by
      obtain ⟨y, hy, -, hyp, -⟩ := hn.after_bumpCount (cur := cur)
      rwa [node?_unique hnd' hy.1]
    rw [hparent] at h
    exact ih h (hc1.after_bumpCount htop hn) (hp1.after_bumpCount hc1 hn)

/-- UPDATE from a climbing tree counts every entry at most once (R150). -/
theorem update_progress {cfg : Config} {start : Handle} {t t' : CodeTree}
    (h : update cfg start t = some t') (hc : Climb cfg start t) : Progress t NONE t' :=
  updateWalk_progress h hc (Progress.start t start)

end Sys2Proof.Machine
end

section
/-! INSERT up to step S9: the entries, the live nodes and NUMMAP of the grafted tree, and that it climbs from
the new internal node (41_insert_update.md R131, R134). -/

namespace Sys2Proof.Machine

/-- Where a symbol has no leaf, SYMMAP has an entry to spare (R26). -/
theorem nsym_lt_of_absent {t : CodeTree} {sym : Symbol} (hs : t.symEntry sym = NONE) : t.nsym < 256 := by
  have hlt : t.nsym < (List.range 256).length := by
    refine List.length_filter_lt_length_iff_exists.2 ⟨sym.toNat, List.mem_range.2 sym.isLt, ?_⟩
    simpa [CodeTree.symEntry] using hs
  simpa using hlt

/-- The entries that are live after the graft, as they were allocated or as they were before (R131, R134). -/
inductive Grafted (t : CodeTree) (sym : Symbol) (old : Node) : Handle → Node → Prop
  | nyt : Grafted t sym old t.nextHandle (newNyt t)
  | leaf : Grafted t sym old (t.nextHandle + 1) (newLeaf t sym)
  | internal : Grafted t sym old (t.nextHandle + 2) (newInternal t old)
  | kept {h : Handle} {x : Node} : h ≠ t.nyt → LiveAt t h x → Grafted t sym old h x

/-- What the graft does to an entry once the three new ones are allocated: the old NYT turns historical, and the
old NYT's parent has a new child (R131 steps S5 and S6). -/
structure GraftEntry (t : CodeTree) (old : Node) (h : Handle) (x y : Node) : Prop where
  retired : h = t.nyt → y = { x with live := false, isNyt := false }
  body : h ≠ t.nyt → SameBody x y
  number : y.number = x.number
  parent : y.parent = x.parent
  untouched : h ≠ t.nyt → h ≠ old.parent → y = x

/-- The old NYT: a live leaf, and so no parent, with the least number. -/
structure OldNyt (cfg : Config) (t : CodeTree) (old : Node) : Prop where
  wf : treeWf cfg t = true
  here : LiveAt t t.nyt old
  count : old.count = 0
  number : old.number.toNat + 2 * t.symMap.length = cfg.maxNumber

theorem treeWf_oldNyt {cfg : Config} {t : CodeTree} {old : Node} (hw : treeWf cfg t = true)
    (ho : t.node? t.nyt = some old) : OldNyt cfg t old := by
  obtain ⟨old', ho', hold⟩ := treeWf_nyt hw
  obtain rfl : old' = old := node?_unique ho' ho
  obtain ⟨hlive, -, -, -, hcount, hnumber, -⟩ := (wfNyt_iff _ _ _ _).1 hold
  exact ⟨hw, ⟨ho, hlive⟩, hcount, hnumber⟩

section Graft
variable {cfg : Config} {t g : CodeTree} {sym : Symbol} {old : Node}

theorem OldNyt.not_parent (h : OldNyt cfg t old) {k : Handle} {x : Node} (hx : LiveAt t k x) :
    x.parent ≠ t.nyt := by
  intro e
  have hne : x.parent ≠ NONE := e ▸ treeWf_ne_none h.wf h.here.1
  obtain ⟨p, hp, -, hcnt⟩ := treeWf_parent h.wf hx hne
  rw [e] at hp
  rw [hp.unique h.here, h.count] at hcnt
  exact Nat.not_lt_zero _ hcnt

/-- Every other live node is numbered above the NYT and has been counted (R160). -/
theorem OldNyt.below (h : OldNyt cfg t old) {k : Handle} {x : Node} (hk : k ≠ t.nyt)
    (hx : LiveAt t k x) : old.number.toNat < x.number.toNat ∧ 1 ≤ x.count := by
  refine ⟨?_, treeWf_one_le_count h.wf hx (treeWf_not_nyt h.wf hx hk)⟩
  have hlow := (treeWf_named h.wf hx).2.2
  have hnum := h.number
  refine lt_of_le_of_ne (by omega) fun e => hk ?_
  rw [← (treeWf_named h.wf hx).1, ← e, (treeWf_named h.wf h.here).1]

/-- The NYT's parent counts at least 2: its other child has been counted (R160, R164). -/
theorem OldNyt.two_le_parent (h : OldNyt cfg t old) {p : Node} (hp : LiveAt t old.parent p) :
    2 ≤ p.count := by
  obtain ⟨-, -, hc, -⟩ := (treeWf_iff _ _).1 h.wf
  obtain ⟨hlen, -, -, hnyt, -⟩ := (wfCounters_iff _ _ _).1 hc
  obtain ⟨old', ho', hold⟩ := treeWf_nyt h.wf
  obtain rfl : old' = old := node?_unique ho' h.here.1
  obtain ⟨-, -, -, -, -, -, -, -, hn | ⟨-, p', hp', hleft⟩⟩ := (wfNyt_iff _ _ _ _).1 hold
  · have hlt := lt_of_node? hp.1
    rw [if_pos hn] at hnyt
    exact absurd (BitVec.eq_of_toNat_eq (by omega)) (h.not_parent h.here)
  obtain rfl : p' = p := node?_unique hp' hp.1
  have hi := treeWf_internal h.wf hp.1 (.inl (hleft ▸ treeWf_ne_none h.wf h.here.1))
  obtain ⟨-, -, -, -, -, hr, hs⟩ := (wfInternal_iff _ _ _).1 hi
  obtain ⟨r, hr, hrlive, -, -, hcnt⟩ := (wfChild_iff _ _ _ _).1 hr
  have hne : p'.right ≠ t.nyt := by
    intro e
    obtain ⟨l, hl, r', hr', hnum⟩ := (wfSiblings_iff _ _).1 hs
    rw [hleft] at hl
    rw [e] at hr'
    obtain rfl := node?_unique hl hr'
    omega
  have := (h.below hne ⟨hr, hrlive⟩).2
  omega

/-- NEXT_HANDLE is the arena's size, with room for three more (R23, R167). -/
theorem OldNyt.room (h : OldNyt cfg t old) (hs : t.symEntry sym = NONE) :
    t.nextHandle.toNat = t.arena.length ∧ t.arena.length ≤ 766 ∧
      (t.nextHandle + 1).toNat = t.arena.length + 1 ∧ (t.nextHandle + 2).toNat = t.arena.length + 2 := by
  obtain ⟨-, hm, hc, -⟩ := (treeWf_iff _ _).1 h.wf
  obtain ⟨hlen, hnext, -⟩ := (wfCounters_iff _ _ _).1 hc
  have hlt := nsym_eq_length hm ▸ nsym_lt_of_absent hs
  refine ⟨by omega, by omega, ?_, ?_⟩
  · rw [BitVec.toNat_add_of_lt (by simp; omega)]; simp; omega
  · rw [BitVec.toNat_add_of_lt (by simp; omega)]; simp; omega

/-- The two new numbers are the next below the old NYT's (R28, R131). -/
theorem OldNyt.numbers (h : OldNyt cfg t old) (hs : t.symEntry sym = NONE) :
    (newLeaf t sym).number.toNat + 1 = old.number.toNat ∧
      (newNyt t).number.toNat + 2 = old.number.toNat := by
  obtain ⟨hcfg, hm, hc, -⟩ := (treeWf_iff _ _).1 h.wf
  obtain ⟨hlo, hhi, -⟩ := (config_wf_iff _).1 hcfg
  obtain ⟨-, -, hnext, -⟩ := (wfCounters_iff _ _ _).1 hc
  have hlt := nsym_eq_length hm ▸ nsym_lt_of_absent hs
  have hnum := h.number
  have hnat : t.nextNum.toNat + 1 = old.number.toNat := by
    rw [BitVec.toInt_eq_toNat_cond] at hnext
    split at hnext <;> omega
  have hsub : (t.nextNum - 1).toNat = t.nextNum.toNat - 1 :=
    BitVec.toNat_sub_of_le (by simp [BitVec.le_def]; omega)
  simp only [newLeaf, newNyt, BitVec.toNat_setWidth, hsub]
  omega

/-- The allocated tree holds the old entries and the three new ones, and no more (R131 steps S1 to S4). -/
theorem node?_allocate_kept {h : Handle} {x : Node} (hx : t.node? h = some x) :
    (allocate t sym old).node? h = some x :=
  (List.getElem?_append_left (lt_of_node? hx)).trans hx

theorem OldNyt.node?_allocate_new (h : OldNyt cfg t old) (hs : t.symEntry sym = NONE) :
    (allocate t sym old).node? t.nextHandle = some (newNyt t) ∧
      (allocate t sym old).node? (t.nextHandle + 1) = some (newLeaf t sym) ∧
      (allocate t sym old).node? (t.nextHandle + 2) = some (newInternal t old) := by
  obtain ⟨h0, -, h1, h2⟩ := h.room hs
  refine ⟨?_, ?_, ?_⟩ <;> rw [CodeTree.node?, allocate]
  · simp [h0]
  · rw [h1]; simp
  · rw [h2]; simp

theorem OldNyt.allocate_cases (h : OldNyt cfg t old) (hs : t.symEntry sym = NONE) {k : Handle} {x : Node}
    (hx : (allocate t sym old).node? k = some x) : t.node? k = some x ∨
      (k = t.nextHandle ∧ x = newNyt t) ∨ (k = t.nextHandle + 1 ∧ x = newLeaf t sym) ∨
      (k = t.nextHandle + 2 ∧ x = newInternal t old) := by
  obtain ⟨h0, -, h1, h2⟩ := h.room hs
  obtain ⟨e0, e1, e2⟩ := h.node?_allocate_new hs
  have hlt : k.toNat < t.arena.length + 3 := by simpa [allocate] using lt_of_node? hx
  have hcases : k.toNat < t.arena.length ∨ k = t.nextHandle ∨ k = t.nextHandle + 1 ∨
      k = t.nextHandle + 2 := by
    simp only [← BitVec.toNat_inj, h0, h1, h2]
    omega
  rcases hcases with hk | rfl | rfl | rfl
  · exact .inl ((List.getElem?_append_left hk).symm.trans hx)
  · exact .inr (.inl ⟨rfl, node?_unique hx e0⟩)
  · exact .inr (.inr (.inl ⟨rfl, node?_unique hx e1⟩))
  · exact .inr (.inr (.inr ⟨rfl, node?_unique hx e2⟩))

/-- The splice writes no entry but one child slot of `p`. -/
theorem splice_node? {t' : CodeTree} {c nI p : Handle} (h : splice t c nI p = some t') (k : Handle) :
    t'.node? k = t.node? k ∨ k = p ∧ ∃ sl, t'.node? k = (t.node? k).map (·.setSlot sl nI) := by
  rcases splice_cases h with ⟨-, rfl⟩ | ⟨-, pn, -, rfl⟩
  · exact .inl rfl
  · by_cases hk : p = k
    · exact .inr ⟨hk.symm, _, by rw [node?_modNode, if_pos hk]⟩
    · exact .inl (by rw [node?_modNode, if_neg hk])

theorem OldNyt.graft_entry (h : OldNyt cfg t old) (hg : graft sym t = some g) {k : Handle} {x : Node}
    (hx : (allocate t sym old).node? k = some x) : ∃ y, g.node? k = some y ∧ GraftEntry t old k x y := by
  obtain ⟨old', t2, ho', h2, rfl⟩ := graft_eq_some.1 hg
  obtain rfl : old' = old := node?_unique ho' h.here.1
  have hnp := h.not_parent h.here
  have hretire : ∀ {z}, t2.node? k = some z →
      (retireNyt t2 t.nyt t.nextHandle).node? k =
        some (if t.nyt = k then { z with live := false, isNyt := false } else z) :=
    fun hz => node?_modNode_some hz _
  rcases splice_node? h2 k with h2k | ⟨rfl, sl, h2k⟩
  · refine ⟨_, hretire (h2k.trans hx), fun e => if_pos e.symm, fun e => ?_, ?_, ?_, fun e _ => ?_⟩
    · rw [if_neg (Ne.symm e)]; exact ⟨rfl, rfl, rfl, rfl, rfl⟩
    · split_ifs <;> rfl
    · split_ifs <;> rfl
    · exact if_neg (Ne.symm e)
  · rw [hx] at h2k
    refine ⟨_, hretire h2k, fun e => absurd e hnp, fun e => ?_, ?_, ?_, fun _ e => absurd rfl e⟩
    · rw [if_neg (Ne.symm e)]; constructor <;> simp
    · split_ifs <;> simp
    · split_ifs <;> simp

/-- An entry of the graft's tree was allocated. -/
theorem OldNyt.graft_allocated (h : OldNyt cfg t old) (hg : graft sym t = some g) {k : Handle} {y : Node}
    (hy : g.node? k = some y) : ∃ x, (allocate t sym old).node? k = some x ∧ GraftEntry t old k x y := by
  have hk : k.toNat < (allocate t sym old).arena.length := by
    obtain ⟨-, -, -, -, hlen⟩ := graft_frame hg
    simpa [allocate, hlen] using lt_of_node? hy
  have hx : (allocate t sym old).node? k = some _ := List.getElem?_eq_getElem hk
  obtain ⟨y', hy', he⟩ := h.graft_entry hg hx
  obtain rfl : y' = y := node?_unique hy' hy
  exact ⟨_, hx, he⟩

/-- The new entries are neither the old NYT nor its parent, which were there before. -/
theorem OldNyt.grafted (h : OldNyt cfg t old) (hs : t.symEntry sym = NONE) {k : Handle} {x : Node} :
    Grafted t sym old k x ↔ k ≠ t.nyt ∧ (allocate t sym old).node? k = some x ∧ x.live = true := by
  obtain ⟨h0, -, h1, h2⟩ := h.room hs
  obtain ⟨e0, e1, e2⟩ := h.node?_allocate_new hs
  have hlt := lt_of_node? h.here.1
  constructor
  · rintro (_ | _ | _ | ⟨hk, hx⟩)
    · exact ⟨fun e => by rw [← e] at hlt; omega, e0, rfl⟩
    · exact ⟨fun e => by rw [← e] at hlt; omega, e1, rfl⟩
    · exact ⟨fun e => by rw [← e] at hlt; omega, e2, rfl⟩
    · exact ⟨hk, node?_allocate_kept hx.1, hx.2⟩
  · rintro ⟨hk, hx, hl⟩
    rcases h.allocate_cases hs hx with hx | ⟨rfl, rfl⟩ | ⟨rfl, rfl⟩ | ⟨rfl, rfl⟩
    · exact .kept hk ⟨hx, hl⟩
    · exact .nyt
    · exact .leaf
    · exact .internal

/-- The live nodes of the graft's tree. -/
theorem OldNyt.liveAt_graft (h : OldNyt cfg t old) (hs : t.symEntry sym = NONE)
    (hg : graft sym t = some g) {k : Handle} {y : Node} (hy : LiveAt g k y) :
    ∃ x, Grafted t sym old k x ∧ y.number = x.number ∧ y.parent = x.parent ∧ y.count = x.count := by
  obtain ⟨x, hx, he⟩ := h.graft_allocated hg hy.1
  have hk : k ≠ t.nyt := fun e => by
    have hl := hy.2
    rw [he.retired e] at hl
    cases hl
  have hb := he.body hk
  exact ⟨x, (h.grafted hs).2 ⟨hk, hx, hb.live ▸ hy.2⟩, he.number, he.parent, hb.count⟩

theorem Grafted.liveAt (h : OldNyt cfg t old) (hs : t.symEntry sym = NONE)
    (hg : graft sym t = some g) {k : Handle} {x : Node} (hx : Grafted t sym old k x) :
    ∃ y, LiveAt g k y ∧ y.number = x.number ∧ y.parent = x.parent ∧ y.count = x.count := by
  obtain ⟨hk, hx, hl⟩ := (h.grafted hs).1 hx
  obtain ⟨y, hy, he⟩ := h.graft_entry hg hx
  have hb := he.body hk
  exact ⟨y, ⟨hy, hb.live.trans hl⟩, he.number, he.parent, hb.count⟩

/-- NUMMAP after step S8 (R131). -/
theorem OldNyt.graft_numEntry (h : OldNyt cfg t old) (hs : t.symEntry sym = NONE)
    (hg : graft sym t = some g) (k : Nat) : g.numEntry k =
      if (newNyt t).number.toNat = k then t.nextHandle
      else if (newLeaf t sym).number.toNat = k then t.nextHandle + 1
      else if old.number.toNat = k then t.nextHandle + 2 else t.numEntry k := by
  obtain ⟨h0, hle, h1, h2⟩ := h.room hs
  have ne_none : ∀ {a : Handle}, a.toNat < 1023 → a ≠ NONE := by
    rintro a ha rfl
    exact absurd ha (by decide)
  obtain ⟨old', t2, ho', hsp, rfl⟩ := graft_eq_some.1 hg
  obtain rfl : old' = old := node?_unique ho' h.here.1
  obtain ⟨-, -, -, hnum, -⟩ := splice_frame hsp
  have hkept : t2.numEntry k = t.numEntry k := by rw [CodeTree.numEntry, hnum]; rfl
  change CodeTree.numEntry (((((retireNyt t2 t.nyt t.nextHandle).setSym sym _).setNum old'.number _).setNum
    (newLeaf t sym).number _).setNum (newNyt t).number _) k = _
  rw [numEntry_setNum _ _ _ _ (ne_none (by omega)), numEntry_setNum _ _ _ _ (ne_none (by omega)),
    numEntry_setNum _ _ _ _ (ne_none (by omega))]
  exact hkept ▸ rfl

/-- The numbers and counts of the live nodes: the new ones are the NYT of count 0, the leaf and the internal
node of count 1 in rising order, below all others, which have been counted (R131, R160). -/
theorem Grafted.number_count (h : OldNyt cfg t old) (hs : t.symEntry sym = NONE) {k : Handle} {x : Node}
    (hx : Grafted t sym old k x) :
    (k = t.nextHandle ∧ x.number.toNat + 2 = old.number.toNat ∧ x.count = 0) ∨
    (k = t.nextHandle + 1 ∧ x.number.toNat + 1 = old.number.toNat ∧ x.count = 1) ∨
    (k = t.nextHandle + 2 ∧ x.number.toNat = old.number.toNat ∧ x.count = 1) ∨
    (k ≠ t.nyt ∧ LiveAt t k x ∧ old.number.toNat < x.number.toNat ∧ 1 ≤ x.count) := by
  obtain ⟨hleaf, hnyt⟩ := h.numbers hs
  rcases hx with _ | _ | _ | ⟨hk, hx⟩
  · exact .inl ⟨rfl, hnyt, rfl⟩
  · exact .inr (.inl ⟨rfl, hleaf, rfl⟩)
  · exact .inr (.inr (.inl ⟨rfl, rfl, rfl⟩))
  · exact .inr (.inr (.inr ⟨hk, hx, h.below hk hx⟩))

theorem Grafted.named (h : OldNyt cfg t old) (hs : t.symEntry sym = NONE) (hg : graft sym t = some g)
    {k : Handle} {x : Node} (hx : Grafted t sym old k x) :
    g.numEntry x.number.toNat = k ∧ x.number.toNat ≤ cfg.maxNumber := by
  obtain ⟨hleaf, hnyt⟩ := h.numbers hs
  have hnum := h.number
  rw [h.graft_numEntry hs hg]
  rcases hx.number_count h hs with ⟨rfl, hn, -⟩ | ⟨rfl, hn, -⟩ | ⟨rfl, hn, -⟩ | ⟨-, hx, hn, -⟩
  · exact ⟨if_pos (by omega), by omega⟩
  · exact ⟨by rw [if_neg (by omega), if_pos (by omega)], by omega⟩
  · exact ⟨by rw [if_neg (by omega), if_neg (by omega), if_pos hn.symm], by omega⟩
  · rw [if_neg (by omega), if_neg (by omega), if_neg (by omega)]
    exact ⟨(treeWf_named h.wf hx).1, (treeWf_named h.wf hx).2.1⟩

theorem OldNyt.graft_numbered (h : OldNyt cfg t old) (hs : t.symEntry sym = NONE)
    (hg : graft sym t = some g) {k : Nat} (hk : g.numEntry k ≠ NONE) :
    ∃ x, Grafted t sym old (g.numEntry k) x ∧ x.number.toNat = k := by
  rw [h.graft_numEntry hs hg] at hk ⊢
  split_ifs at hk ⊢ with h1 h2 h3
  · exact ⟨_, .nyt, h1⟩
  · exact ⟨_, .leaf, h2⟩
  · exact ⟨_, .internal, h3⟩
  · obtain ⟨x, hx, hxk⟩ := treeWf_numbered h.wf hk
    refine ⟨x, .kept (fun e => h3 ?_) hx, hxk⟩
    rw [e] at hx
    rw [← hxk, hx.unique h.here]

/-- A parent in the graft's tree is numbered above its child and counts more, but for the new leaf, which has
the count of the new internal node above it (R131). -/
theorem Grafted.parent (h : OldNyt cfg t old) (hs : t.symEntry sym = NONE) {k : Handle} {x : Node}
    (hx : Grafted t sym old k x) (hp : x.parent ≠ NONE) : ∃ p, Grafted t sym old x.parent p ∧
      x.number.toNat < p.number.toNat ∧ x.count ≤ p.count ∧
      (x.count = p.count → x.parent = t.nextHandle + 2) := by
  obtain ⟨hleaf, hnyt⟩ := h.numbers hs
  rcases hx with _ | _ | _ | ⟨hk, hx⟩
  · exact ⟨_, .internal, show _ < old.number.toNat by omega, Nat.zero_le _, fun _ => rfl⟩
  · exact ⟨_, .internal, show _ < old.number.toNat by omega, le_rfl, fun _ => rfl⟩
  · obtain ⟨p, hpl, hnum, -⟩ := treeWf_parent h.wf h.here hp
    have h2 := h.two_le_parent hpl
    exact ⟨p, .kept (show old.parent ≠ t.nyt from h.not_parent h.here) hpl, hnum, show 1 ≤ _ by omega,
      fun e => absurd (show 1 = _ from e) (by omega)⟩
  · obtain ⟨p, hpl, hnum, hcnt⟩ := treeWf_parent h.wf hx hp
    exact ⟨p, .kept (h.not_parent hx) hpl, hnum, hcnt.le, fun e => absurd e hcnt.ne⟩

/-- A live node no lower than the new leaf has been counted. -/
theorem Grafted.one_le_count (h : OldNyt cfg t old) (hs : t.symEntry sym = NONE) {k : Handle} {x : Node}
    (hx : Grafted t sym old k x) (hlt : old.number.toNat < x.number.toNat + 2) : 1 ≤ x.count := by
  rcases hx.number_count h hs with ⟨-, hn, -⟩ | ⟨-, -, hc⟩ | ⟨-, -, hc⟩ | ⟨-, -, -, hc⟩ <;> omega

/-- A live node above the new internal node was live before. -/
theorem Grafted.liveAt_of_above (h : OldNyt cfg t old) (hs : t.symEntry sym = NONE) {k : Handle} {x : Node}
    (hx : Grafted t sym old k x) (hlt : old.number.toNat < x.number.toNat) : LiveAt t k x := by
  rcases hx.number_count h hs with ⟨-, hn, -⟩ | ⟨-, hn, -⟩ | ⟨-, hn, -⟩ | ⟨-, hx, -⟩
  · omega
  · omega
  · omega
  · exact hx

/-- The sibling property after the graft (R163). -/
theorem Grafted.order (h : OldNyt cfg t old) (hs : t.symEntry sym = NONE) {k k' : Handle} {x y : Node}
    (hx : Grafted t sym old k x) (hy : Grafted t sym old k' y) (hlt : x.number.toNat < y.number.toNat) :
    x.count ≤ y.count := by
  rcases hx.number_count h hs with ⟨-, -, hc⟩ | ⟨-, hn, hc⟩ | ⟨-, hn, hc⟩ | ⟨-, hx, hn, -⟩
  · exact hc ▸ Nat.zero_le _
  · exact hc ▸ hy.one_le_count h hs (by omega)
  · exact hc ▸ hy.one_le_count h hs (by omega)
  · exact treeWf_order h.wf hx (hy.liveAt_of_above h hs (hn.trans hlt)) hlt

/-- The graft's tree climbs from the new internal node (R131 step S10). -/
theorem OldNyt.climb_graft (h : OldNyt cfg t old) (hs : t.symEntry sym = NONE)
    (hg : graft sym t = some g) : Climb cfg (t.nextHandle + 2) g where
  none_absent := by
    obtain ⟨-, -, -, -, hlen⟩ := graft_frame hg
    obtain ⟨-, hle, -⟩ := h.room hs
    exact List.getElem?_eq_none (show g.arena.length ≤ 1023 by omega)
  named hy := by
    obtain ⟨x, hx, hn, -, -⟩ := h.liveAt_graft hs hg hy
    exact hn ▸ hx.named h hs hg
  numbered hk := by
    obtain ⟨x, hx, hxk⟩ := h.graft_numbered hs hg hk
    obtain ⟨y, hy, hn, -, -⟩ := hx.liveAt h hs hg
    exact ⟨y, hy, hn ▸ hxk⟩
  parent hy hp := by
    obtain ⟨x, hx, hn, hpar, hc⟩ := h.liveAt_graft hs hg hy
    obtain ⟨p, hpl, hnum, hcnt⟩ := hx.parent h hs (hpar ▸ hp)
    obtain ⟨q, hq, hqn, -, hqc⟩ := hpl.liveAt h hs hg
    rw [hn, hpar, hc]
    exact ⟨q, hq, hqn ▸ hnum, hqc ▸ hcnt⟩
  order hy hy' hlt := by
    obtain ⟨x, hx, hn, -, hc⟩ := h.liveAt_graft hs hg hy
    obtain ⟨x', hx', hn', -, hc'⟩ := h.liveAt_graft hs hg hy'
    rw [hc, hc']
    exact hx.order h hs hx' (hn ▸ hn' ▸ hlt)
  counted _ := by
    obtain ⟨y, hy, -, -, hc⟩ := (Grafted.internal (sym := sym)).liveAt h hs hg
    exact ⟨y, hy, hc.ge⟩

end Graft

end Sys2Proof.Machine
end

section
/-! What ENC and DEC leave of every arena entry and of SYMMAP (10_state.md R22, R26, 41_insert_update.md R134,
R145). -/

namespace Sys2Proof.Machine

/-- What a coded symbol leaves of an entry `x` of the tree `t` when it has turned it to `y`. -/
structure KeepsIdentity (t : CodeTree) (h : Handle) (x y : Node) : Prop where
  symv : y.symv = x.symv
  sym : y.sym = x.sym
  historical : x.live = false → y = x
  nyt : h = t.nyt → y = x ∨ y = { x with live := false, isNyt := false }
  other : h ≠ t.nyt → y.live = x.live ∧ y.isNyt = x.isNyt
  count : y.count = x.count ∨ y.count = x.count + 1

/-- What a coded symbol leaves of the tree. -/
structure KeepsTree (t t' : CodeTree) : Prop where
  entries : ∀ h x, t.node? h = some x → ∃ y, t'.node? h = some y ∧ KeepsIdentity t h x y
  symbols : ∀ sym, t.symEntry sym ≠ NONE → t'.symEntry sym = t.symEntry sym

theorem KeepsTree.refl (t : CodeTree) : KeepsTree t t :=
  ⟨fun _ x hx => ⟨x, hx, rfl, rfl, fun _ => rfl, fun _ => .inl rfl, fun _ => ⟨rfl, rfl⟩, .inl rfl⟩,
    fun _ _ => rfl⟩

section Coding
variable {cfg : Config} {t t' : CodeTree}

/-- UPDATE from a live node that has been counted: the NYT, never counted, is untouched. -/
theorem update_keepsTree {cur : Handle} {nd : Node} (hw : treeWf cfg t = true) (hn : LiveAt t cur nd)
    (h1 : 1 ≤ nd.count) (hu : update cfg cur t = some t') : KeepsTree t t' where
  entries h x hx := by
    obtain ⟨y, hy, hp⟩ := update_progress hu ((climb_of_treeWf hw).start hn h1) h x hx
    refine ⟨y, hy, hp.symv, hp.sym, fun hd => hp.untouched (.inl hd), fun e => .inl ?_,
      fun _ => ⟨hp.live, hp.isNyt⟩, hp.count.imp id And.left⟩
    subst e
    exact hp.untouched (.inr (treeWf_oldNyt hw hx).count)
  symbols sym _ := by rw [CodeTree.symEntry, (update_frame hu).symMap]; rfl

/-- INSERT: the old NYT turns historical, and UPDATE then leaves it alone. -/
theorem insert_keepsTree {sym : Symbol} {leaf : Handle} (hw : treeWf cfg t = true)
    (hs : t.symEntry sym = NONE) (hi : insert cfg sym t = some (t', leaf)) : KeepsTree t t' where
  entries h x hx := by
    obtain ⟨-, g, hg, hu⟩ := insert_eq_some.1 hi
    obtain ⟨old, ho, -⟩ := treeWf_nyt hw
    have hold := treeWf_oldNyt hw ho
    obtain ⟨z, hz, he⟩ := hold.graft_entry hg (node?_allocate_kept hx)
    obtain ⟨y, hy, hp⟩ := update_progress hu (hold.climb_graft hs hg) h z hz
    refine ⟨y, hy, ?_⟩
    by_cases hh : h = t.nyt
    · obtain rfl : old = x := Option.some.inj (ho.symm.trans (hh ▸ hx))
      have hzx := he.retired hh
      have hyz := hp.untouched (.inl (by rw [hzx]))
      rw [hyz, hzx]
      exact ⟨rfl, rfl, fun hd => absurd (hold.here.2.symm.trans hd) (by simp), fun _ => .inr rfl,
        fun hne => absurd hh hne, .inl rfl⟩
    · have hb := he.body hh
      refine ⟨hp.symv.trans hb.symv, hp.sym.trans hb.sym, fun hd => ?_, fun e => absurd e hh,
        fun _ => ⟨hp.live.trans hb.live, hp.isNyt.trans hb.isNyt⟩,
        hb.count ▸ hp.count.imp id And.left⟩
      have hne : h ≠ old.parent := by
        rintro rfl
        obtain ⟨p, hpl, -⟩ := treeWf_parent hw hold.here (treeWf_ne_none hw hx)
        exact absurd ((node?_unique hpl.1 hx ▸ hpl.2).symm.trans hd) (by simp)
      have hzx := he.untouched hh hne
      exact (hp.untouched (.inl (hzx ▸ hd))).trans hzx
  symbols sym' hs' := by
    obtain ⟨-, -, -, hmap, -⟩ := insert_frame hi
    rw [CodeTree.symEntry, hmap]
    exact read_write_other _ _ _ _ fun e => hs' (BitVec.eq_of_toNat_eq e ▸ hs)

theorem codeSymbol_keepsTree {sym : Symbol} {leaf : Handle} (hw : treeWf cfg t = true)
    (h : codeSymbol cfg sym t = some (t', leaf)) : KeepsTree t t' := by
  unfold codeSymbol at h
  split_ifs at h with hs
  · exact insert_keepsTree hw hs h
  · simp only [bind, Option.bind_eq_some_iff, Option.some.injEq, Prod.mk.injEq] at h
    obtain ⟨t'', hu, rfl, -⟩ := h
    obtain ⟨nd, hn, h1⟩ := treeWf_symbol_leaf hw hs
    exact update_keepsTree hw hn h1 hu

end Coding

theorem execEnc_keepsTree {sym : Symbol} {s t : State} (h : execEnc sym s = .next t) :
    KeepsTree s.tree t.tree := by
  rcases execEnc_cases h with ⟨-, rfl⟩ | ⟨-, -, -, rfl⟩ | ⟨-, hw, -, out, t', leaf, -, hc, rfl⟩
  · exact .refl _
  · rw [raise_tree]; exact .refl _
  · exact codeSymbol_keepsTree hw hc

theorem execDec_keepsTree {s t : State} (h : execDec s = .next t) : KeepsTree s.tree t.tree := by
  rcases execDec_cases h with ⟨-, rfl⟩ | ⟨-, -, -, rfl⟩ | ⟨-, hw, -, ⟨n, -, rfl⟩ |
    ⟨cur, nd, fifo, n, hwalk, ⟨-, -, rfl⟩ | ⟨-, -, -, rfl⟩ | ⟨-, -, hs, t', leaf, hi, rfl⟩ |
      ⟨hnyt, t', hu, rfl⟩⟩⟩
  · exact .refl _
  · rw [raise_tree]; exact .refl _
  · rw [raise_tree]; exact .refl _
  · rw [raise_tree]; exact .refl _
  · rw [raise_tree]; exact .refl _
  · exact insert_keepsTree hw hs hi
  · have hn := decWalk_leaf_live hw (treeWf_root_live hw) hwalk
    exact update_keepsTree hw hn (treeWf_one_le_count hw hn hnyt) hu

/-- Settles O24: a command that changes the tree codes one symbol, by INSERT or by UPDATE of a leaf, and the
climb of UPDATE passes each node once. -/
theorem codingKeepsEveryNodesIdentity : Obligations.CodingKeepsEveryNodesIdentity := by
  intro i s t hi h
  have hk : KeepsTree s.tree t.tree := by
    rcases hi with rfl | ⟨sym, rfl⟩
    · exact execDec_keepsTree h
    · exact execEnc_keepsTree h
  refine ⟨fun k x hx => ?_, hk.symbols⟩
  obtain ⟨y, hy, he⟩ := hk.entries k x hx
  exact ⟨y, hy, he.symv, he.sym, he.historical, he.nyt, he.other, he.count⟩

end Sys2Proof.Machine
end

section
/-! The transaction port: no command reads the words to come, the last response or the list of coded symbols
(20_memory.md R57, R59, 43_host_interface.md R189; log entries 2, 3 and 13). -/

namespace Sys2Proof.Machine

/-- The same engine behind another port: other words to come, last response and list of coded symbols. -/
def State.withPort (s : State) (ws : List Word) (r : Option Response) (cs : List Symbol) : State :=
  { s with cmds := ws, resp := r, coded := cs }

section WithPort
variable (s : State) (ws : List Word) (r : Option Response) (cs : List Symbol)
@[simp] theorem withPort_cfg : (s.withPort ws r cs).cfg = s.cfg := rfl
@[simp] theorem withPort_tree : (s.withPort ws r cs).tree = s.tree := rfl
@[simp] theorem withPort_fault : (s.withPort ws r cs).fault = s.fault := rfl
@[simp] theorem withPort_inFifo : (s.withPort ws r cs).inFifo = s.inFifo := rfl

theorem withPort_self : s.withPort s.cmds s.resp s.coded = s := rfl

/-- A response goes to the same engine, and takes the place of whatever response stood there. -/
theorem respond_withPort (a : Response) :
    respond a (s.withPort ws r cs) = (respond a s).withPort ws (some a) cs := rfl

theorem reject_withPort : reject (s.withPort ws r cs) = (reject s).withPort ws (some .rejected) cs := rfl

theorem commitSymbol_withPort (sym : Symbol) (t : CodeTree) (leaf : Handle) :
    commitSymbol sym t leaf (s.withPort ws r cs) =
      (commitSymbol sym t leaf s).withPort ws r (cs ++ [sym]) := rfl

theorem raise_withPort (c : Fault) (n : Nat) :
    raise c n (s.withPort ws r cs) = (raise c n s).withPort ws (raise c n s).resp cs := by
  cases hf : s.fault
  case false => rw [raise_of_clean hf, raise_of_clean ((withPort_fault s ws r cs).trans hf)]; rfl
  case true => rw [raise_of_faulted hf, raise_of_faulted ((withPort_fault s ws r cs).trans hf)]; rfl

end WithPort

/-- The command `m` takes `s` to `t` without reading the port: behind any other port it answers the same, and
what it does to the list of coded symbols, `f`, is the same too. -/
def PortBlind (m : State → Host.Outcome State Fault Refusal) (s t : State) : Prop :=
  ∃ f : List Symbol → List Symbol, t.coded = f s.coded ∧
    ∀ ws r cs, m (s.withPort ws r cs) = .next (t.withPort ws t.resp (f cs))

section Blind
variable {s t : State}

theorem execReset_portBlind (h : execReset s = .next t) : PortBlind execReset s t := by
  cases h
  exact ⟨fun _ => [], rfl, fun _ _ _ => rfl⟩

theorem execEnc_portBlind {sym : Symbol} (h : execEnc sym s = .next t) : PortBlind (execEnc sym) s t := by
  rcases execEnc_cases h with ⟨hf, rfl⟩ | ⟨hf, hw, hs, rfl⟩ | ⟨hf, hw, hs, out, t', leaf, ho, hc, rfl⟩
  · exact ⟨id, rfl, fun ws r cs => by simp [execEnc, hf, reject_withPort]⟩
  · exact ⟨id, by simp, fun ws r cs => by simp [execEnc, hf, hw, hs, raise_withPort]⟩
  · exact ⟨(· ++ [sym]), rfl, fun ws r cs => by
      simp [execEnc, hf, hw, hs, ho, hc, commitSymbol_withPort, respond_withPort]⟩

/-- DEC past its three checks, on a FIFO that runs dry inside the path (R111). -/
theorem execDec_of_dry {n : Nat} (hf : s.fault = false) (hw : treeWf s.cfg s.tree = true)
    (hs : saturated s.cfg s.tree = false)
    (hwalk : decWalk s.tree (maxCodeLen + 1) s.tree.root s.inFifo 0 = .dry n) :
    execDec s = .next (raise .incompleteStream n { s with inFifo := [] }) := by
  simp [execDec, hf, hw, hs, hwalk]

/-- DEC past its three checks, at the leaf where its walk ends (R110). -/
theorem execDec_of_leaf {cur : Handle} {nd : Node} {fifo : Bits} {n : Nat} (hf : s.fault = false)
    (hw : treeWf s.cfg s.tree = true) (hs : saturated s.cfg s.tree = false)
    (hwalk : decWalk s.tree (maxCodeLen + 1) s.tree.root s.inFifo 0 = .leaf cur nd fifo n) :
    execDec s = if nd.isNyt then decEscape fifo n s else decLeaf cur nd.sym fifo n s := by
  simp [execDec, hf, hw, hs, hwalk]

theorem execDec_portBlind (h : execDec s = .next t) : PortBlind execDec s t := by
  rcases execDec_cases h with ⟨hf, rfl⟩ | ⟨hf, hw, hs, rfl⟩ | ⟨hf, hw, hs, ⟨n, hwalk, rfl⟩ |
    ⟨cur, nd, fifo, n, hwalk, hleaf⟩⟩
  · exact ⟨id, rfl, fun ws r cs => by simp [execDec, hf, reject_withPort]⟩
  · exact ⟨id, by simp, fun ws r cs => by simp [execDec, hf, hw, hs, raise_withPort]⟩
  · refine ⟨id, by simp, fun ws r cs => ?_⟩
    rw [execDec_of_dry (s := s.withPort ws r cs) hf hw hs hwalk]
    exact congrArg _ (raise_withPort { s with inFifo := [] } ws r cs _ _)
  have hat (ws r cs) := execDec_of_leaf (s := s.withPort ws r cs) hf hw hs hwalk
  rcases hleaf with ⟨hn, h8, rfl⟩ | ⟨hn, h8, hd, rfl⟩ | ⟨hn, h8, hd, t', leaf, hi, rfl⟩ | ⟨hn, t', hu, rfl⟩
  · refine ⟨id, by simp, fun ws r cs => ?_⟩
    rw [hat, if_pos hn, decEscape, if_pos h8]
    exact congrArg _ (raise_withPort { s with inFifo := fifo } ws r cs _ _)
  · refine ⟨id, by simp, fun ws r cs => ?_⟩
    rw [hat, if_pos hn, decEscape, if_neg (Nat.not_lt.2 h8), withPort_tree, if_pos hd]
    exact congrArg _ (raise_withPort { s with inFifo := fifo.drop 8 } ws r cs _ _)
  · refine ⟨(· ++ [valMsb8 (fifo.take 8)]), rfl, fun ws r cs => ?_⟩
    rw [hat, if_pos hn, decEscape, if_neg (Nat.not_lt.2 h8), withPort_tree, if_neg (not_not.2 hd),
      withPort_cfg, hi]
    rfl
  · refine ⟨(· ++ [nd.sym]), rfl, fun ws r cs => ?_⟩
    rw [hat, if_neg (by simp [hn]), decLeaf, withPort_cfg, withPort_tree, hu]
    rfl

theorem execPush_portBlind {n : Nat} {bits : BitVec 8} (h : execPush n bits s = .next t) :
    PortBlind (execPush n bits) s t := by
  rcases execPush_cases n bits s with ⟨hf, he⟩ | ⟨hf, ho, he⟩ | ⟨hf, ho, he⟩ <;> cases he.symm.trans h
  · exact ⟨id, rfl, fun ws r cs => by simp [execPush, hf, reject_withPort]⟩
  · exact ⟨id, by simp, fun ws r cs => by simp [execPush, hf, ho, raise_withPort]⟩
  · refine ⟨id, rfl, fun ws r cs => ?_⟩
    rw [execPush, if_neg (by simp [hf]), withPort_inFifo, withPort_cfg, if_neg (Nat.not_lt.2 ho)]
    rfl

theorem execRdnode_portBlind {k : Handle} (h : execRdnode k s = .next t) :
    PortBlind (execRdnode k) s t := by
  rcases execRdnode_cases h with ⟨hk, rfl⟩ | ⟨hk, nd, hn, rfl⟩
  · exact ⟨id, by simp, fun ws r cs => by simp [execRdnode, hk, raise_withPort]⟩
  · exact ⟨id, rfl, fun ws r cs => by simp [execRdnode, Nat.not_le.2 hk, hn, respond_withPort]⟩

theorem execCode_portBlind {k : Handle} (h : execCode k s = .next t) : PortBlind (execCode k) s t := by
  obtain ⟨hw, ⟨hl, rfl⟩ | ⟨hl, out, ho, rfl⟩⟩ := execCode_cases h
  · exact ⟨id, by simp, fun ws r cs => by simp [execCode, hw, hl, raise_withPort]⟩
  · exact ⟨id, rfl, fun ws r cs => by simp [execCode, hw, hl, ho, respond_withPort]⟩

theorem execRdnum_portBlind {k : Number} (h : execRdnum k s = .next t) : PortBlind (execRdnum k) s t := by
  unfold execRdnum at h
  split at h <;> cases h
  case isTrue hk => exact ⟨id, by simp, fun ws r cs => by simp [execRdnum, hk, raise_withPort]⟩
  case isFalse hk => exact ⟨id, rfl, fun ws r cs => by simp [execRdnum, hk, respond_withPort]⟩

/-- No command reads the port. -/
theorem exec_portBlind {i : Instr} (h : exec i s = .next t) : PortBlind (exec i) s t := by
  cases i with
  | reset => exact execReset_portBlind h
  | enc sym => exact execEnc_portBlind h
  | dec => exact execDec_portBlind h
  | push n bits => exact execPush_portBlind h
  | rdnode k => exact execRdnode_portBlind h
  | code k => exact execCode_portBlind h
  | rdnum k => exact execRdnum_portBlind h
  | rdroot | rdnyt | rdlast | rdsym _ | rdstat =>
    cases h
    exact ⟨id, rfl, fun _ _ _ => rfl⟩

/-- Only the response of a successful query is new (R189). -/
theorem query_success_eq_withPort {q : Instr} {r : Response} (hq : isQuery q = true)
    (h : exec q s = .next t) (hr : t.resp = some r) (hc : r.faultCode = none) :
    t = s.withPort s.cmds (some r) s.coded := by
  obtain ⟨r', rfl⟩ | ⟨c, rfl⟩ := exec_query_cases hq h
  · cases hr
    rfl
  · cases (raise_resp c 0 s).symm.trans hr
    cases hc

end Blind

/-- Settles O55: no command reads the port, so another port is another list of coded symbols and no more. -/
theorem laterWordsAndOldResponsesDoNotMatter : Obligations.LaterWordsAndOldResponsesDoNotMatter := by
  intro i s t ws r cs h
  obtain ⟨f, -, hblind⟩ := exec_portBlind h
  exact ⟨f cs, hblind ws r cs⟩

/-- Settles O56: a successful query leaves the engine behind a port that differs in the response alone, which
the next command does not read. -/
theorem successfulQueriesDoNotDisturbASession : Obligations.SuccessfulQueriesDoNotDisturbASession := by
  intro q i s s' t r hq hs' hr hc ht
  obtain ⟨f, hcoded, hblind⟩ := exec_portBlind ht
  obtain ⟨-, hcmds, -⟩ := onlyCodersAndResetChangeTheTree i s t ht
  rw [query_success_eq_withPort hq hs' hr hc, hblind, ← hcmds, ← hcoded, withPort_self]

end Sys2Proof.Machine
end

section
/-! The two round trips between words and commands: the fields of a word in each format, what the decoder
answers for each OP, and the words that it refuses (30_encoding.md R70 to R72, R78, R80, R89). -/

namespace Sys2Proof

open Machine

section Encoded
variable (op : BitVec 4)

theorem fieldOp_formatS (sym : Symbol) : fieldOp (op ++ 0#4 ++ sym) = op :=
  extractLsb'_append_skip (by decide) <| extractLsb'_append_skip (by decide) BitVec.extractLsb'_eq_self

theorem fieldOp_formatP (nm1 : BitVec 3) (bits : BitVec 8) : fieldOp (op ++ 0#1 ++ nm1 ++ bits) = op :=
  extractLsb'_append_skip (by decide) <| extractLsb'_append_skip (by decide) <|
    extractLsb'_append_skip (by decide) BitVec.extractLsb'_eq_self

theorem fieldOp_formatH (v : BitVec 10) : fieldOp (op ++ 0#2 ++ v) = op :=
  extractLsb'_append_skip (by decide) <| extractLsb'_append_skip (by decide) BitVec.extractLsb'_eq_self

theorem formatS_append (sym : Symbol) (mk : Symbol → Instr) :
    formatS (op ++ 0#4 ++ sym) mk = .command (mk sym) := by
  have hreserved : (op ++ 0#4 ++ sym).extractLsb' 8 4 = 0#4 :=
    extractLsb'_append_skip (by decide) (extractLsb'_append_low _ _)
  have hsym : fieldSym (op ++ 0#4 ++ sym) = sym := extractLsb'_append_low _ _
  rw [formatS, if_pos hreserved, hsym]

theorem formatP_append (nm1 : BitVec 3) (bits : BitVec 8) :
    formatP (op ++ 0#1 ++ nm1 ++ bits) = .command (.push (nm1.toNat + 1) bits) := by
  have hreserved : (op ++ 0#1 ++ nm1 ++ bits).extractLsb' 11 1 = 0#1 :=
    extractLsb'_append_skip (by decide) <| extractLsb'_append_skip (by decide) (extractLsb'_append_low _ _)
  have hnm1 : fieldNm1 (op ++ 0#1 ++ nm1 ++ bits) = nm1 :=
    extractLsb'_append_skip (by decide) (extractLsb'_append_low _ _)
  have hbits : fieldBits (op ++ 0#1 ++ nm1 ++ bits) = bits := extractLsb'_append_low _ _
  rw [formatP, if_pos hreserved, hnm1, hbits]

theorem formatH_append (v : BitVec 10) (mk : BitVec 10 → Instr) :
    formatH (op ++ 0#2 ++ v) mk ((op ++ 0#2 ++ v).extractLsb' 0 10) = .command (mk v) := by
  have hreserved : (op ++ 0#2 ++ v).extractLsb' 10 2 = 0#2 :=
    extractLsb'_append_skip (by decide) (extractLsb'_append_low _ _)
  have hoperand : (op ++ 0#2 ++ v).extractLsb' 0 10 = v := extractLsb'_append_low _ _
  rw [formatH, if_pos hreserved, hoperand]

end Encoded

/-- Settles O1: OP of the encoded word selects the command's row, whose reserved bits are 0 and whose operand
field is the operand; a PUSH gets `n` back from NM1 as `n` is 1..8. -/
theorem decodeOfEncodeIsTheCommand : Obligations.DecodeOfEncodeIsTheCommand := by
  intro i hi
  cases i with
  | reset | dec | rdroot | rdnyt | rdlast | rdstat => rfl
  | enc sym =>
    rw [decode, encode, fieldOp_formatS]
    exact formatS_append _ sym .enc
  | rdsym sym =>
    rw [decode, encode, fieldOp_formatS]
    exact formatS_append _ sym .rdsym
  | push n bits =>
    obtain ⟨h1, h8⟩ : 1 ≤ n ∧ n ≤ 8 := by simpa [Instr.wellFormed] using hi
    have hn : (BitVec.ofNat 3 (n - 1)).toNat + 1 = n := by rw [BitVec.toNat_ofNat]; omega
    rw [decode, encode, fieldOp_formatP]
    refine (formatP_append _ _ bits).trans ?_
    rw [hn]
  | rdnode h =>
    rw [decode, encode, fieldOp_formatH]
    exact formatH_append _ h .rdnode
  | code h =>
    rw [decode, encode, fieldOp_formatH]
    exact formatH_append _ h .code
  | rdnum k =>
    rw [decode, encode, fieldOp_formatH]
    exact formatH_append _ k .rdnum

section Legal
variable {w : Word}

theorem formatN_eq_command {i j : Instr} :
    formatN w i = .command j ↔ w.extractLsb' 0 12 = 0#12 ∧ i = j := by
  rw [formatN]; split <;> simp [*]

theorem formatS_eq_command {mk : Symbol → Instr} {j : Instr} :
    formatS w mk = .command j ↔ w.extractLsb' 8 4 = 0#4 ∧ mk (fieldSym w) = j := by
  rw [formatS]; split <;> simp [*]

theorem formatP_eq_command {j : Instr} :
    formatP w = .command j ↔
      w.extractLsb' 11 1 = 0#1 ∧ .push ((fieldNm1 w).toNat + 1) (fieldBits w) = j := by
  rw [formatP]; split <;> simp [*]

theorem formatH_eq_command {mk : BitVec 10 → Instr} {v : BitVec 10} {j : Instr} :
    formatH w mk v = .command j ↔ w.extractLsb' 10 2 = 0#2 ∧ mk v = j := by
  rw [formatH]; split <;> simp [*]

end Legal

/-- The OP that a value of it names. -/
theorem op_of_toNat {op : BitVec 4} {k : Nat} (h : op.toNat = k) : op = BitVec.ofNat 4 k := by
  rw [← h, BitVec.ofNat_toNat, BitVec.setWidth_eq]

/-- What the decoder answers for each OP (R71, R77, R78): the row's format at the row's command, whose word
has the same OP. -/
theorem decode_cases (w : Word) :
    (fieldOp w ∈ [0x0#4, 0xD#4, 0xE#4, 0xF#4] ∧ decode w = .illegal .opcode) ∨
    (fieldOp w ∈ [0x1#4, 0x3#4, 0x5#4, 0x6#4, 0x7#4, 0xC#4] ∧ ∃ i, decode w = formatN w i ∧
      i.wellFormed = true ∧ encode i = fieldOp w ++ 0#12) ∨
    (fieldOp w ∈ [0x2#4, 0x8#4] ∧ ∃ mk, decode w = formatS w mk ∧
      ∀ sym, (mk sym).wellFormed = true ∧ encode (mk sym) = fieldOp w ++ 0#4 ++ sym) ∨
    (fieldOp w ∈ [0x4#4] ∧ decode w = formatP w) ∨
    (fieldOp w ∈ [0x9#4, 0xA#4, 0xB#4] ∧ ∃ mk, decode w = formatH w mk (w.extractLsb' 0 10) ∧
      ∀ v, (mk v).wellFormed = true ∧ encode (mk v) = fieldOp w ++ 0#2 ++ v) := by
  unfold decode
  split
  case h_1 h | h_3 h | h_5 h | h_6 h | h_7 h | h_12 h =>
    rw [op_of_toNat h]
    exact .inr (.inl ⟨by decide, _, rfl, rfl, rfl⟩)
  case h_2 h | h_8 h =>
    rw [op_of_toNat h]
    exact .inr (.inr (.inl ⟨by decide, _, rfl, fun _ => ⟨rfl, rfl⟩⟩))
  case h_4 h => exact .inr (.inr (.inr (.inl ⟨List.mem_singleton.2 (op_of_toNat h), rfl⟩)))
  case h_9 h | h_10 h | h_11 h =>
    rw [op_of_toNat h]
    exact .inr (.inr (.inr (.inr ⟨by decide, _, rfl, fun _ => ⟨rfl, rfl⟩⟩)))
  case h_13 =>
    have hlt := (fieldOp w).isLt
    refine .inl ⟨?_, rfl⟩
    simp only [List.mem_cons, List.not_mem_nil, or_false, ← BitVec.toNat_inj, BitVec.toNat_ofNat]
    simp only [imp_false] at *
    omega

/-- A word is its high part before its low part. -/
theorem high_append_low {a b : Nat} (w : BitVec (a + b)) : w.extractLsb' b a ++ w.extractLsb' 0 b = w :=
  (BitVec.extractLsb'_append_extractLsb'_eq_extractLsb' (Nat.zero_add b).symm).trans
    BitVec.extractLsb'_eq_self

section Split
variable (w : Word)

theorem word_formatN : fieldOp w ++ w.extractLsb' 0 12 = w :=
  high_append_low (a := 4) (b := 12) w

theorem word_formatS : fieldOp w ++ w.extractLsb' 8 4 ++ fieldSym w = w := by
  have hhigh : fieldOp w ++ w.extractLsb' 8 4 = w.extractLsb' 8 8 :=
    BitVec.extractLsb'_append_extractLsb'_eq_extractLsb' rfl
  rw [hhigh]
  exact high_append_low (a := 8) (b := 8) w

theorem word_formatP_operands : w.extractLsb' 11 5 ++ fieldNm1 w ++ fieldBits w = w := by
  have hhigh : w.extractLsb' 11 5 ++ fieldNm1 w = w.extractLsb' 8 8 :=
    BitVec.extractLsb'_append_extractLsb'_eq_extractLsb' rfl
  rw [hhigh]
  exact high_append_low (a := 8) (b := 8) w

theorem word_formatP : fieldOp w ++ w.extractLsb' 11 1 ++ fieldNm1 w ++ fieldBits w = w := by
  have hhigh : fieldOp w ++ w.extractLsb' 11 1 = w.extractLsb' 11 5 :=
    BitVec.extractLsb'_append_extractLsb'_eq_extractLsb' rfl
  rw [hhigh, word_formatP_operands]

theorem word_formatH : fieldOp w ++ w.extractLsb' 10 2 ++ w.extractLsb' 0 10 = w := by
  have hhigh : fieldOp w ++ w.extractLsb' 10 2 = w.extractLsb' 10 6 :=
    BitVec.extractLsb'_append_extractLsb'_eq_extractLsb' rfl
  rw [hhigh]
  exact high_append_low (a := 6) (b := 10) w

end Split

/-- The PUSH that a value of NM1 stands for is well-formed, and its word holds that value. -/
theorem push_of_nm1 (nm1 : BitVec 3) (bits : BitVec 8) :
    (Instr.push (nm1.toNat + 1) bits).wellFormed = true ∧
      encode (.push (nm1.toNat + 1) bits) = 0x4#4 ++ 0#1 ++ nm1 ++ bits := by
  have hnm1 := nm1.isLt
  refine ⟨?_, ?_⟩
  · simp only [Instr.wellFormed, Bool.and_eq_true, decide_eq_true_eq]
    omega
  · rw [encode, Nat.add_sub_cancel, BitVec.ofNat_toNat, BitVec.setWidth_eq]

/-- Settles O2: the word is the concatenation of its fields, and the reserved ones of a legal word are 0. -/
theorem encodeOfDecodeIsTheWord : Obligations.EncodeOfDecodeIsTheWord := by
  intro w i h
  obtain ⟨-, hd⟩ | ⟨-, j, hd, hwf, he⟩ | ⟨-, mk, hd, he⟩ | ⟨hop, hd⟩ | ⟨-, mk, hd, he⟩ := decode_cases w <;>
    rw [hd] at h
  · cases h
  · obtain ⟨h0, rfl⟩ := formatN_eq_command.1 h
    exact ⟨hwf, by rw [he, ← h0, word_formatN]⟩
  · obtain ⟨h0, rfl⟩ := formatS_eq_command.1 h
    obtain ⟨hwf, he⟩ := he (fieldSym w)
    exact ⟨hwf, by rw [he, ← h0, word_formatS]⟩
  · obtain ⟨h0, rfl⟩ := formatP_eq_command.1 h
    obtain ⟨hwf, he⟩ := push_of_nm1 (fieldNm1 w) (fieldBits w)
    exact ⟨hwf, by rw [he, ← List.mem_singleton.1 hop, ← h0, word_formatP]⟩
  · obtain ⟨h0, rfl⟩ := formatH_eq_command.1 h
    obtain ⟨hwf, he⟩ := he (w.extractLsb' 0 10)
    exact ⟨hwf, by rw [he, ← h0, word_formatH]⟩

section Refused
variable {w : Word}

theorem formatN_illegal {i : Instr} :
    (∃ why, formatN w i = .illegal why) ↔ w.extractLsb' 0 12 ≠ 0#12 := by
  rw [formatN]; split <;> simp [*]

theorem formatS_illegal {mk : Symbol → Instr} :
    (∃ why, formatS w mk = .illegal why) ↔ w.extractLsb' 8 4 ≠ 0#4 := by
  rw [formatS]; split <;> simp [*]

theorem formatP_illegal : (∃ why, formatP w = .illegal why) ↔ w.getLsbD 11 = true := by
  have hbit : w.extractLsb' 11 1 = 0#1 ↔ w.getLsbD 11 = false := by
    rw [BitVec.eq_of_getLsbD_eq_iff]
    simp
  rw [formatP]; split <;> simp_all

theorem formatH_illegal {mk : BitVec 10 → Instr} {v : BitVec 10} :
    (∃ why, formatH w mk v = .illegal why) ↔ w.extractLsb' 10 2 ≠ 0#2 := by
  rw [formatH]; split <;> simp [*]

end Refused

/-- Settles O3: OP says which of the five alternatives can hold, and the format whether it does. -/
theorem illegalWordsAreTheReservedEncodings : Obligations.IllegalWordsAreTheReservedEncodings := by
  intro w
  obtain ⟨hop, hd⟩ | ⟨hop, i, hd, -⟩ | ⟨hop, mk, hd, -⟩ | ⟨hop, hd⟩ | ⟨hop, mk, hd, -⟩ := decode_cases w
  all_goals
    simp only [fieldOp, List.mem_cons, List.not_mem_nil, or_false] at hop
    rw [hd]
  · rcases hop with h | h | h | h <;> simp [h]
  · rcases hop with h | h | h | h | h | h <;> simp [h, formatN_illegal]
  · rcases hop with h | h <;> simp [h, formatS_illegal]
  · simp [hop, formatP_illegal]
  · rcases hop with h | h | h <;> simp [h, formatH_illegal]

end Sys2Proof
end

section
/-! The opcode map's rows as tests on a word: which words a row selects (30_encoding.md R77). -/

namespace Sys2Proof

open Laws

/-- What a test under a mask of the high bits says of them. -/
theorem high_of_and_mask {a b : Nat} {w : BitVec (a + b)} {high : BitVec a}
    (h : w &&& (BitVec.allOnes a ++ 0#b) = high ++ 0#b) : w.extractLsb' b a = high := by
  rw [← high_append_low w, append_and_high] at h
  exact (BitVec.append_left_inj _).1 h

section Selected
variable {w : Word} {op : BitVec 4}

theorem formatN_selected (h : w &&& 0xFFFF#16 = op ++ 0#12) : op ++ 0#12 = w :=
  h.symm.trans BitVec.and_allOnes

theorem formatS_selected (h : w &&& 0xFF00#16 = op ++ 0#4 ++ 0#8) : op ++ 0#4 ++ fieldSym w = w := by
  rw [← high_of_and_mask (a := 8) (b := 8) h]
  exact high_append_low (a := 8) (b := 8) w

theorem formatP_selected (h : w &&& 0xF800#16 = op ++ 0#1 ++ 0#11) :
    op ++ 0#1 ++ fieldNm1 w ++ fieldBits w = w := by
  rw [← high_of_and_mask (a := 5) (b := 11) h, word_formatP_operands]

theorem formatH_selected (h : w &&& 0xFC00#16 = op ++ 0#2 ++ 0#10) :
    op ++ 0#2 ++ w.extractLsb' 0 10 = w := by
  rw [← high_of_and_mask (a := 6) (b := 10) h]
  exact high_append_low (a := 6) (b := 10) w

end Selected

/-- A word that a command's row selects is the word of a command of that row. -/
theorem encode_of_selects {i : Instr} {w : Word} (h : (opcodeRow i).selects w = true) :
    ∃ j, opcodeRow j = opcodeRow i ∧ j.wellFormed = true ∧ encode j = w := by
  replace h : w &&& (opcodeRow i).mask = (opcodeRow i).pattern := of_decide_eq_true h
  cases i with
  | reset | dec | rdroot | rdnyt | rdlast | rdstat => exact ⟨_, rfl, rfl, formatN_selected h⟩
  | enc _ => exact ⟨.enc (fieldSym w), rfl, rfl, formatS_selected h⟩
  | rdsym _ => exact ⟨.rdsym (fieldSym w), rfl, rfl, formatS_selected h⟩
  | push _ _ =>
    obtain ⟨hwf, he⟩ := push_of_nm1 (fieldNm1 w) (fieldBits w)
    exact ⟨.push ((fieldNm1 w).toNat + 1) (fieldBits w), rfl, hwf, he.trans (formatP_selected h)⟩
  | rdnode _ => exact ⟨.rdnode (fieldHandle w), rfl, rfl, formatH_selected h⟩
  | code _ => exact ⟨.code (fieldHandle w), rfl, rfl, formatH_selected h⟩
  | rdnum _ => exact ⟨.rdnum (fieldNum w), rfl, rfl, formatH_selected h⟩

/-- A command's row selects its word (R77). -/
theorem selects_encode {i : Instr} (hi : i.wellFormed = true) : (opcodeRow i).selects (encode i) = true := by
  cases i with
  | reset => exact EncodesInItsRow.reset hi
  | enc sym => exact EncodesInItsRow.enc sym hi
  | dec => exact EncodesInItsRow.dec hi
  | push n bits => exact EncodesInItsRow.push n bits hi
  | rdroot => exact EncodesInItsRow.rdroot hi
  | rdnyt => exact EncodesInItsRow.rdnyt hi
  | rdlast => exact EncodesInItsRow.rdlast hi
  | rdsym sym => exact EncodesInItsRow.rdsym sym hi
  | rdnode h => exact EncodesInItsRow.rdnode h hi
  | code h => exact EncodesInItsRow.code h hi
  | rdnum k => exact EncodesInItsRow.rdnum k hi
  | rdstat => exact EncodesInItsRow.rdstat hi

theorem opcodeRow_mem_opcodeTable (i : Instr) : opcodeRow i ∈ opcodeTable := by
  cases i <;> simp [opcodeTable, opcodeRow]

theorem opcodeTable_nodup : opcodeTable.Nodup := by decide

/-- A row of the map selects exactly the words that decode to a command of that row. -/
theorem selects_iff_decode {r : OpcodeRow} (hr : r ∈ opcodeTable) (w : Word) :
    r.selects w = true ↔ ∃ i, decode w = .command i ∧ r = opcodeRow i := by
  constructor
  · intro h
    obtain ⟨i, -, rfl⟩ := List.mem_map.1 hr
    obtain ⟨j, hrow, hj, rfl⟩ := encode_of_selects h
    exact ⟨j, decodeOfEncodeIsTheCommand j hj, hrow.symm⟩
  · rintro ⟨i, hd, rfl⟩
    obtain ⟨hi, rfl⟩ := encodeOfDecodeIsTheWord w i hd
    exact selects_encode hi

/-- Settles O4: a row selects what decodes to its own commands, so the rows that select a word are those equal
to the row of the word's command, and the map lists each row once. -/
theorem eachWordIsSelectedByItsOwnRowAlone : Obligations.EachWordIsSelectedByItsOwnRowAlone := by
  refine fun w => ⟨fun i hd => ?_, fun why hd => ?_⟩
  · have hrows : opcodeTable.filter (·.selects w) = opcodeTable.filter (fun r => decide (r = opcodeRow i)) :=
      List.filter_congr fun r hr => by
        rw [Bool.eq_iff_iff, selects_iff_decode hr w, decide_eq_true_iff]
        simp [hd]
    rw [hrows, List.filter_eq, List.count_eq_one_of_mem opcodeTable_nodup (opcodeRow_mem_opcodeTable i)]
    rfl
  · refine List.filter_eq_nil_iff.2 fun r hr h => ?_
    obtain ⟨i, hi, -⟩ := (selects_iff_decode hr w).1 h
    rw [hd] at hi
    cases hi

/-- Settles O6: the thirteen legal words are those the encoder gives their commands; for the illegal ones the
decoder is run. -/
theorem wordsDecodeAsTheSpecWritesThem : Obligations.WordsDecodeAsTheSpecWritesThem :=
  have ofEncode := decodeOfEncodeIsTheCommand
  ⟨ofEncode .reset rfl, ofEncode (.enc 0x41) rfl, ofEncode .dec rfl, ofEncode (.push 7 0x36) rfl,
    ofEncode (.push 1 0x80) rfl, ofEncode .rdroot rfl, ofEncode .rdnyt rfl, ofEncode .rdlast rfl,
    ofEncode (.rdsym 0x4C) rfl, ofEncode (.rdnode 1023) rfl, ofEncode (.code 13) rfl,
    ofEncode (.rdnum 511) rfl, ofEncode .rdstat rfl, rfl, rfl, rfl, rfl, rfl⟩

end Sys2Proof
end

section
/-! The number of legal words (30_encoding.md R77). -/

namespace Sys2Proof

/-- How many legal words an OP has: one per value of the bits below the reserved ones (R71, R78). -/
def operandWords : Nat → Nat
  | 0x1 | 0x3 | 0x5 | 0x6 | 0x7 | 0xC => 1
  | 0x2 | 0x8 => 2 ^ 8
  | 0x4 => 2 ^ 11
  | 0x9 | 0xA | 0xB => 2 ^ 10
  | _ => 0

theorem operandWords_le (op : Nat) : operandWords op ≤ 4096 := by
  unfold operandWords; split <;> decide

theorem fieldOp_toNat (w : Word) : (fieldOp w).toNat = w.toNat / 4096 := by
  have := w.isLt
  rw [fieldOp, BitVec.extractLsb'_toNat, Nat.shiftRight_eq_div_pow]
  omega

/-- Reserved bits down from bit 11 are 0 when the bits below OP are a number below them. -/
theorem reserved_eq_zero_iff (w : Word) {k n : Nat} (hk : n + k = 12) :
    w.extractLsb' k n = 0#n ↔ w.toNat % 4096 < 2 ^ k := by
  rw [← BitVec.toNat_inj, BitVec.extractLsb'_toNat, BitVec.toNat_ofNat, Nat.zero_mod, Nat.shiftRight_eq_div_pow,
    ← Nat.mod_mul_right_div_self, ← Nat.pow_add, Nat.add_comm, hk,
    Nat.div_eq_zero_iff_lt (Nat.two_pow_pos k)]

/-- The legal words of an OP are the first ones. -/
theorem exists_command_iff (w : Word) :
    (∃ i, decode w = .command i) ↔ w.toNat % 4096 < operandWords (w.toNat / 4096) := by
  rw [← fieldOp_toNat]
  obtain ⟨hop, hd⟩ | ⟨hop, i, hd, -⟩ | ⟨hop, mk, hd, -⟩ | ⟨hop, hd⟩ | ⟨hop, mk, hd, -⟩ := decode_cases w
  all_goals
    simp only [List.mem_cons, List.not_mem_nil, or_false] at hop
    rw [hd]
  · rcases hop with h | h | h | h <;> simp [h, operandWords]
  · have hlt := reserved_eq_zero_iff w (k := 0) (n := 12) rfl
    rcases hop with h | h | h | h | h | h <;> simpa [h, operandWords, formatN_eq_command] using hlt
  · have hlt := reserved_eq_zero_iff w (k := 8) (n := 4) rfl
    rcases hop with h | h <;> simpa [h, operandWords, formatS_eq_command] using hlt
  · have hlt := reserved_eq_zero_iff w (k := 11) (n := 1) rfl
    simpa [hop, operandWords, formatP_eq_command] using hlt
  · have hlt := reserved_eq_zero_iff w (k := 10) (n := 2) rfl
    rcases hop with h | h | h <;> simpa [h, operandWords, formatH_eq_command] using hlt

theorem isSome_decodeTableWord_iff {w : Nat} (hw : w < 65536) :
    (decodeTableWord 16 w).isSome = true ↔ w % 4096 < operandWords (w / 4096) := by
  have hword : (tableWord 16 w).toNat = w := by
    rw [tableWord, BitVec.toNat_ofNat]
    omega
  rw [← hword, ← exists_command_iff, hword, decodeTableWord]
  cases decode (tableWord 16 w) <;> simp

/-- Counting block by block the numbers that stand below a bound within their block. -/
theorem length_filter_range_blocks {f : Nat → Nat} {b : Nat} (hf : ∀ k, f k ≤ b) (hb : 0 < b) (n : Nat) :
    ((List.range (n * b)).filter fun w => w % b < f (w / b)).length = ((List.range n).map f).sum := by
  induction n with
  | zero => simp
  | succ n ih =>
    have hblock : (List.range b).filter ((fun w => decide (w % b < f (w / b))) ∘ (n * b + ·)) =
        List.range (f n) := by
      rw [← List.Ico.zero_bot, ← List.Ico.zero_bot, ← List.Ico.filter_lt_of_ge (hf n)]
      refine List.filter_congr fun r hr => ?_
      have hr : r < b := (List.Ico.mem.1 hr).2
      simp [Nat.mod_eq_of_lt hr, Nat.div_eq_of_lt hr, Nat.mul_add_div hb, Nat.mul_comm n b]
    rw [Nat.succ_mul, List.range_add, List.filter_append, List.length_append, ih, List.filter_map,
      List.length_map, hblock, List.length_range, List.sum_range_succ]

/-- Settles O5: each OP's legal words are counted by the bits that are not reserved. -/
theorem legalWordsNumber5638 : Obligations.LegalWordsNumber5638 := by
  have hlegal : (List.range 65536).filter (fun w => (decodeTableWord 16 w).isSome) =
      (List.range (16 * 4096)).filter fun w => w % 4096 < operandWords (w / 4096) :=
    List.filter_congr fun w hw => by
      rw [Bool.eq_iff_iff, isSome_decodeTableWord_iff (List.mem_range.1 hw), decide_eq_true_iff]
  rw [Obligations.LegalWordsNumber5638, hlegal, length_filter_range_blocks operandWords_le (by decide)]
  decide

end Sys2Proof
end

section
/-! Following a path-code from the root: it arrives at its node, so no leaf's code goes on to another leaf
(30_encoding.md R85, 42_code_path.md R170, R171). -/

namespace Sys2Proof.Machine

theorem follow_cons {t : CodeTree} {c : Handle} {nd : Node} (hn : t.node? c = some nd) (b : Bool) (bits : Bits) :
    follow t c (b :: bits) = follow t (if b then nd.right else nd.left) bits := by
  simp [follow, hn]

theorem follow_append (t : CodeTree) (c : Handle) (bits bits' : Bits) :
    follow t c (bits ++ bits') = (follow t c bits).bind (follow t · bits') := by
  induction bits generalizing c with
  | nil => rfl
  | cons b bits ih => simp [follow, ih, Option.bind_assoc]

section Codes
variable {cfg : Config} {t : CodeTree} (hw : treeWf cfg t = true)
include hw

/-- A live node is the root, which has no parent, or a child of its live parent (R168). -/
theorem treeWf_place {h : Handle} {nd : Node} (hn : LiveAt t h nd) :
    (h = t.root ∧ nd.parent = NONE) ∨ ∃ p, LiveAt t nd.parent p ∧ (p.left = h ∨ p.right = h) := by
  obtain ⟨-, -, -, ha, -⟩ := (treeWf_iff _ _).1 hw
  obtain ⟨-, hplace⟩ := (wfEntry_iff _ _ _ _ _).1 ((wfArena_iff _ _ _).1 ha _ _ hn.1)
  obtain ⟨-, hpl⟩ := (wfPlace_iff _ _ _ _).1 (hplace hn.2)
  split_ifs at hpl with hroot
  · exact .inl ⟨BitVec.eq_of_toNat_eq hroot, hpl.1⟩
  · obtain ⟨p, hp, hlive, hchild⟩ := hpl
    rw [BitVec.toNat_inj, BitVec.toNat_inj] at hchild
    exact .inr ⟨p, ⟨hp, hlive⟩, hchild⟩

/-- A live node without a left child has no right child (R162, R168). -/
theorem treeWf_leaf_right {h : Handle} {nd : Node} (hn : LiveAt t h nd) (hl : nd.left = NONE) :
    nd.right = NONE := by
  by_contra hr
  obtain ⟨-, -, -, -, hleft, -⟩ := (wfInternal_iff _ _ _).1 (treeWf_internal hw hn.1 (.inr hr))
  obtain ⟨l, hl', -⟩ := (wfChild_iff _ _ _ _).1 hleft
  exact treeWf_ne_none hw hl' hl

/-- The walk of CODE_PATH up from a live node is undone by following its bits down from the root (R170). -/
theorem follow_codePathFrom : ∀ {fuel : Nat} {c : Handle} {out bits : Bits} {nd : Node}, LiveAt t c nd →
    codePathFrom t fuel c out = some bits → follow t t.root bits = follow t c out := by
  intro fuel
  induction fuel with
  | zero => intro c out bits nd _ h; cases h
  | succ fuel ih =>
    intro c out bits nd hn h
    obtain ⟨nd', hn', h⟩ := codePathFrom_succ.1 h
    obtain rfl := node?_unique hn' hn.1
    obtain ⟨rfl, hroot⟩ | ⟨p, hp, hchild⟩ := treeWf_place hw hn
    · obtain ⟨-, rfl⟩ | ⟨hne, -⟩ := h
      · rfl
      · exact absurd hroot hne
    · obtain ⟨hnone, -⟩ | ⟨-, p', hp', h⟩ := h
      · exact absurd hnone (treeWf_ne_none hw hp.1)
      obtain rfl := node?_unique hp' hp.1
      rw [ih hp h, follow_cons hp.1]
      congr 1
      by_cases hleft : p'.left = c
      · simp [slotOf, hleft]
      · simp [slotOf, hleft, hchild.resolve_left hleft]

/-- A live node's path-code leads from the root to the node (R171 (c)). -/
theorem follow_codePath {x : Handle} {nd : Node} {bits : Bits} (hn : LiveAt t x nd)
    (h : codePath t x = some bits) : follow t t.root bits = some x :=
  follow_codePathFrom hw hn h

end Codes

/-- Settles O42: the longer code leads from the root through the first leaf, below which nothing lies. -/
theorem leafCodesArePrefixFree : Obligations.LeafCodesArePrefixFree := by
  intro cfg t x y nx ny bx bits hw hx hy hxl hyl hleaf _ hbx hby
  have hend : follow t x bits = some y := by
    have h := follow_codePath hw ⟨hy, hyl⟩ hby
    rwa [follow_append, follow_codePath hw ⟨hx, hxl⟩ hbx] at h
  cases bits with
  | nil => exact ⟨Option.some.inj hend, rfl⟩
  | cons b bits =>
    have hnone : follow t NONE bits = some y := by
      rw [follow_cons hx] at hend
      cases b <;> simpa [hleaf, treeWf_leaf_right hw ⟨hx, hxl⟩ hleaf] using hend
    cases bits with
    | nil =>
      obtain rfl := Option.some.inj hnone
      exact absurd rfl (treeWf_ne_none hw hy)
    | cons b bits => simp [follow, treeWf_none_absent hw] at hnone

end Sys2Proof.Machine
end

section
/-! PUSHS: each piece of the string is one PUSH, which a clean engine with room appends (30_encoding.md R89,
R90, 40_encode_decode.md R120). -/

namespace Sys2Proof.Machine

/-- `bits_msb8` is the inverse of `val_msb8` on 8 bits (R9). -/
theorem bitsMsb8_valMsb8 {l : Bits} (h : l.length = 8) : bitsMsb8 (valMsb8 l) = l := by
  match l, h with
  | [a, b, c, d, e, f, g, i], _ => revert a b c d e f g i; decide

theorem topBits_eq_take {n : Nat} (h : n ≤ 8) (v : BitVec 8) : topBits n v = (bitsMsb8 v).take n := by
  rw [bitsMsb8, topBits, topBits, ← List.map_take, List.take_range, Nat.min_eq_left h]

/-- PUSH of a piece has the piece for its bits (R89, R120). -/
theorem topBits_padded {piece : Bits} (h : piece.length ≤ 8) :
    topBits piece.length (valMsb8 (piece ++ List.replicate (8 - piece.length) false)) = piece := by
  rw [topBits_eq_take h, bitsMsb8_valMsb8 (by simp; omega), List.take_left]

/-- Issuing the word of a well-formed command is the command's meaning (R34, R251). -/
theorem issue_encode {s : State} {i : Instr} (hs : s.inv = true) (hi : i.wellFormed = true) :
    issue (encode i) s = exec i s :=
  stepRunsTheDeliveredCommand _ _ s.cmds i hs rfl (decodeOfEncodeIsTheCommand i hi)

/-- In a clean state the FIFO's capacity is all that the invariant asks of the FIFO (R32). -/
theorem inv_of_clean_inFifo {s : State} {fifo : Bits} (hs : s.inv = true) (hf : s.fault = false)
    (hfifo : fifo.length ≤ s.cfg.inDepth) : State.inv { s with inFifo := fifo } = true := by
  obtain ⟨-, hstatus, htree, hlast, -, hsession⟩ := (inv_iff s).1 hs
  have hcode : s.errCode = 0 := by simpa [wfStatus, hf] using hstatus
  exact (inv_iff _).2 ⟨hfifo, hstatus, htree, hlast, by simp [wfFirstFault, hcode], hsession⟩

/-- Issuing the PUSH of a piece to a clean engine with room appends the piece (R89, R120). -/
theorem issue_pushOf {s : State} {piece : Bits} (hs : s.inv = true) (hf : s.fault = false)
    (h1 : 1 ≤ piece.length) (h8 : piece.length ≤ 8) (hroom : s.inFifo.length + piece.length ≤ s.cfg.inDepth) :
    issue (encode (pushOf piece)) s = .next { s with inFifo := s.inFifo ++ piece, resp := some .ok } := by
  rw [issue_encode hs (by simp [pushOf, Instr.wellFormed, h1, h8])]
  obtain ⟨hfault, -⟩ | ⟨-, hover, -⟩ | ⟨-, -, he⟩ := execPush_cases piece.length
    (valMsb8 (piece ++ List.replicate (8 - piece.length) false)) s
  · rw [hf] at hfault; cases hfault
  · omega
  · exact he.trans (by rw [topBits_padded h8]; rfl)

/-- The pieces of a string, pushed in order, append the string. -/
theorem runWords_chunks8 : ∀ {fuel : Nat} {bits : Bits} {s : State}, bits.length ≤ fuel → s.inv = true →
    s.fault = false → s.inFifo.length + bits.length ≤ s.cfg.inDepth →
    runWords (((chunks8 fuel bits).map pushOf).map encode) s = .next { s with
      inFifo := s.inFifo ++ bits, resp := if bits = [] then s.resp else some .ok } := by
  intro fuel
  induction fuel with
  | zero =>
    intro bits s hlen _ _ _
    obtain rfl := List.eq_nil_of_length_eq_zero (Nat.le_zero.1 hlen)
    simp [chunks8, runWords]
  | succ fuel ih =>
    intro bits s hlen hs hf hroom
    by_cases hnil : bits = []
    · simp [chunks8, runWords, hnil]
    · have hpos := List.length_pos_of_ne_nil hnil
      have hdrop : (bits.drop 8).length = bits.length - 8 := List.length_drop
      have htake : (bits.take 8).length = min 8 bits.length := List.length_take
      have hissue := issue_pushOf (piece := bits.take 8) hs hf (by omega) (by omega) (by omega)
      have hinv : State.inv { s with inFifo := s.inFifo ++ bits.take 8, resp := some .ok } = true :=
        inv_of_clean_inFifo hs hf (by rw [List.length_append]; omega)
      have hrest : (s.inFifo ++ bits.take 8).length + (bits.drop 8).length ≤ s.cfg.inDepth := by
        rw [List.length_append]
        omega
      rw [chunks8, if_neg hnil]
      simp only [List.map_cons, runWords, hissue]
      rw [ih (by omega) hinv hf hrest]
      simp [hnil]

/-- Settles O57: there is fuel for all pieces. -/
theorem pushsAppendsTheWholeString : Obligations.PushsAppendsTheWholeString :=
  fun _ _ hs hf hroom => runWords_chunks8 le_rfl hs hf hroom

end Sys2Proof.Machine
end

section
/-! PUSH, which appends all its bits or none, and the check that ENC and DEC make of the root's count
(40_encode_decode.md R101, R120, R121, 60_exceptions.md R217). -/

namespace Sys2Proof.Machine

theorem topBits_getElem? {n j : Nat} (hj : j < n) (bits : BitVec 8) :
    (topBits n bits)[j]? = some (bits.getLsbD (7 - j)) := by
  simp [topBits, hj]

/-- Settles O30: a clean engine with room appends the top bits. -/
theorem pushAppendsTheTopBits : Obligations.PushAppendsTheTopBits := by
  intro s n bits hf _ _ hroom
  refine ⟨topBits n bits, topBits_length n bits, fun j hj => topBits_getElem? hj bits, ?_⟩
  obtain ⟨hfault, -⟩ | ⟨-, hover, -⟩ | ⟨-, -, he⟩ := execPush_cases n bits s
  · exact absurd (hf.symm.trans hfault) (by decide)
  · omega
  · exact he

/-- Settles O31: a clean engine without room raises IN_OVERFLOW. -/
theorem pushThatDoesNotFitAppendsNothing : Obligations.PushThatDoesNotFitAppendsNothing := by
  intro s n bits hf hover
  obtain ⟨hfault, -⟩ | ⟨-, -, he⟩ | ⟨-, hroom, -⟩ := execPush_cases n bits s
  · exact absurd (hf.symm.trans hfault) (by decide)
  · exact he.trans (congrArg _ (raise_of_clean hf _ _))
  · omega

theorem saturated_eq_decide {cfg : Config} {t : CodeTree} {r : Node} (hr : t.node? t.root = some r) :
    saturated cfg t = decide (r.count = cfg.countMax) := by
  simp [saturated, hr]

/-- Settles O17: the check of the root's count comes before any change. -/
theorem saturatedRootStopsEncAndDec : Obligations.SaturatedRootStopsEncAndDec := by
  intro s r hf hw hr hcount
  have hs : saturated s.cfg s.tree = true := by rw [saturated_eq_decide hr, hcount, decide_eq_true rfl]
  have hraise := congrArg (Host.Outcome.next (φ := Fault) (ρ := Refusal))
    (raise_of_clean hf .countSaturated 0)
  refine ⟨fun sym => Eq.trans ?_ hraise, Eq.trans ?_ hraise⟩
  · simp [exec, execEnc, hf, hw, hs]
  · simp [exec, execDec, hf, hw, hs]

end Sys2Proof.Machine
end

section
/-! How far a climb has to go. The parents of live nodes are the internal entries 3, 6, 9, ..., of which the arena
has at most 256, and each parent is numbered above its child: so CODE_PATH has at most NSYM bits, and UPDATE ends
within its bound (41_insert_update.md R131, R152, R165, 42_code_path.md R170). -/

namespace Sys2Proof.Machine

/-- What UPDATE keeps of the parent links, beside the climb: only the root, with the number MAX_NUMBER, has no
parent, and every parent is an entry that INSERT made as an internal node (R131 step S1, R161). -/
def Anchored (cfg : Config) (t : CodeTree) : Prop :=
  ∀ {h nd}, LiveAt t h nd → (nd.parent = NONE → nd.number.toNat = cfg.maxNumber) ∧
    (nd.parent ≠ NONE → nd.parent.toNat % 3 = 0 ∧ 0 < nd.parent.toNat)

/-- The live internal entries numbered above `k`. -/
def branchesAbove (t : CodeTree) (k : Nat) : Finset Handle :=
  Finset.univ.filter fun h => (h.toNat % 3 = 0 ∧ 0 < h.toNat) ∧
    (t.node? h).any fun nd => nd.live && decide (k < nd.number.toNat)

/-- A bound on the nodes of the path from `h` up to the root: `h` itself and the internal entries above it. -/
def climbLeft (t : CodeTree) (h : Handle) : Nat :=
  match t.node? h with
  | none => 0
  | some nd => (branchesAbove t nd.number.toNat).card + 1

section Height
variable {cfg : Config} {t t' : CodeTree}

theorem mem_branchesAbove {k : Nat} {h : Handle} : h ∈ branchesAbove t k ↔
    (h.toNat % 3 = 0 ∧ 0 < h.toNat) ∧ ∃ nd, LiveAt t h nd ∧ k < nd.number.toNat := by
  simp [branchesAbove, LiveAt, Option.any_eq_true, and_assoc]

theorem climbLeft_eq {h : Handle} {nd : Node} (hn : t.node? h = some nd) :
    climbLeft t h = (branchesAbove t nd.number.toNat).card + 1 := by
  simp [climbLeft, hn]

theorem climbLeft_absent {h : Handle} (hn : t.node? h = none) : climbLeft t h = 0 := by
  simp [climbLeft, hn]

/-- Every third entry of the arena is internal (R131 step S1). -/
theorem card_branchesAbove_le (t : CodeTree) (k : Nat) :
    (branchesAbove t k).card ≤ (t.arena.length - 1) / 3 := by
  have hmap : ∀ h ∈ branchesAbove t k, h.toNat / 3 ∈ Finset.Icc 1 ((t.arena.length - 1) / 3) := by
    intro h hh
    obtain ⟨hthird, nd, hn, -⟩ := mem_branchesAbove.1 hh
    have hlt := lt_of_node? hn.1
    rw [Finset.mem_Icc]
    omega
  have hinj : ∀ h ∈ branchesAbove t k, ∀ h' ∈ branchesAbove t k, h.toNat / 3 = h'.toNat / 3 → h = h' := by
    intro h hh h' hh' he
    obtain ⟨hthird, -⟩ := mem_branchesAbove.1 hh
    obtain ⟨hthird', -⟩ := mem_branchesAbove.1 hh'
    exact BitVec.eq_of_toNat_eq (by omega)
  simpa using Finset.card_le_card_of_injOn _ hmap hinj

theorem climbLeft_le (t : CodeTree) (h : Handle) : climbLeft t h ≤ (t.arena.length - 1) / 3 + 1 := by
  unfold climbLeft
  split
  · exact Nat.zero_le _
  · exact Nat.succ_le_succ (card_branchesAbove_le _ _)

/-- A parent has less to climb: it is internal, and above its child but not above itself. -/
theorem climbLeft_parent_lt {cur h : Handle} {nd : Node} (hc : Climb cfg cur t) (ha : Anchored cfg t)
    (hn : LiveAt t h nd) : climbLeft t nd.parent < climbLeft t h := by
  rw [climbLeft_eq hn.1]
  by_cases hp : nd.parent = NONE
  · rw [hp, climbLeft_absent hc.none_absent]
    exact Nat.succ_pos _
  obtain ⟨p, hpl, hnum, -⟩ := hc.parent hn hp
  rw [climbLeft_eq hpl.1]
  refine Nat.succ_lt_succ (Finset.card_lt_card (Finset.ssubset_iff_of_subset ?_ |>.2 ⟨nd.parent, ?_, ?_⟩))
  · intro k hk
    obtain ⟨hthird, x, hx, hlt⟩ := mem_branchesAbove.1 hk
    exact mem_branchesAbove.2 ⟨hthird, x, hx, hnum.trans hlt⟩
  · exact mem_branchesAbove.2 ⟨(ha hn).2 hp, p, hpl, hnum⟩
  · intro hk
    obtain ⟨-, x, hx, hlt⟩ := mem_branchesAbove.1 hk
    exact lt_irrefl _ (hx.unique hpl ▸ hlt)

/-- Live internal entries that were live before, and numbered no lower, leave no more to climb. -/
theorem climbLeft_mono {h : Handle} {x y : Node} (hx : t.node? h = some x) (hy : t'.node? h = some y)
    (hle : ∀ k z, LiveAt t' k z → y.number.toNat < z.number.toNat →
      ∃ w, LiveAt t k w ∧ x.number.toNat < w.number.toNat) : climbLeft t' h ≤ climbLeft t h := by
  rw [climbLeft_eq hx, climbLeft_eq hy]
  refine Nat.succ_le_succ (Finset.card_le_card fun k hk => ?_)
  obtain ⟨hthird, z, hz, hlt⟩ := mem_branchesAbove.1 hk
  exact mem_branchesAbove.2 ⟨hthird, hle k z hz hlt⟩

/-- After a swap `cur` stands where the candidate stood, and the nodes above that were above `cur` before. -/
theorem Swappable.climbLeft_le {cur c : Handle} {nd nc : Node} (h : Swappable t cur c nd nc)
    (hs : swap t cur c = some t') : climbLeft t' cur ≤ climbLeft t cur := by
  obtain ⟨y, hy, -, hyn⟩ := h.place_taken hs (k := cur) (z := nc)
    (by rw [Equiv.swap_apply_left]; exact h.cand)
  refine climbLeft_mono h.cur.1 hy.1 fun k z hz hlt => ?_
  rw [hyn] at hlt
  obtain ⟨w, hw, -, hwn, -⟩ := h.liveAt hs hz
  rw [hwn] at hlt
  have hk : Equiv.swap cur c k = k := by
    refine Equiv.swap_apply_of_ne_of_ne ?_ ?_
    · rintro rfl
      rw [Equiv.swap_apply_left] at hw
      rw [hw.unique h.cand] at hlt
      exact lt_irrefl _ hlt
    · rintro rfl
      rw [Equiv.swap_apply_right] at hw
      rw [hw.unique h.cur] at hlt
      exact lt_asymm hlt h.higher
  exact ⟨w, hk ▸ hw, h.higher.trans hlt⟩

/-- The increment moves no node. -/
theorem climbLeft_bumpCount {cur h : Handle} {nd : Node} (hn : LiveAt t h nd) :
    climbLeft (bumpCount t cur) h ≤ climbLeft t h := by
  obtain ⟨y, hy, hyn, -⟩ := hn.after_bumpCount (cur := cur)
  refine climbLeft_mono hn.1 hy.1 fun k z hz hlt => ?_
  obtain ⟨w, hw, hwn, -⟩ := liveAt_bumpCount hz
  exact ⟨w, hw, hyn ▸ hwn ▸ hlt⟩

/-! The rebalance, the increment and the walk always go through. -/

theorem Anchored.after_swap {cur c : Handle} {nd nc : Node} (ha : Anchored cfg t)
    (h : Swappable t cur c nd nc) (hs : swap t cur c = some t') : Anchored cfg t' := by
  intro k y hy
  obtain ⟨z, hz, -, hyn, hyp⟩ := h.liveAt hs hy
  rw [hyn, hyp]
  exact ha hz

theorem Anchored.after_bumpCount {cur : Handle} (ha : Anchored cfg t) : Anchored cfg (bumpCount t cur) := by
  intro k y hy
  obtain ⟨x, hx, hyn, hyp, -⟩ := liveAt_bumpCount hy
  rw [hyn, hyp]
  exact ha hx

/-- The scan meets live nodes alone, so it has an answer (R140). -/
theorem Climb.scanNumbers_isSome {cur : Handle} (hc : Climb cfg cur t) (w : Nat) :
    ∀ steps k, ∃ c, scanNumbers t w steps k = some c := by
  intro steps
  induction steps with
  | zero => exact fun _ => ⟨NONE, rfl⟩
  | succ steps ih =>
    intro k
    obtain ⟨c, hrest⟩ := ih (k - 1)
    by_cases hk : t.numEntry k = NONE
    · exact ⟨c, by simp [scanNumbers, hk, hrest]⟩
    obtain ⟨nd, hn, -⟩ := hc.numbered hk
    by_cases hw : nd.count = w
    · exact ⟨t.numEntry k, by simp [scanNumbers, hk, hn.1, hw]⟩
    · exact ⟨c, by simp [scanNumbers, hk, hn.1, hw, hrest]⟩

theorem Climb.findCandidate_isSome {cur h : Handle} {nd : Node} (hc : Climb cfg cur t)
    (hn : t.node? h = some nd) : ∃ c, findCandidate cfg t h = some c := by
  obtain ⟨c, hscan⟩ := hc.scanNumbers_isSome nd.count (cfg.maxNumber - nd.number.toNat) cfg.maxNumber
  exact ⟨c, findCandidate_eq_some.2 ⟨nd, hn, hscan⟩⟩

/-- A node below another in number is not the root, and so has a live parent. -/
theorem Climb.parent_of_lower {cur h k : Handle} {x y : Node} (hc : Climb cfg cur t) (ha : Anchored cfg t)
    (hx : LiveAt t h x) (hy : LiveAt t k y) (hlt : x.number.toNat < y.number.toNat) :
    ∃ p, LiveAt t x.parent p ∧ x.number.toNat < p.number.toNat ∧ x.count ≤ p.count ∧
      (x.count = p.count → x.parent = cur) := by
  refine hc.parent hx fun hp => ?_
  have htop := (ha hx).1 hp
  have hle := (hc.named hy).2
  omega

/-- The candidate is not the root either: the parent of `cur` counts more than `cur`, and so stands above the
candidate (R141, R163). -/
theorem Climb.below_parent {cur c : Handle} {nd nc p : Node} (hc : Climb cfg cur t)
    (h : Swappable t cur c nd nc) (hp : LiveAt t nd.parent p) (hnum : nd.number.toNat < p.number.toNat)
    (hcnt : nd.count ≤ p.count) (hlast : nd.count = p.count → nd.parent = cur) :
    nc.number.toNat < p.number.toNat := by
  have hmore : nc.count < p.count := by
    refine h.same_count ▸ lt_of_le_of_ne hcnt fun e => ?_
    have hself := hlast e
    rw [hself] at hp
    rw [hp.unique h.cur] at hnum
    exact lt_irrefl _ hnum
  rcases lt_trichotomy nc.number.toNat p.number.toNat with hlt | heq | hgt
  · exact hlt
  · exact absurd (hc.eq_of_number h.cand hp heq).symm h.not_parent
  · exact absurd (hc.order hp h.cand hgt) (by omega)

theorem Climb.swap_isSome {cur c : Handle} {nd nc : Node} (hc : Climb cfg cur t) (ha : Anchored cfg t)
    (h : Swappable t cur c nd nc) : ∃ t', swap t cur c = some t' := by
  obtain ⟨p, hp, hnum, hcnt, hlast⟩ := hc.parent_of_lower ha h.cur h.cand h.higher
  obtain ⟨q, hq, -⟩ := hc.parent_of_lower ha h.cand hp (hc.below_parent h hp hnum hcnt hlast)
  exact ⟨_, swap_eq_some.2 ⟨nd, nc, p, q, h.cur.1, h.cand.1, hp.1, hq.1, rfl⟩⟩

/-- The candidate that the walk finds at `cur` can be swapped with it: it is not the parent, which counts more
(R141, R166). -/
theorem Climb.swappable {cur c : Handle} {nd : Node} (hc : Climb cfg cur t) (hn : LiveAt t cur nd)
    (hf : findCandidate cfg t cur = some c) (hne : c ≠ NONE) : ∃ nc, Swappable t cur c nd nc := by
  rcases findCandidate_cases hc hn hf with ⟨rfl, -⟩ | ⟨nc, hnc, hlt, hcount, -⟩
  · exact absurd rfl hne
  refine ⟨nc, hn, hnc, hlt, hcount, ?_⟩
  rintro rfl
  obtain ⟨p, hp, hnum, -, hlast⟩ := hc.parent hn hne
  obtain rfl := hp.unique hnc
  have hself := hlast hcount.symm
  rw [hself] at hp
  rw [hp.unique hn] at hnum
  exact lt_irrefl _ hnum

theorem Climb.rebalance_isSome {cur : Handle} (hc : Climb cfg cur t) (ha : Anchored cfg t) (hne : cur ≠ NONE) :
    ∃ t', rebalance cfg t cur = some t' := by
  obtain ⟨nd, hn, -⟩ := hc.counted hne
  obtain ⟨c, hf⟩ := hc.findCandidate_isSome hn.1
  by_cases hallowed : swapAllowed cur c nd.parent = true
  · have hcne : c ≠ NONE := by
      rintro rfl
      simp [swapAllowed] at hallowed
    obtain ⟨nc, h⟩ := hc.swappable hn hf hcne
    obtain ⟨t', hs⟩ := hc.swap_isSome ha h
    exact ⟨t', by simp [rebalance, hf, hn.1, hallowed, hs]⟩
  · exact ⟨t, by simp [rebalance, hf, hn.1, hallowed]⟩

/-- A rebalance keeps the anchoring, and leaves `cur` no more to climb. -/
theorem Climb.rebalance_keeps {cur : Handle} (hc : Climb cfg cur t) (ha : Anchored cfg t) (hne : cur ≠ NONE)
    (hr : rebalance cfg t cur = some t') :
    Climb cfg cur t' ∧ TopOfCount t' cur ∧ Anchored cfg t' ∧ climbLeft t' cur ≤ climbLeft t cur := by
  obtain ⟨nd, hn, -⟩ := hc.counted hne
  rcases hc.rebalance_swaps hn hr with ⟨rfl, htop⟩ | ⟨c, nc, h, hs, htop⟩
  · exact ⟨hc, htop, ha, le_rfl⟩
  · exact ⟨hc.after_swap h hs, h.topOfCount hs htop, ha.after_swap h hs, h.climbLeft_le hs⟩

/-- With fuel for what is left to climb the walk of UPDATE ends: each iteration leaves less (R152). -/
theorem Climb.updateWalk_isSome : ∀ {fuel : Nat} {cur : Handle} {t : CodeTree}, Climb cfg cur t →
    Anchored cfg t → climbLeft t cur < fuel → ∃ t', updateWalk cfg fuel cur t = some t' := by
  intro fuel
  induction fuel with
  | zero => intro cur t _ _ h; exact absurd h (Nat.not_lt_zero _)
  | succ fuel ih =>
    intro cur t hc ha hfuel
    by_cases hne : cur = NONE
    · exact ⟨t, updateWalk_succ.2 (.inl ⟨hne, rfl⟩)⟩
    obtain ⟨t1, hr⟩ := hc.rebalance_isSome ha hne
    obtain ⟨hc1, htop, ha1, hle⟩ := hc.rebalance_keeps ha hne hr
    obtain ⟨nd, hn, -⟩ := hc1.counted hne
    obtain ⟨y, hy, -, hyp, -⟩ := hn.after_bumpCount (cur := cur)
    have hcb := hc1.after_bumpCount htop hn
    have hless : climbLeft (bumpCount t1 cur) nd.parent < fuel := by
      have hup := climbLeft_parent_lt hcb ha1.after_bumpCount hy
      have hmoved := climbLeft_bumpCount (cur := cur) hn
      rw [hyp] at hup
      omega
    obtain ⟨t', hrest⟩ := ih hcb ha1.after_bumpCount hless
    exact ⟨t', updateWalk_succ.2 (.inr ⟨hne, t1, y, hr, hy.1, hyp ▸ hrest⟩)⟩

/-- UPDATE of an arena of at most 769 entries ends (R7, R152). -/
theorem Climb.update_isSome {start : Handle} (hc : Climb cfg start t) (ha : Anchored cfg t)
    (hsize : t.arena.length ≤ numHandles) : ∃ t', update cfg start t = some t' := by
  refine hc.updateWalk_isSome ha ?_
  have hle := climbLeft_le t start
  unfold numHandles at hsize
  unfold maxCodeLen
  omega

/-- The walk of CODE_PATH from a live node ends within what is left to climb (R165, R170). -/
theorem Climb.codePathFrom_isSome {cur : Handle} (hc : Climb cfg cur t) (ha : Anchored cfg t) :
    ∀ {fuel : Nat} {h : Handle} {nd : Node} (out : Bits), LiveAt t h nd → climbLeft t h ≤ fuel →
      ∃ path, codePathFrom t fuel h out = some (path ++ out) ∧ path.length < climbLeft t h := by
  intro fuel
  induction fuel with
  | zero =>
    intro h nd out hn hfuel
    rw [climbLeft_eq hn.1] at hfuel
    omega
  | succ fuel ih =>
    intro h nd out hn hfuel
    have hup := climbLeft_parent_lt hc ha hn
    by_cases hp : nd.parent = NONE
    · exact ⟨[], codePathFrom_succ.2 ⟨nd, hn.1, .inl ⟨hp, rfl⟩⟩, Nat.zero_lt_of_lt hup⟩
    obtain ⟨p, hpl, -⟩ := hc.parent hn hp
    obtain ⟨path, hpath, hlen⟩ := ih (decide (slotOf p h = .right) :: out) hpl (by omega)
    refine ⟨path ++ [decide (slotOf p h = .right)], ?_, by
      rw [List.length_append, List.length_singleton]
      omega⟩
    exact codePathFrom_succ.2 ⟨nd, hn.1, .inr ⟨hp, p, hpl.1, by simpa using hpath⟩⟩

/-- Step S5 needs the old NYT's parent, if it has one (R131). -/
theorem splice_isSome {p : Handle} (old nI : Handle) (hp : p ≠ NONE → ∃ pn, t.node? p = some pn) :
    ∃ t', splice t old nI p = some t' := by
  by_cases hnone : p = NONE
  · exact ⟨_, if_pos hnone⟩
  · obtain ⟨pn, hpn⟩ := hp hnone
    exact ⟨t.modNode p (·.setSlot (slotOf pn old) nI), by simp [splice, hnone, hpn]⟩

end Height

section WellFormed
variable {cfg : Config} {t : CodeTree} (hw : treeWf cfg t = true)
include hw

/-- A node with a child is an entry that INSERT made as an internal node (R131 step S1). -/
theorem treeWf_internal_handle {h : Handle} {nd : Node} (hn : t.node? h = some nd)
    (hc : nd.left ≠ NONE ∨ nd.right ≠ NONE) : h.toNat % 3 = 0 ∧ 0 < h.toNat := by
  obtain ⟨hlive, hnyt, hsymv, -⟩ := (wfInternal_iff _ _ _).1 (treeWf_internal hw hn hc)
  obtain ⟨-, -, -, ha, -⟩ := (treeWf_iff _ _).1 hw
  obtain ⟨he, -⟩ := (wfEntry_iff _ _ _ _ _).1 ((wfArena_iff _ _ _).1 ha _ _ hn)
  split_ifs at he with h1 h2 h3
  · obtain ⟨-, -, hleaf, -⟩ := (wfSymbolLeaf_iff _ _ _).1 he
    exact absurd (hsymv.symm.trans hleaf) (by decide)
  · omega
  · obtain ⟨-, hold, -⟩ := (wfNyt_iff _ _ _ _).1 he
    exact absurd (hnyt.symm.trans hold) (by decide)
  · obtain ⟨hdead, -⟩ := (wfHistorical_iff _ _ _).1 he
    exact absurd (hlive.symm.trans hdead) (by decide)

/-- The root has no parent, and the number MAX_NUMBER (R161, R168). -/
theorem treeWf_root_place {r : Node} (hr : LiveAt t t.root r) :
    r.parent = NONE ∧ r.number.toNat = cfg.maxNumber := by
  obtain ⟨-, -, -, ha, -⟩ := (treeWf_iff _ _).1 hw
  obtain ⟨-, hplace⟩ := (wfEntry_iff _ _ _ _ _).1 ((wfArena_iff _ _ _).1 ha _ _ hr.1)
  obtain ⟨-, hroot⟩ := (wfPlace_iff _ _ _ _).1 (hplace hr.2)
  rwa [if_pos rfl] at hroot

theorem anchored_of_treeWf : Anchored cfg t := by
  intro h nd hn
  rcases treeWf_place hw hn with ⟨rfl, hroot⟩ | ⟨p, hp, hchild⟩
  · exact ⟨fun _ => (treeWf_root_place hw hn).2, fun hne => absurd hroot hne⟩
  · have hne := treeWf_ne_none hw hn.1
    refine ⟨fun hnone => absurd hnone (treeWf_ne_none hw hp.1), fun _ => ?_⟩
    exact treeWf_internal_handle hw hp.1
      (hchild.imp (ne_of_eq_of_ne · hne) (ne_of_eq_of_ne · hne))

theorem treeWf_arena_length : t.arena.length = 1 + 3 * t.symMap.length := by
  obtain ⟨-, -, hc, -⟩ := (treeWf_iff _ _).1 hw
  exact ((wfCounters_iff _ _ _).1 hc).1

/-- A live node's path-code has at most NSYM bits (R165). -/
theorem treeWf_codePath {x : Handle} {nd : Node} (hn : LiveAt t x nd) :
    ∃ path, codePath t x = some path ∧ path.length ≤ t.symMap.length := by
  have hsize := treeWf_arena_length hw
  have hle := treeWf_length_le hw
  have hleft := climbLeft_le t x
  obtain ⟨path, hpath, hlen⟩ := (climb_of_treeWf hw).codePathFrom_isSome (anchored_of_treeWf hw)
    (fuel := maxCodeLen + 1) [] hn (by unfold maxCodeLen; omega)
  exact ⟨path, path.append_nil ▸ hpath, by omega⟩

/-- UPDATE of a symbol's leaf ends (R152). -/
theorem treeWf_update_isSome {sym : Symbol} (hs : t.symEntry sym ≠ NONE) :
    ∃ t', update cfg (t.symEntry sym) t = some t' := by
  obtain ⟨nd, hn, h1⟩ := treeWf_symbol_leaf hw hs
  have hsize := treeWf_arena_length hw
  have hle := treeWf_length_le hw
  exact ((climb_of_treeWf hw).start hn h1).update_isSome (anchored_of_treeWf hw)
    (by unfold numHandles; omega)

/-- INSERT up to step S9 finds the old NYT and its parent (R131). -/
theorem treeWf_graft_isSome (sym : Symbol) : ∃ g, graft sym t = some g := by
  obtain ⟨old, ho, hold⟩ := treeWf_nyt hw
  obtain ⟨hlive, -⟩ := (wfNyt_iff _ _ _ _).1 hold
  obtain ⟨t2, h2⟩ := splice_isSome (t := allocate t sym old) t.nyt (t.nextHandle + 2) (p := old.parent)
    fun hp => by
      obtain ⟨p, hpl, -⟩ := treeWf_parent hw ⟨ho, hlive⟩ hp
      exact ⟨p, node?_allocate_kept hpl.1⟩
  exact ⟨_, graft_eq_some.2 ⟨old, t2, ho, h2, rfl⟩⟩

end WellFormed

section Inserted
variable {cfg : Config} {t g : CodeTree} {sym : Symbol} {old : Node}

/-- The new nodes hang from the new internal entry, which takes the old NYT's place (R131). -/
theorem OldNyt.anchored_graft (h : OldNyt cfg t old) (hs : t.symEntry sym = NONE) (hg : graft sym t = some g) :
    Anchored cfg g := by
  obtain ⟨-, hle, -, h2⟩ := h.room hs
  have hsize := treeWf_arena_length h.wf
  have hne : t.nextHandle + 2 ≠ NONE := by
    intro e
    rw [e, show NONE.toNat = 1023 from rfl] at h2
    omega
  have hthird : (t.nextHandle + 2).toNat % 3 = 0 ∧ 0 < (t.nextHandle + 2).toNat := by omega
  intro k y hy
  obtain ⟨x, hx, hn, hp, -⟩ := h.liveAt_graft hs hg hy
  rw [hn, hp]
  rcases hx with _ | _ | _ | ⟨-, hx⟩
  · exact ⟨fun e => absurd e hne, fun _ => hthird⟩
  · exact ⟨fun e => absurd e hne, fun _ => hthird⟩
  · have hplace := anchored_of_treeWf h.wf h.here
    exact hplace
  · exact anchored_of_treeWf h.wf hx

/-- INSERT of a symbol without a leaf succeeds, and codes the entry after the new NYT (R131). -/
theorem treeWf_insert_isSome (hw : treeWf cfg t = true) (hs : t.symEntry sym = NONE) :
    ∃ t', insert cfg sym t = some (t', t.nextHandle + 1) := by
  obtain ⟨old, ho, -⟩ := treeWf_nyt hw
  have hold := treeWf_oldNyt hw ho
  obtain ⟨g, hg⟩ := treeWf_graft_isSome hw sym
  obtain ⟨-, -, -, -, hlen⟩ := graft_frame hg
  obtain ⟨-, hle, -⟩ := hold.room hs
  obtain ⟨t', hu⟩ := (hold.climb_graft hs hg).update_isSome (hold.anchored_graft hs hg)
    (by unfold numHandles; omega)
  exact ⟨t', insert_eq_some.2 ⟨rfl, g, hg, hu⟩⟩

end Inserted

end Sys2Proof.Machine
end

section
/-! Codes from the root down: the bits that lead from the root to a live node are its path-code, and on a FIFO
that begins with it the walk of DEC pops exactly those (30_encoding.md R84, 40_encode_decode.md R110, R114,
42_code_path.md R170, R171). -/

namespace Sys2Proof.Machine

/-- The child of a node that a bit selects (R170). -/
def Node.child (nd : Node) (b : Bool) : Handle := if b then nd.right else nd.left

section WellFormed
variable {cfg : Config} {t : CodeTree} (hw : treeWf cfg t = true)
include hw

/-- An internal node's two children are live, linked back, and in the slots that the bits name (R162, R170). -/
theorem treeWf_child {c : Handle} {nd : Node} (hn : t.node? c = some nd) (hl : nd.left ≠ NONE) (b : Bool) :
    ∃ ch, LiveAt t (nd.child b) ch ∧ ch.parent = c ∧ decide (slotOf nd (nd.child b) = .right) = b := by
  obtain ⟨-, -, -, -, hleft, hright, hsib⟩ := (wfInternal_iff _ _ _).1 (treeWf_internal hw hn (.inl hl))
  obtain ⟨l, hl', r, hr', hnumbers⟩ := (wfSiblings_iff _ _).1 hsib
  have hne : nd.left ≠ nd.right := by
    intro e
    rw [e] at hl'
    obtain rfl := node?_unique hl' hr'
    omega
  cases b
  · obtain ⟨ch, hch, hlive, hparent, -⟩ := (wfChild_iff _ _ _ _).1 hleft
    exact ⟨ch, ⟨hch, hlive⟩, BitVec.eq_of_toNat_eq hparent, by simp [Node.child, slotOf]⟩
  · obtain ⟨ch, hch, hlive, hparent, -⟩ := (wfChild_iff _ _ _ _).1 hright
    exact ⟨ch, ⟨hch, hlive⟩, BitVec.eq_of_toNat_eq hparent, by simp [Node.child, slotOf, hne]⟩

/-- Below a leaf nothing lies: a node that is passed on the way to another is internal. -/
theorem follow_cons_eq_some {c x : Handle} {y : Node} {b : Bool} {bits : Bits} (hx : t.node? x = some y) :
    follow t c (b :: bits) = some x ↔
      ∃ nd, t.node? c = some nd ∧ nd.left ≠ NONE ∧ follow t (nd.child b) bits = some x := by
  constructor
  · intro h
    obtain ⟨nd, hn, hrest⟩ := Option.bind_eq_some_iff.1 (show (t.node? c).bind _ = some x from h)
    refine ⟨nd, hn, fun hl => ?_, hrest⟩
    have hr : nd.right = NONE := by
      by_contra hr
      obtain ⟨-, -, -, -, hleft, -⟩ := (wfInternal_iff _ _ _).1 (treeWf_internal hw hn (.inr hr))
      obtain ⟨l, hl', -⟩ := (wfChild_iff _ _ _ _).1 hleft
      exact treeWf_ne_none hw hl' hl
    have hnone : follow t NONE bits = some x := by cases b <;> simpa [hl, hr] using hrest
    cases bits with
    | nil => exact treeWf_ne_none hw hx (Option.some.inj hnone).symm
    | cons b bits => simp [follow, treeWf_none_absent hw] at hnone
  · rintro ⟨nd, hn, -, hrest⟩
    rw [follow_cons hn]
    exact hrest

/-- Walking up from where bits lead from a live node `c` goes back through those bits to `c` (R170). -/
theorem codePathFrom_of_follow {x : Handle} {y : Node} (hx : t.node? x = some y) (out : Bits) :
    ∀ {bits : Bits} {fuel : Nat} {c : Handle}, follow t c bits = some x →
      codePathFrom t (fuel + bits.length) x out = codePathFrom t fuel c (bits ++ out) := by
  intro bits
  induction bits with
  | nil =>
    intro fuel c h
    obtain rfl := Option.some.inj h
    rfl
  | cons b bits ih =>
    intro fuel c h
    obtain ⟨nd, hn, hl, hrest⟩ := (follow_cons_eq_some hw hx).1 h
    obtain ⟨ch, hch, hparent, hslot⟩ := treeWf_child hw hn hl b
    have hup : codePathFrom t (fuel + 1) (nd.child b) (bits ++ out) =
        codePathFrom t fuel c (b :: (bits ++ out)) := by
      simp [codePathFrom, hch.1, hparent, treeWf_ne_none hw hn, hn, hslot]
    rw [List.length_cons, Nat.add_comm bits.length, ← Nat.add_assoc, ih hrest, hup, List.cons_append]

/-- The bits that lead from the root to a node are its path-code (R170, R171 (c)). -/
theorem codePath_of_follow {x : Handle} {y : Node} {bits : Bits} (hx : t.node? x = some y)
    (h : follow t t.root bits = some x) (hlen : bits.length ≤ maxCodeLen) : codePath t x = some bits := by
  obtain ⟨r, hr⟩ := treeWf_root_live hw
  obtain ⟨hnone, -⟩ := treeWf_root_place hw hr
  have hfuel : maxCodeLen + 1 = maxCodeLen - bits.length + 1 + bits.length := by omega
  rw [codePath, hfuel, codePathFrom_of_follow hw hx [] h, List.append_nil]
  exact codePathFrom_succ.2 ⟨r, hr.1, .inl ⟨hnone, rfl⟩⟩

/-- DEC's walk pops the bits that lead from `c` to `x` and goes on from `x` (R110). -/
theorem decWalk_of_follow {x : Handle} {y : Node} (hx : t.node? x = some y) (rest : Bits) :
    ∀ {bits : Bits} {fuel n : Nat} {c : Handle}, follow t c bits = some x →
      decWalk t (fuel + bits.length) c (bits ++ rest) n = decWalk t fuel x rest (n + bits.length) := by
  intro bits
  induction bits with
  | nil =>
    intro fuel n c h
    obtain rfl := Option.some.inj h
    rfl
  | cons b bits ih =>
    intro fuel n c h
    obtain ⟨nd, hn, hl, hrest⟩ := (follow_cons_eq_some hw hx).1 h
    rw [List.length_cons, ← Nat.add_assoc, List.cons_append, decWalk_succ _ _ _ _ _ _ hn, if_neg hl]
    exact (ih hrest).trans (by rw [Nat.add_right_comm, Nat.add_assoc n])

/-- On a FIFO that begins with a live node's path-code DEC's walk comes to the node, with fuel for one more visit
(R110, R165, R171 (c)). -/
theorem decWalk_codePath {x : Handle} {y : Node} {path : Bits} (rest : Bits) (hx : LiveAt t x y)
    (h : codePath t x = some path) : ∃ fuel, decWalk t (maxCodeLen + 1) t.root (path ++ rest) 0 =
      decWalk t (fuel + 1) x rest path.length := by
  have hlen := codePath_length_le h
  have hfuel : maxCodeLen + 1 = maxCodeLen - path.length + 1 + path.length := by omega
  have hwalk := decWalk_of_follow hw hx.1 rest (follow_codePath hw hx h)
    (fuel := maxCodeLen - path.length + 1) (n := 0)
  rw [← hfuel, Nat.zero_add] at hwalk
  exact ⟨_, hwalk⟩

/-- On a FIFO that begins with a live leaf's path-code DEC's walk ends at the leaf. -/
theorem decWalk_leaf_of_codePath {x : Handle} {y : Node} {path : Bits} (rest : Bits) (hx : LiveAt t x y)
    (hl : y.left = NONE) (h : codePath t x = some path) :
    decWalk t (maxCodeLen + 1) t.root (path ++ rest) 0 = .leaf x y rest path.length := by
  obtain ⟨fuel, hwalk⟩ := decWalk_codePath hw rest hx h
  rw [hwalk, decWalk_succ _ _ _ _ _ _ hx.1, if_pos hl]

/-- On a FIFO that is an internal node's path-code DEC's walk runs dry there (R111). -/
theorem decWalk_dry_of_codePath {x : Handle} {y : Node} {path : Bits} (hx : LiveAt t x y)
    (hl : y.left ≠ NONE) (h : codePath t x = some path) :
    decWalk t (maxCodeLen + 1) t.root path 0 = .dry path.length := by
  obtain ⟨fuel, hwalk⟩ := decWalk_codePath hw [] hx h
  rw [List.append_nil] at hwalk
  rw [hwalk, decWalk_succ _ _ _ _ _ _ hx.1, if_neg hl]

end WellFormed

/-- The bits that DEC's walk pops lead to the leaf where it ends (R110). -/
theorem follow_of_decWalk {t : CodeTree} {x : Handle} {nd : Node} {rest : Bits} {m : Nat} :
    ∀ {fuel n : Nat} {c : Handle} {fifo : Bits}, decWalk t fuel c fifo n = .leaf x nd rest m →
      ∃ bits, fifo = bits ++ rest ∧ m = n + bits.length ∧ follow t c bits = some x := by
  intro fuel
  induction fuel with
  | zero => intro n c fifo h; cases h
  | succ fuel ih =>
    intro n c fifo h
    cases hn : t.node? c with
    | none => simp [decWalk, hn] at h
    | some y =>
      rw [decWalk_succ _ _ _ _ _ _ hn] at h
      split_ifs at h with hl
      · cases h
        exact ⟨[], rfl, rfl, rfl⟩
      cases fifo with
      | nil => cases h
      | cons b fifo =>
        obtain ⟨bits, rfl, rfl, hrest⟩ := ih h
        exact ⟨b :: bits, rfl, by simp only [List.length_cons]; omega, (follow_cons hn b bits).trans hrest⟩

/-- The walk of DEC ends at live leaves alone, and has then popped the leaf's path-code (R110, R114). -/
theorem codePath_of_decWalk {cfg : Config} {t : CodeTree} {x : Handle} {nd : Node} {fifo rest : Bits} {n : Nat}
    (hw : treeWf cfg t = true) (h : decWalk t (maxCodeLen + 1) t.root fifo 0 = .leaf x nd rest n) :
    ∃ path, codePath t x = some path ∧ fifo = path ++ rest ∧ n = path.length ∧ LiveAt t x nd ∧
      nd.left = NONE := by
  obtain ⟨hn, hl, -, hlt, -⟩ := (decWalk_pops t _ _ _ _).1 _ _ _ _ h
  obtain ⟨path, rfl, rfl, hfollow⟩ := follow_of_decWalk h
  exact ⟨path, codePath_of_follow hw hn hfollow (by omega), rfl, Nat.zero_add _,
    decWalk_leaf_live hw (treeWf_root_live hw) h, hl⟩

end Sys2Proof.Machine
end

section
/-! ENC and DEC of one codeword: the commands past their three checks, and that DEC of the codeword ENC emits
makes ENC's tree change (40_encode_decode.md R100, R102, R110 to R115). -/

namespace Sys2Proof.Machine

/-- ENC and DEC pass their three checks (R213, R220, R101). -/
structure Ready (s : State) : Prop where
  clean : s.fault = false
  wf : treeWf s.cfg s.tree = true
  room : saturated s.cfg s.tree = false

theorem ready_of_count {s : State} {r : Node} (hf : s.fault = false) (hw : treeWf s.cfg s.tree = true)
    (hr : s.tree.node? s.tree.root = some r) (hcount : r.count ≠ s.cfg.countMax) : Ready s :=
  ⟨hf, hw, by rw [saturated_eq_decide hr, decide_eq_false hcount]⟩

section Codewords
variable {cfg : Config} {t t' : CodeTree} {sym : Symbol} {leaf : Handle} {out : Bits}

theorem codeword_of_absent (hs : t.symEntry sym = NONE) :
    codeword sym t = some out ↔ ∃ path, codePath t t.nyt = some path ∧ path ++ bitsMsb8 sym = out := by
  simp [codeword, hs, Option.bind_eq_some_iff]

theorem codeword_of_present (hs : t.symEntry sym ≠ NONE) : codeword sym t = codePath t (t.symEntry sym) :=
  if_neg hs

theorem codeSymbol_of_absent (hs : t.symEntry sym = NONE) : codeSymbol cfg sym t = insert cfg sym t :=
  if_pos hs

theorem codeSymbol_of_present (hs : t.symEntry sym ≠ NONE) : codeSymbol cfg sym t = some (t', leaf) ↔
    update cfg (t.symEntry sym) t = some t' ∧ t.symEntry sym = leaf := by
  simp [codeSymbol, hs, Option.bind_eq_some_iff]

end Codewords

section WellFormed
variable {cfg : Config} {t : CodeTree} (hw : treeWf cfg t = true)
include hw

/-- An entry that holds a symbol is a symbol leaf, one of the entries 2, 5, 8, ... (R131 step S3, R168). -/
theorem treeWf_leaf_of_symv {h : Handle} {nd : Node} (hn : t.node? h = some nd) (hv : nd.symv = true) :
    h.toNat % 3 = 2 ∧ wfSymbolLeaf t h.toNat nd = true := by
  have no_symbol : nd.symv ≠ false := by simp [hv]
  obtain ⟨-, -, -, ha, -⟩ := (treeWf_iff _ _).1 hw
  obtain ⟨he, -⟩ := (wfEntry_iff _ _ _ _ _).1 ((wfArena_iff _ _ _).1 ha _ _ hn)
  split_ifs at he with h1 h2 h3
  · exact ⟨h1, he⟩
  · obtain ⟨-, -, hno, -⟩ := (wfInternal_iff _ _ _).1 he
    exact absurd hno no_symbol
  · obtain ⟨-, -, hno, -⟩ := (wfNyt_iff _ _ _ _).1 he
    exact absurd hno no_symbol
  · obtain ⟨-, -, hno, -⟩ := (wfHistorical_iff _ _ _).1 he
    exact absurd hno no_symbol

/-- A live leaf is the NYT or holds a symbol (R160, R168). -/
theorem treeWf_symv_of_leaf {h : Handle} {nd : Node} (hn : LiveAt t h nd) (hl : nd.left = NONE)
    (hnyt : nd.isNyt = false) : nd.symv = true := by
  rcases treeWf_entry hw hn.1 with he | he | ⟨-, he⟩ | he
  · obtain ⟨-, -, hv, -⟩ := (wfSymbolLeaf_iff _ _ _).1 he
    exact hv
  · obtain ⟨-, -, -, -, hleft, -⟩ := (wfInternal_iff _ _ _).1 he
    obtain ⟨l, hl', -⟩ := (wfChild_iff _ _ _ _).1 hleft
    exact absurd hl (treeWf_ne_none hw hl')
  · obtain ⟨-, hmarked, -⟩ := (wfNyt_iff _ _ _ _).1 he
    exact absurd (hnyt.symm.trans hmarked) (by decide)
  · obtain ⟨hdead, -⟩ := (wfHistorical_iff _ _ _).1 he
    exact absurd (hn.2.symm.trans hdead) (by decide)

/-- A symbol's SYMMAP entry names the live leaf that holds it (R26). -/
theorem treeWf_symEntry {sym : Symbol} (hs : t.symEntry sym ≠ NONE) : ∃ nd, LiveAt t (t.symEntry sym) nd ∧
    nd.isNyt = false ∧ nd.symv = true ∧ nd.sym = sym ∧ nd.left = NONE := by
  obtain ⟨-, -, -, -, hsm, -⟩ := (treeWf_iff _ _).1 hw
  obtain ⟨nd, hn, hv, hsym⟩ := (wfSymMap_iff t).1 hsm _ (mem_of_read t.symMap _ hs)
  obtain ⟨-, hleaf⟩ := treeWf_leaf_of_symv hw hn hv
  obtain ⟨hlive, hnyt, -, hl, -⟩ := (wfSymbolLeaf_iff _ _ _).1 hleaf
  exact ⟨nd, ⟨hn, hlive⟩, hnyt, hv, BitVec.eq_of_toNat_eq hsym, hl⟩

/-- SYMMAP names a leaf by the symbol it holds (R26). -/
theorem treeWf_symEntry_of_leaf {h : Handle} {nd : Node} (hn : t.node? h = some nd) (hv : nd.symv = true) :
    t.symEntry nd.sym = h := by
  obtain ⟨-, hleaf⟩ := treeWf_leaf_of_symv hw hn hv
  obtain ⟨-, -, -, -, -, -, he⟩ := (wfSymbolLeaf_iff _ _ _).1 hleaf
  exact BitVec.eq_of_toNat_eq he

/-- The NYT is a live leaf (R160). -/
theorem treeWf_nyt_leaf : ∃ nd, LiveAt t t.nyt nd ∧ nd.isNyt = true ∧ nd.left = NONE := by
  obtain ⟨nd, hn, hold⟩ := treeWf_nyt hw
  obtain ⟨hlive, hnyt, -, -, -, -, hl, -⟩ := (wfNyt_iff _ _ _ _).1 hold
  exact ⟨nd, ⟨hn, hlive⟩, hnyt, hl⟩

/-- The root is never a symbol leaf (R160): its handle is 0 or 3. -/
theorem treeWf_symEntry_ne_root {sym : Symbol} (hs : t.symEntry sym ≠ NONE) : t.symEntry sym ≠ t.root := by
  intro hroot
  obtain ⟨-, -, hc, -⟩ := (treeWf_iff _ _).1 hw
  obtain ⟨-, -, -, -, hr⟩ := (wfCounters_iff _ _ _).1 hc
  obtain ⟨nd, hn, -, hv, -⟩ := treeWf_symEntry hw hs
  obtain ⟨hthird, -⟩ := treeWf_leaf_of_symv hw hn.1 hv
  rw [hroot] at hthird
  split at hr <;> omega

/-- A symbol leaf's path-code is not empty (R165). -/
theorem treeWf_symbol_code_pos {sym : Symbol} {path : Bits} (hs : t.symEntry sym ≠ NONE)
    (h : codePath t (t.symEntry sym) = some path) : 1 ≤ path.length := by
  obtain ⟨nd, hn, -⟩ := treeWf_symEntry hw hs
  refine List.length_pos_iff.2 fun hnil => treeWf_symEntry_ne_root hw hs ?_
  have hfollow := follow_codePath hw hn h
  rw [hnil] at hfollow
  exact (Option.some.inj hfollow).symm

/-- Every symbol has a codeword, of at most 263 bits (R102, R165). -/
theorem treeWf_codeword (sym : Symbol) : ∃ out, codeword sym t = some out ∧ out.length ≤ maxEncBits := by
  by_cases hs : t.symEntry sym = NONE
  · obtain ⟨nd, hn, -⟩ := treeWf_nyt_leaf hw
    obtain ⟨path, hpath, hlen⟩ := treeWf_codePath hw hn
    obtain ⟨-, hm, -⟩ := (treeWf_iff _ _).1 hw
    have hlt := nsym_eq_length hm ▸ nsym_lt_of_absent hs
    exact ⟨_, (codeword_of_absent hs).2 ⟨path, hpath, rfl⟩, by
      rw [List.length_append, bitsMsb8_length, maxEncBits]
      omega⟩
  · obtain ⟨nd, hn, -⟩ := treeWf_symEntry hw hs
    obtain ⟨path, hpath, hlen⟩ := treeWf_codePath hw hn
    have hle := treeWf_length_le hw
    exact ⟨path, (codeword_of_present hs).trans hpath, by unfold maxEncBits; omega⟩

end WellFormed

section Commands
variable {s : State} {sym : Symbol} {t : CodeTree} {leaf : Handle} {out rest path : Bits}

theorem Ready.execEnc_eq (h : Ready s) (ho : codeword sym s.tree = some out)
    (hc : codeSymbol s.cfg sym s.tree = some (t, leaf)) :
    execEnc sym s = .next (respond (okBitsOf out) (commitSymbol sym t leaf s)) := by
  simp [execEnc, h.clean, h.wf, h.room, ho, hc, orRefuse]

/-- DEC of a FIFO that begins with the NYT's path-code is decided by what follows it (R110). -/
theorem Ready.execDec_escape (h : Ready s) (hpath : codePath s.tree s.tree.nyt = some path)
    (hfifo : s.inFifo = path ++ rest) : execDec s = decEscape rest path.length s := by
  obtain ⟨nd, hn, hnyt, hl⟩ := treeWf_nyt_leaf h.wf
  have hwalk := decWalk_leaf_of_codePath h.wf rest hn hl hpath
  rw [← hfifo] at hwalk
  rw [execDec_of_leaf h.clean h.wf h.room hwalk, if_pos hnyt]

/-- DEC at the NYT with a whole payload: a symbol that has a leaf is refused, another one inserted (R110,
R113). -/
theorem decEscape_payload (n : Nat) (s : State) (sym : Symbol) (rest : Bits) :
    decEscape (bitsMsb8 sym ++ rest) n s =
      if s.tree.symEntry sym ≠ NONE then .next (raise .dupSymbol (n + 8) { s with inFifo := rest })
      else orRefuse ((insert s.cfg sym s.tree).map fun p =>
        respond (.okSym sym (BitVec.ofNat 9 (n + 8))) (commitSymbol sym p.1 p.2 { s with inFifo := rest })) := by
  have htake : (bitsMsb8 sym ++ rest).take 8 = bitsMsb8 sym := List.take_left' (bitsMsb8_length sym)
  have hdrop : (bitsMsb8 sym ++ rest).drop 8 = rest := List.drop_left' (bitsMsb8_length sym)
  rw [decEscape, if_neg (by simp), htake, hdrop, valMsb8_bitsMsb8]
  cases insert s.cfg sym s.tree <;> rfl

/-- DEC of a FIFO that begins with a codeword makes the tree change of its symbol's ENC, and pops the codeword
(R110, R114, R115). -/
theorem Ready.execDec_eq (h : Ready s) (ho : codeword sym s.tree = some out)
    (hc : codeSymbol s.cfg sym s.tree = some (t, leaf)) (hfifo : s.inFifo = out ++ rest) :
    execDec s = .next (respond (.okSym sym (BitVec.ofNat 9 out.length))
      (commitSymbol sym t leaf { s with inFifo := rest })) := by
  by_cases hs : s.tree.symEntry sym = NONE
  · obtain ⟨path, hpath, rfl⟩ := (codeword_of_absent hs).1 ho
    rw [codeSymbol_of_absent hs] at hc
    rw [h.execDec_escape hpath (hfifo.trans (List.append_assoc ..)), decEscape_payload,
      if_neg (not_not.2 hs), hc, List.length_append, bitsMsb8_length]
    rfl
  · rw [codeword_of_present hs] at ho
    obtain ⟨hu, rfl⟩ := (codeSymbol_of_present hs).1 hc
    obtain ⟨nd, hn, hnyt, -, rfl, hl⟩ := treeWf_symEntry h.wf hs
    have hwalk := decWalk_leaf_of_codePath h.wf rest hn hl ho
    rw [← hfifo] at hwalk
    rw [execDec_of_leaf h.clean h.wf h.room hwalk, if_neg (by simp [hnyt]), decLeaf, hu]
    rfl

end Commands

end Sys2Proof.Machine
end

section
/-! What ENC and DEC answer on a well-formed tree with room for one more count: the results of both, and DEC's
faults (40_encode_decode.md R100, R110 to R115). -/

namespace Sys2Proof.Machine

/-- Settles O20: the NYT has a path-code, INSERT succeeds, and ENC of a codeword writes what it says. -/
theorem encOfAFirstOccurrenceEscapesAndInserts : Obligations.EncOfAFirstOccurrenceEscapesAndInserts := by
  intro s sym r hf hw hr hcount hs
  obtain ⟨out, ho, hlen⟩ := treeWf_codeword hw sym
  obtain ⟨path, hpath, rfl⟩ := (codeword_of_absent hs).1 ho
  obtain ⟨t, ht⟩ := treeWf_insert_isSome hw hs
  rw [List.length_append, bitsMsb8_length] at hlen
  refine ⟨path, t, hpath, hlen, ht, ?_⟩
  have henc := (ready_of_count hf hw hr hcount).execEnc_eq ho ((codeSymbol_of_absent hs).trans ht)
  rwa [okBitsOf, List.length_append, bitsMsb8_length] at henc

/-- Settles O21: a symbol's leaf has a path-code, which is not empty as the leaf is not the root, UPDATE from the
leaf ends, and ENC of a codeword writes what it says. -/
theorem encOfARepeatEmitsTheLeafsCode : Obligations.EncOfARepeatEmitsTheLeafsCode := by
  intro s sym r hf hw hr hcount hs
  obtain ⟨path, ho, -⟩ := treeWf_codeword hw sym
  have hpath := (codeword_of_present hs).symm.trans ho
  obtain ⟨t, ht⟩ := treeWf_update_isSome hw hs
  exact ⟨path, t, hpath, treeWf_symbol_code_pos hw hs hpath, codePath_length_le hpath, ht,
    (ready_of_count hf hw hr hcount).execEnc_eq ho ((codeSymbol_of_present hs).2 ⟨ht, rfl⟩)⟩

/-- Settles O26: a leaf's path-code and an escape are the codewords of their symbols. -/
theorem decDecodesACompleteCodeword : Obligations.DecDecodesACompleteCodeword := by
  intro s sym r path rest hf hw hr hcount
  have hready := ready_of_count hf hw hr hcount
  refine ⟨fun hs hpath hfifo => ?_, fun hs hpath hfifo => ?_⟩
  · obtain ⟨t, ht⟩ := treeWf_update_isSome hw hs
    exact ⟨t, ht, hready.execDec_eq ((codeword_of_present hs).trans hpath)
      ((codeSymbol_of_present hs).2 ⟨ht, rfl⟩) hfifo⟩
  · obtain ⟨t, ht⟩ := treeWf_insert_isSome hw hs
    have hdec := hready.execDec_eq ((codeword_of_absent hs).2 ⟨path, hpath, rfl⟩)
      ((codeSymbol_of_absent hs).trans ht) hfifo
    rw [List.length_append, bitsMsb8_length] at hdec
    exact ⟨t, ht, hdec⟩

/-- When ENC answers a codeword, it was the symbol's, and the state is the one that the tree change leaves. -/
theorem execEnc_okBits {s e : State} {sym : Symbol} {len : BitVec 9} {out : Bits}
    (h : execEnc sym s = .next e) (hresp : e.resp = some (.okBits len out)) :
    Ready s ∧ len = BitVec.ofNat 9 out.length ∧ codeword sym s.tree = some out ∧
      ∃ t leaf, codeSymbol s.cfg sym s.tree = some (t, leaf) ∧
        e = respond (okBitsOf out) (commitSymbol sym t leaf s) := by
  rcases execEnc_cases h with ⟨-, rfl⟩ | ⟨-, -, -, rfl⟩ | ⟨hf, hw, hroom, out', t, leaf, ho, hc, rfl⟩
  · cases hresp
  · rw [raise_resp] at hresp
    cases hresp
  · cases hresp
    exact ⟨⟨hf, hw, hroom⟩, rfl, ho, t, leaf, hc, rfl⟩

/-- When DEC answers a symbol, the FIFO began with the symbol's codeword, and the tree change is ENC's. -/
theorem execDec_okSym {s d : State} {sym : Symbol} {len : BitVec 9} (h : execDec s = .next d)
    (hresp : d.resp = some (.okSym sym len)) :
    Ready s ∧ ∃ out rest t leaf, codeword sym s.tree = some out ∧
      codeSymbol s.cfg sym s.tree = some (t, leaf) ∧ s.inFifo = out ++ rest ∧
      len = BitVec.ofNat 9 out.length := by
  rcases execDec_cases h with ⟨-, rfl⟩ | ⟨-, -, -, rfl⟩ | ⟨hf, hw, hroom, ⟨n, -, rfl⟩ |
    ⟨cur, nd, fifo, n, hwalk, ⟨-, -, rfl⟩ | ⟨-, -, -, rfl⟩ | ⟨hnyt, h8, hs, t, leaf, ht, rfl⟩ |
      ⟨hnyt, t, ht, rfl⟩⟩⟩
  · cases hresp
  · cases (raise_resp ..).symm.trans hresp
  · cases (raise_resp ..).symm.trans hresp
  · cases (raise_resp ..).symm.trans hresp
  · cases (raise_resp ..).symm.trans hresp
  · cases hresp
    obtain ⟨path, hpath, hfifo, rfl, hn, -⟩ := codePath_of_decWalk hw hwalk
    obtain rfl : cur = s.tree.nyt := by
      by_contra hne
      exact absurd ((treeWf_not_nyt hw hn hne).symm.trans hnyt) (by decide)
    have hpayload : (fifo.take 8).length = 8 := by simpa using h8
    refine ⟨⟨hf, hw, hroom⟩, _, fifo.drop 8, t, leaf, (codeword_of_absent hs).2 ⟨path, hpath, rfl⟩,
      (codeSymbol_of_absent hs).trans ht, ?_, ?_⟩
    · rw [bitsMsb8_valMsb8 hpayload, List.append_assoc, List.take_append_drop, hfifo]
    · rw [List.length_append, bitsMsb8_length]
  · cases hresp
    obtain ⟨path, hpath, hfifo, rfl, hn, hl⟩ := codePath_of_decWalk hw hwalk
    have hentry := treeWf_symEntry_of_leaf hw hn.1 (treeWf_symv_of_leaf hw hn hl hnyt)
    have hs : s.tree.symEntry nd.sym ≠ NONE := hentry ▸ treeWf_ne_none hw hn.1
    subst hentry
    exact ⟨⟨hf, hw, hroom⟩, path, fifo, t, _, (codeword_of_present hs).trans hpath,
      (codeSymbol_of_present hs).2 ⟨ht, rfl⟩, hfifo, rfl⟩

/-- Settles O25: one codeword and one tree change make both commands' answers. -/
theorem decMirrorsEnc : Obligations.DecMirrorsEnc := by
  refine ⟨fun s e sym len out rest he hresp hfifo => ?_, fun s d sym len hd hresp => ?_⟩
  · obtain ⟨hready, rfl, ho, t, leaf, hc, rfl⟩ := execEnc_okBits he hresp
    exact hready.execDec_eq ho hc hfifo
  · obtain ⟨hready, out, rest, t, leaf, ho, hc, hfifo, rfl⟩ := execDec_okSym hd hresp
    obtain ⟨out', ho', hlen⟩ := treeWf_codeword hready.wf sym
    obtain rfl := Option.some.inj (ho.symm.trans ho')
    refine ⟨_, out, rest, hready.execEnc_eq ho hc, rfl, hfifo, ?_,
      Host.Outcome.next.inj (hd.symm.trans (hready.execDec_eq ho hc hfifo))⟩
    unfold maxEncBits at hlen
    rw [BitVec.toNat_ofNat]
    omega

/-- The session's first fault, raised by a DEC that leaves `fifo` (R212, R215). -/
theorem raise_after_pop {s : State} (hf : s.fault = false) (c : Fault) (n : Nat) (fifo : Bits) :
    raise c n { s with inFifo := fifo } = { s with inFifo := fifo, fault := true, errCode := c.code,
                                                   resp := some (.err c (BitVec.ofNat 9 n)) } :=
  raise_of_clean (s := { s with inFifo := fifo }) hf c n

/-- Settles O27: DEC's walk follows the FIFO to the internal node and runs dry there. -/
theorem decThatRunsDryInThePath : Obligations.DecThatRunsDryInThePath := by
  intro s x r nd hf hw hr hcount hn hl hpath
  have hready := ready_of_count hf hw hr hcount
  obtain ⟨hlive, -⟩ := (wfInternal_iff _ _ _).1 (treeWf_internal hw hn (.inl hl))
  have hwalk := decWalk_dry_of_codePath hw ⟨hn, hlive⟩ hl hpath
  exact (execDec_of_dry hf hw hready.room hwalk).trans (congrArg _ (raise_after_pop hf _ _ _))

/-- Settles O28: the escape's payload is too short. -/
theorem decOfAShortPayloadLeavesItsBits : Obligations.DecOfAShortPayloadLeavesItsBits := by
  intro s r path rest hf hw hr hcount hpath hfifo hshort
  have hdec := (ready_of_count hf hw hr hcount).execDec_escape hpath hfifo
  rw [decEscape, if_pos hshort, raise_after_pop hf] at hdec
  exact hdec

/-- Settles O29: the escape's payload names a symbol that has a leaf. -/
theorem decOfAPresentSymbolsEscapeFaults : Obligations.DecOfAPresentSymbolsEscapeFaults := by
  intro s sym r path rest hf hw hr hcount hpath hfifo hs
  have hdec := (ready_of_count hf hw hr hcount).execDec_escape hpath (hfifo.trans (List.append_assoc ..))
  rw [decEscape_payload, if_pos hs, raise_after_pop hf] at hdec
  exact hdec

end Sys2Proof.Machine
end

section
/-! The first symbol of a session: the bare payload and the tree of three live nodes (40_encode_decode.md R100,
R110, 41_insert_update.md R131). -/

namespace Sys2Proof.Machine

/-- The tree of a session's first symbol, with `count` for the count of the new root. -/
def firstTree (cfg : Config) (sym : Symbol) (count : Nat) : CodeTree where
  arena :=
    [{ Node.initial cfg.maxNumber with live := false, isNyt := false },
     { live := true, isNyt := true, symv := false, sym := 0, count := 0,
       number := BitVec.ofNat 10 (cfg.maxNumber - 2), left := NONE, right := NONE, parent := 3 },
     { live := true, isNyt := false, symv := true, sym := sym, count := 1,
       number := BitVec.ofNat 10 (cfg.maxNumber - 1), left := NONE, right := NONE, parent := 3 },
     { live := true, isNyt := false, symv := false, sym := 0, count := count,
       number := BitVec.ofNat 10 cfg.maxNumber, left := 1, right := 2, parent := NONE }]
  nextHandle := 4
  root := 3
  nyt := 1
  symMap := [(sym.toNat, 2)]
  numMap := [(cfg.maxNumber - 2, 1), (cfg.maxNumber - 1, 2), (cfg.maxNumber, 3)]
  nextNum := BitVec.ofNat 11 (cfg.maxNumber - 3)

section First
variable {cfg : Config} (hcfg : cfg.wf = true) (sym : Symbol)
include hcfg

/-- The first NYT and leaf and the counter after them: the numbers are the next below MAX_NUMBER (R131, R132). -/
theorem initial_new_nodes :
    newNyt (CodeTree.initial cfg) = { Node.initial (cfg.maxNumber - 2) with parent := 3 } ∧
      newLeaf (CodeTree.initial cfg) sym =
        { Node.initial (cfg.maxNumber - 1) with isNyt := false, symv := true, sym, count := 1, parent := 3 } ∧
      (CodeTree.initial cfg).nextNum - 2 = BitVec.ofNat 11 (cfg.maxNumber - 3) := by
  obtain ⟨hge, -⟩ := (config_wf_iff cfg).1 hcfg
  have below : ∀ k, 1 ≤ k → k ≤ 2 → (CodeTree.initial cfg).nextNum - BitVec.ofNat 11 k =
      BitVec.ofNat 11 (cfg.maxNumber - (k + 1)) := fun k h1 h2 =>
    (BitVec.ofNat_sub_ofNat_of_le _ k (by omega) (by omega)).trans (by rw [Nat.sub_sub, Nat.add_comm])
  refine ⟨?_, ?_, below 2 (by decide) (by decide)⟩
  · rw [newNyt, show (1 : BitVec 11) = BitVec.ofNat 11 1 from rfl, below 1 le_rfl (by decide),
      BitVec.setWidth_ofNat_of_le (by decide)]
    rfl
  · rw [newLeaf, CodeTree.initial, BitVec.setWidth_ofNat_of_le (by decide)]
    rfl

/-- NUMMAP with the three new nodes (R131 step S8). -/
theorem initial_numMap_registered :
    (((CodeTree.initial cfg).numMap.write (Node.initial cfg.maxNumber).number.toNat 3).write
      (BitVec.ofNat 10 (cfg.maxNumber - 1)).toNat 2).write (BitVec.ofNat 10 (cfg.maxNumber - 2)).toNat 1 =
        (firstTree cfg sym 1).numMap := by
  obtain ⟨hge, hle, -⟩ := (config_wf_iff cfg).1 hcfg
  have toNat_number : ∀ k, k ≤ 1022 → (BitVec.ofNat 10 k).toNat = k := fun k hk => by
    rw [BitVec.toNat_ofNat]
    omega
  rw [initial_number_toNat hcfg, toNat_number _ (by omega), toNat_number _ (by omega)]
  have h1 : cfg.maxNumber - 1 < cfg.maxNumber := by omega
  have h2 : cfg.maxNumber - 2 < cfg.maxNumber - 1 := by omega
  simp [CodeTree.initial, HandleMap.write, firstTree, NONE, h1, h2]

/-- INSERT up to step S9 makes the three nodes, the new root with count 1 (R131, R133). -/
theorem graft_initial : graft sym (CodeTree.initial cfg) = some (firstTree cfg sym 1) := by
  obtain ⟨hnyt, hleaf, hnext⟩ := initial_new_nodes hcfg sym
  refine graft_eq_some.2 ⟨Node.initial cfg.maxNumber, _, rfl, rfl, ?_⟩
  rw [allocate, hnyt, hleaf]
  exact (congrArg₂ (fun m k => { firstTree cfg sym 1 with numMap := m, nextNum := k })
    (initial_numMap_registered hcfg sym) hnext).symm

/-- UPDATE from the new root finds no node above it and counts it (R133, R140, R150). -/
theorem update_firstTree : update cfg 3 (firstTree cfg sym 1) = some (firstTree cfg sym 2) := by
  have hnode : (firstTree cfg sym 1).node? 3 = some
      { live := true, isNyt := false, symv := false, sym := 0, count := 1,
        number := BitVec.ofNat 10 cfg.maxNumber, left := 1, right := 2, parent := NONE } := rfl
  have hnumber : (BitVec.ofNat 10 cfg.maxNumber).toNat = cfg.maxNumber := initial_number_toNat hcfg
  have hcandidate : findCandidate cfg (firstTree cfg sym 1) 3 = some NONE :=
    findCandidate_eq_some.2 ⟨_, hnode, by rw [hnumber, Nat.sub_self]; rfl⟩
  have hrebalance : rebalance cfg (firstTree cfg sym 1) 3 = some (firstTree cfg sym 1) := by
    rw [rebalance, hcandidate]
    rfl
  refine updateWalk_succ.2 (.inr ⟨by decide, _, _, hrebalance, rfl, ?_⟩)
  exact updateWalk_succ.2 (.inl ⟨rfl, rfl⟩)

theorem insert_initial : insert cfg sym (CodeTree.initial cfg) = some (firstTree cfg sym 2, 2) :=
  insert_eq_some.2 ⟨rfl, _, graft_initial hcfg sym, update_firstTree hcfg sym⟩

theorem codeSymbol_initial : codeSymbol cfg sym (CodeTree.initial cfg) = some (firstTree cfg sym 2, 2) :=
  (codeSymbol_of_absent (initial_symEntry cfg sym)).trans (insert_initial hcfg sym)

end First

/-- The NYT is the root, so the escape has no path (R84). -/
theorem codeword_initial (cfg : Config) (sym : Symbol) :
    codeword sym (CodeTree.initial cfg) = some (bitsMsb8 sym) :=
  (codeword_of_absent (initial_symEntry cfg sym)).2 ⟨[], codePathFrom_succ.2 ⟨_, rfl, .inl ⟨rfl, rfl⟩⟩, rfl⟩

theorem ready_of_initial {s : State} (hcfg : s.cfg.wf = true) (htree : s.tree = CodeTree.initial s.cfg)
    (hf : s.fault = false) : Ready s := by
  have hroot : s.tree.node? s.tree.root = some (Node.initial s.cfg.maxNumber) := by rw [htree]; rfl
  have hmax := three_le_countMax _ hcfg
  refine ready_of_count hf (htree ▸ initial_treeWf hcfg) hroot ?_
  simp only [Node.initial]
  omega

/-- Settles O18: on the reset tree the codeword is the bare payload, and INSERT makes the first tree. -/
theorem firstEncOfASessionEmitsTheBarePayload : Obligations.FirstEncOfASessionEmitsTheBarePayload := by
  intro s sym hcfg htree hf
  exact (ready_of_initial hcfg htree hf).execEnc_eq (htree ▸ codeword_initial s.cfg sym)
    (htree ▸ codeSymbol_initial hcfg sym)

/-- Settles O19: the 8 bits are the codeword of that ENC. -/
theorem firstDecOfASessionPopsEightBits : Obligations.FirstDecOfASessionPopsEightBits := by
  intro s e sym rest hcfg htree hf hfifo he
  have hready := ready_of_initial hcfg htree hf
  have ho : codeword sym s.tree = some (bitsMsb8 sym) := htree ▸ codeword_initial s.cfg sym
  have hc : codeSymbol s.cfg sym s.tree = some (firstTree s.cfg sym 2, 2) :=
    htree ▸ codeSymbol_initial hcfg sym
  obtain rfl := Host.Outcome.next.inj ((hready.execEnc_eq ho hc).symm.trans he)
  exact hready.execDec_eq ho hc hfifo

end Sys2Proof.Machine
end

section
/-! The tree between two iterations of UPDATE: all of the tree check but what it asks of a parent's count against
its children's and of the root's (41_insert_update.md R160 to R162, R167, R168). With the climb above the root and
the root's count it is the whole check. -/

namespace Sys2Proof.Machine

/-- A canonical map lists no NONE. -/
theorem ne_none_of_mem {m : HandleMap} (hm : m.wf = true) {e : Nat × Handle} (he : e ∈ m) : e.2 ≠ NONE := by
  induction m with
  | nil => cases he
  | cons e' m ih =>
    obtain ⟨hne, -, hwf⟩ := (wf_cons e' m).1 hm
    rcases List.mem_cons.1 he with rfl | he
    · exact hne
    · exact ih hwf he

/-- What a canonical map lists is what it reads. -/
theorem mem_keys_iff {m : HandleMap} (hm : m.wf = true) {k : Nat} :
    k ∈ m.map Prod.fst ↔ m.read k ≠ NONE := by
  constructor
  · intro hk
    obtain ⟨e, he, rfl⟩ := List.mem_map.1 hk
    rw [read_of_mem m hm e he]
    exact ne_none_of_mem hm he
  · exact fun hk => List.mem_map_of_mem (f := Prod.fst) (mem_of_read m k hk)

theorem keys_pairwise {m : HandleMap} (hm : m.wf = true) : (m.map Prod.fst).Pairwise (· < ·) := by
  induction m with
  | nil => simp
  | cons e m ih =>
    obtain ⟨-, hlt, hwf⟩ := (wf_cons e m).1 hm
    refine List.pairwise_cons.2 ⟨fun k hk => ?_, ih hwf⟩
    obtain ⟨e', he', rfl⟩ := List.mem_map.1 hk
    exact hlt e' he'

/-- A canonical map lists a range of indices exactly when it reads a handle at those of the range alone. -/
theorem keys_eq_range'_iff {m : HandleMap} (hm : m.wf = true) {a n : Nat} :
    m.map Prod.fst = List.range' a n ↔ ∀ k, m.read k ≠ NONE ↔ a ≤ k ∧ k < a + n := by
  constructor
  · intro h k
    rw [← mem_keys_iff hm, h, List.mem_range'_1]
  · intro h
    have hk := keys_pairwise hm
    have hr : (List.range' a n).Pairwise (· < ·) := List.pairwise_lt_range'
    refine List.Perm.eq_of_pairwise (le := (· < ·)) (fun a b _ _ h1 h2 => absurd h1 (Nat.lt_asymm h2)) hk hr ?_
    refine (List.perm_ext_iff_of_nodup (hk.imp Nat.ne_of_lt) (hr.imp Nat.ne_of_lt)).2 fun k => ?_
    rw [mem_keys_iff hm, h, List.mem_range'_1]

/-- An internal node: its two children are live, linked back and of consecutive numbers (R131 step S4, R162). -/
structure Branch (t : CodeTree) (h : Handle) (nd : Node) : Prop where
  live : nd.live = true
  isNyt : nd.isNyt = false
  symv : nd.symv = false
  sym : nd.sym = 0
  child : ∀ b, ∃ ch, LiveAt t (nd.child b) ch ∧ ch.parent = h
  siblings : ∀ {l r}, t.node? nd.left = some l → t.node? nd.right = some r →
    l.number.toNat + 1 = r.number.toNat ∨ r.number.toNat + 1 = l.number.toNat

/-- What an entry is, as the order of allocation fixes it (R131 step S1, R160, R167, R168). -/
inductive EntryShape (cfg : Config) (t : CodeTree) : Handle → Node → Prop
  | leaf {h : Handle} {nd : Node} : h.toNat % 3 = 2 → wfSymbolLeaf t h.toNat nd = true → EntryShape cfg t h nd
  | branch {h : Handle} {nd : Node} : h.toNat % 3 = 0 → h.toNat ≠ 0 → Branch t h nd → EntryShape cfg t h nd
  | nyt {nd : Node} : wfNyt cfg t t.symMap.length nd = true → EntryShape cfg t t.nyt nd
  | historical {h : Handle} {nd : Node} : h.toNat % 3 ≠ 2 → (h.toNat % 3 = 0 → h.toNat = 0) → h ≠ t.nyt →
      wfHistorical cfg h.toNat nd = true → EntryShape cfg t h nd

/-- The place of a live node: the root, or a child slot of its live parent (R161, R168). -/
def Placed (cfg : Config) (t : CodeTree) (h : Handle) (nd : Node) : Prop :=
  (h = t.root ∧ nd.parent = NONE ∧ nd.number.toNat = cfg.maxNumber) ∨
    (h ≠ t.root ∧ ∃ p b, LiveAt t nd.parent p ∧ p.child b = h)

/-- What UPDATE keeps of the tree at every iteration, beside the climb. -/
structure Shaped (cfg : Config) (t : CodeTree) : Prop where
  config : cfg.wf = true
  maps : Memory.wf cfg t = true
  counters : wfCounters cfg t t.symMap.length = true
  symbols : wfSymMap t = true
  numbers : ∀ k, t.numEntry k ≠ NONE ↔ cfg.maxNumber ≤ k + 2 * t.symMap.length ∧ k ≤ cfg.maxNumber
  entry : ∀ {h nd}, t.node? h = some nd → EntryShape cfg t h nd
  placed : ∀ {h nd}, LiveAt t h nd → Placed cfg t h nd

section Facts
variable {cfg : Config} {t : CodeTree}

theorem Shaped.length_le (h : Shaped cfg t) : t.symMap.length ≤ 256 :=
  nsym_eq_length h.maps ▸ nsym_le t

theorem Shaped.arena_length (h : Shaped cfg t) : t.arena.length = 1 + 3 * t.symMap.length := by
  obtain ⟨hlen, -⟩ := (wfCounters_iff _ _ _).1 h.counters
  exact hlen

theorem Shaped.ne_none (h : Shaped cfg t) {k : Handle} {nd : Node} (hn : t.node? k = some nd) : k ≠ NONE := by
  rintro rfl
  have hlt := lt_of_node? hn
  have hlen := h.arena_length
  have hle := h.length_le
  rw [show NONE.toNat = 1023 from rfl] at hlt
  omega

/-- The NYT's handle is 0, 1, 4, ... (R131, R167). -/
theorem Shaped.nyt_handle (h : Shaped cfg t) : t.nyt.toNat % 3 ≠ 2 ∧ (t.nyt.toNat % 3 = 0 → t.nyt.toNat = 0) := by
  obtain ⟨-, -, -, hnyt, -⟩ := (wfCounters_iff _ _ _).1 h.counters
  split at hnyt <;> omega

/-- The NYT register names the NYT (R25). -/
theorem Shaped.nyt (h : Shaped cfg t) : ∃ old, t.node? t.nyt = some old ∧ wfNyt cfg t t.symMap.length old = true := by
  obtain ⟨hlen, -, -, hnyt, -⟩ := (wfCounters_iff _ _ _).1 h.counters
  have hn : t.node? t.nyt = some _ := List.getElem?_eq_getElem (by split at hnyt <;> omega)
  refine ⟨_, hn, ?_⟩
  obtain ⟨h2, h0⟩ := h.nyt_handle
  cases h.entry hn with
  | leaf hh => exact absurd hh h2
  | branch hh h1 => exact absurd (h0 hh) h1
  | nyt hw => exact hw
  | historical _ _ hne => exact absurd rfl hne

/-- A node with a link to a child is internal. -/
theorem Shaped.branch (h : Shaped cfg t) {k : Handle} {nd : Node} (hn : t.node? k = some nd) {b : Bool}
    (hb : nd.child b ≠ NONE) : Branch t k nd ∧ k.toNat % 3 = 0 ∧ k.toNat ≠ 0 := by
  have no_child (hl : nd.left = NONE) (hr : nd.right = NONE) : nd.child b = NONE := by
    cases b <;> simp [Node.child, hl, hr]
  cases h.entry hn with
  | leaf _ hw =>
    obtain ⟨-, -, -, hl, hr, -⟩ := (wfSymbolLeaf_iff _ _ _).1 hw
    exact absurd (no_child hl hr) hb
  | branch hh h0 hbr => exact ⟨hbr, hh, h0⟩
  | nyt hw =>
    obtain ⟨-, -, -, -, -, -, hl, hr, -⟩ := (wfNyt_iff _ _ _ _).1 hw
    exact absurd (no_child hl hr) hb
  | historical _ _ _ hw =>
    obtain ⟨-, -, -, -, -, hl, hr, -⟩ := (wfHistorical_iff _ _ _).1 hw
    exact absurd (no_child hl hr) hb

/-- An entry that holds a symbol is a symbol leaf (R131 step S3, R168). -/
theorem Shaped.leaf_of_symv (h : Shaped cfg t) {k : Handle} {nd : Node} (hn : t.node? k = some nd)
    (hv : nd.symv = true) : k.toNat % 3 = 2 ∧ wfSymbolLeaf t k.toNat nd = true := by
  have no_symbol : nd.symv ≠ false := by simp [hv]
  cases h.entry hn with
  | leaf h2 hw => exact ⟨h2, hw⟩
  | branch _ _ hb => exact absurd hb.symv no_symbol
  | nyt hw =>
    obtain ⟨-, -, hno, -⟩ := (wfNyt_iff _ _ _ _).1 hw
    exact absurd hno no_symbol
  | historical _ _ _ hw =>
    obtain ⟨-, -, hno, -⟩ := (wfHistorical_iff _ _ _).1 hw
    exact absurd hno no_symbol

/-- A live node's parent is internal (R168). -/
theorem Shaped.parent_branch (h : Shaped cfg t) {k : Handle} {nd : Node} (hn : LiveAt t k nd)
    (hp : nd.parent ≠ NONE) : ∃ p b, LiveAt t nd.parent p ∧ p.child b = k ∧ Branch t nd.parent p ∧
      nd.parent.toNat % 3 = 0 ∧ nd.parent.toNat ≠ 0 := by
  obtain ⟨-, hnone, -⟩ | ⟨-, p, b, hpl, hb⟩ := h.placed hn
  · exact absurd hnone hp
  · exact ⟨p, b, hpl, hb, h.branch hpl.1 (hb ▸ h.ne_none hn.1)⟩

theorem Shaped.anchored (h : Shaped cfg t) : Anchored cfg t := by
  intro k nd hn
  obtain ⟨-, hnone, hnum⟩ | ⟨-, p, b, hpl, hb⟩ := h.placed hn
  · exact ⟨fun _ => hnum, fun hne => absurd hnone hne⟩
  · obtain ⟨-, h3, h0⟩ := h.branch hpl.1 (hb ▸ h.ne_none hn.1)
    exact ⟨fun hnone => absurd hnone (h.ne_none hpl.1), fun _ => ⟨h3, Nat.pos_of_ne_zero h0⟩⟩

/-- The two children of an internal node are two nodes: their numbers differ. -/
theorem Branch.left_ne_right {k : Handle} {nd : Node} (h : Branch t k nd) : nd.left ≠ nd.right := by
  intro e
  obtain ⟨l, hl, -⟩ := h.child false
  have hs := h.siblings hl.1 (show t.node? nd.right = some l from e ▸ hl.1)
  omega

/-- An internal node is one in another tree, too, when its children there have the same parent and numbers. -/
theorem Branch.transfer {t' : CodeTree} {k : Handle} {x y : Node} (h : Branch t k x) (hlive : y.live = x.live)
    (hnyt : y.isNyt = x.isNyt) (hsymv : y.symv = x.symv) (hsym : y.sym = x.sym)
    (hchild : ∀ b ch, LiveAt t (x.child b) ch → ch.parent = k →
      ∃ ch', LiveAt t' (y.child b) ch' ∧ ch'.number = ch.number ∧ ch'.parent = k) : Branch t' k y := by
  refine ⟨hlive.trans h.live, hnyt.trans h.isNyt, hsymv.trans h.symv, hsym.trans h.sym, fun b => ?_,
    fun {l r} hl hr => ?_⟩
  · obtain ⟨ch, hch, hpar⟩ := h.child b
    obtain ⟨ch', hch', -, hpar'⟩ := hchild b ch hch hpar
    exact ⟨ch', hch', hpar'⟩
  · obtain ⟨l', hl', hlp⟩ := h.child false
    obtain ⟨r', hr', hrp⟩ := h.child true
    obtain ⟨l'', hl'', hln, -⟩ := hchild false l' hl' hlp
    obtain ⟨r'', hr'', hrn, -⟩ := hchild true r' hr' hrp
    rw [node?_unique hl hl''.1, node?_unique hr hr''.1, hln, hrn]
    exact h.siblings hl'.1 hr'.1

end Facts

theorem Node.child_left_or_right {p : Node} {k : Handle} : (∃ b, p.child b = k) ↔ p.left = k ∨ p.right = k := by
  simp [Node.child]

/-- A well-formed tree has the shape. -/
theorem shaped_of_treeWf {cfg : Config} {t : CodeTree} (hw : treeWf cfg t = true) : Shaped cfg t := by
  obtain ⟨hcfg, hm, hc, ha, hs, hnm, -⟩ := (treeWf_iff _ _).1 hw
  obtain ⟨hkeys, -⟩ := (wfNumMap_iff _ _ _).1 hnm
  obtain ⟨-, hnwf, -⟩ := (memory_wf_iff _ _).1 hm
  have hle := treeWf_length_le hw
  obtain ⟨hlo, -⟩ := (config_wf_iff _).1 hcfg
  refine ⟨hcfg, hm, hc, hs, fun k => ?_, fun {k nd} hn => ?_, fun {k nd} hn => ?_⟩
  · rw [CodeTree.numEntry, (keys_eq_range'_iff hnwf).1 hkeys]
    omega
  · obtain ⟨he, -⟩ := (wfEntry_iff _ _ _ _ _).1 ((wfArena_iff _ _ _).1 ha _ _ hn)
    split_ifs at he with h1 h2 h3
    · exact .leaf h1 he
    · obtain ⟨hlive, hnyt, hsymv, hsym, hleft, hright, hsib⟩ := (wfInternal_iff _ _ _).1 he
      refine .branch h2.1 h2.2 ⟨hlive, hnyt, hsymv, hsym, fun b => ?_, fun hl hr => ?_⟩
      · obtain ⟨ch, hch, hchl, hpar, -⟩ := (wfChild_iff _ _ _ _).1
          (show wfChild t k.toNat nd (nd.child b) = true by cases b <;> assumption)
        exact ⟨ch, ⟨hch, hchl⟩, BitVec.eq_of_toNat_eq hpar⟩
      · obtain ⟨l, hl', r, hr', hnum⟩ := (wfSiblings_iff _ _).1 hsib
        rwa [node?_unique hl hl', node?_unique hr hr']
    · obtain rfl := BitVec.eq_of_toNat_eq h3
      exact .nyt he
    · exact .historical h1 (fun h0 => not_not.1 fun hne => h2 ⟨h0, hne⟩) (fun e => h3 (e ▸ rfl)) he
  · obtain ⟨-, hplace⟩ := (wfEntry_iff _ _ _ _ _).1 ((wfArena_iff _ _ _).1 ha _ _ hn.1)
    obtain ⟨-, hpl⟩ := (wfPlace_iff _ _ _ _).1 (hplace hn.2)
    split_ifs at hpl with hroot
    · exact .inl ⟨BitVec.eq_of_toNat_eq hroot, hpl⟩
    · obtain ⟨p, hp, hlive, hchild⟩ := hpl
      rw [BitVec.toNat_inj, BitVec.toNat_inj] at hchild
      obtain ⟨b, hb⟩ := Node.child_left_or_right.2 hchild
      exact .inr ⟨fun e => hroot (e ▸ rfl), p, b, ⟨hp, hlive⟩, hb⟩

section Assemble
variable {cfg : Config} {t : CodeTree}

/-- Above the root every parent counts more than its child, so the internal nodes pass the check (R164 (e)). -/
theorem Branch.wfInternal (hc : Climb cfg NONE t) {k : Handle} {nd : Node} (h : Branch t k nd)
    (hn : t.node? k = some nd) : wfInternal t k.toNat nd = true := by
  have hchild : ∀ b, wfChild t k.toNat nd (nd.child b) = true := by
    intro b
    obtain ⟨ch, hch, rfl⟩ := h.child b
    have hne := hc.ne_none hn
    obtain ⟨p, hp, hnum, hcnt, hlast⟩ := hc.parent hch hne
    obtain rfl := node?_unique hp.1 hn
    exact (wfChild_iff _ _ _ _).2 ⟨ch, hch.1, hch.2, rfl, hnum, lt_of_le_of_ne hcnt fun e => hne (hlast e)⟩
  obtain ⟨l, hl, -⟩ := h.child false
  obtain ⟨r, hr, -⟩ := h.child true
  exact (wfInternal_iff _ _ _).2 ⟨h.live, h.isNyt, h.symv, h.sym, hchild false, hchild true,
    (wfSiblings_iff _ _).2 ⟨l, hl.1, r, hr.1, h.siblings hl.1 hr.1⟩⟩

theorem Shaped.wfPlace (h : Shaped cfg t) (hc : Climb cfg NONE t) {k : Handle} {nd : Node} (hn : LiveAt t k nd) :
    wfPlace cfg t k.toNat nd = true := by
  refine (wfPlace_iff _ _ _ _).2 ⟨by rw [(hc.named hn).1], ?_⟩
  obtain ⟨rfl, hroot⟩ | ⟨hne, p, b, hp, hb⟩ := h.placed hn
  · rwa [if_pos rfl]
  · rw [if_neg fun e => hne (BitVec.eq_of_toNat_eq e)]
    refine ⟨p, hp.1, hp.2, ?_⟩
    rw [BitVec.toNat_inj, BitVec.toNat_inj]
    exact Node.child_left_or_right.1 ⟨b, hb⟩

theorem Shaped.wfEntry (h : Shaped cfg t) (hc : Climb cfg NONE t) {k : Handle} {nd : Node}
    (hn : t.node? k = some nd) : wfEntry cfg t t.symMap.length k.toNat nd = true := by
  refine (wfEntry_iff _ _ _ _ _).2 ⟨?_, fun hl => h.wfPlace hc ⟨hn, hl⟩⟩
  cases h.entry hn with
  | leaf h2 hw => rwa [if_pos h2]
  | branch h3 h0 hb =>
    rw [if_neg (by omega), if_pos ⟨h3, h0⟩]
    exact hb.wfInternal hc hn
  | nyt hw =>
    obtain ⟨h2, h0⟩ := h.nyt_handle
    rwa [if_neg h2, if_neg fun e => e.2 (h0 e.1), if_pos rfl]
  | historical h2 h0 hne hw =>
    rwa [if_neg h2, if_neg fun e => e.2 (h0 e.1), if_neg fun e => hne (BitVec.eq_of_toNat_eq e)]

/-- Every number of the range names a live node (R161). -/
theorem Shaped.numbered (h : Shaped cfg t) {cur : Handle} (hc : Climb cfg cur t) {k : Nat}
    (hlo : cfg.maxNumber ≤ k + 2 * t.symMap.length) (hhi : k ≤ cfg.maxNumber) :
    ∃ nd, LiveAt t (t.numEntry k) nd ∧ nd.number.toNat = k ∧ t.countAt k = nd.count := by
  obtain ⟨nd, hn, hk⟩ := hc.numbered ((h.numbers k).2 ⟨hlo, hhi⟩)
  exact ⟨nd, hn, hk, by simp [CodeTree.countAt, hn.1]⟩

theorem Shaped.wfNumMap (h : Shaped cfg t) {cur : Handle} (hc : Climb cfg cur t) :
    wfNumMap cfg t t.symMap.length = true := by
  obtain ⟨-, hm, -⟩ := (memory_wf_iff _ _).1 h.maps
  obtain ⟨hlo, -⟩ := (config_wf_iff _).1 h.config
  have hle := h.length_le
  refine (wfNumMap_iff _ _ _).2 ⟨(keys_eq_range'_iff hm).2 fun k => ?_, fun e he => ?_⟩
  · rw [← CodeTree.numEntry, h.numbers]
    omega
  · have hread : t.numEntry e.1 = e.2 := read_of_mem _ hm e he
    obtain ⟨nd, hn, hk⟩ := hc.numbered (k := e.1) (by rw [hread]; exact ne_none_of_mem hm he)
    exact ⟨nd, hread ▸ hn.1, hn.2, hk⟩

theorem Shaped.wfCountOrder (h : Shaped cfg t) {cur : Handle} (hc : Climb cfg cur t) :
    wfCountOrder cfg t t.symMap.length = true := by
  obtain ⟨hlo, -⟩ := (config_wf_iff _).1 h.config
  have hle := h.length_le
  refine (wfCountOrder_iff _ _ _).2 fun j hj => ?_
  obtain ⟨x, hx, hxn, hxc⟩ := h.numbered hc (k := cfg.maxNumber - j - 1) (by omega) (by omega)
  obtain ⟨y, hy, hyn, hyc⟩ := h.numbered hc (k := cfg.maxNumber - j) (by omega) (by omega)
  rw [hxc, hyc]
  exact hc.order hx hy (by omega)

/-- An index of the arena as a handle (R22). -/
theorem node?_ofNat (t : CodeTree) {i : Nat} (hi : i < 1024) : t.node? (BitVec.ofNat 10 i) = t.arena[i]? := by
  rw [CodeTree.node?, BitVec.toNat_ofNat, Nat.mod_eq_of_lt hi]

/-- The shape, the climb above the root and the root's count are the whole check. -/
theorem treeWf_of_shaped (h : Shaped cfg t) (hc : Climb cfg NONE t)
    (hroot : wfRootCount cfg t t.symMap.length = true) : treeWf cfg t = true := by
  refine (treeWf_iff _ _).2 ⟨h.config, h.maps, h.counters, (wfArena_iff _ _ _).2 fun i nd hi => ?_, h.symbols,
    h.wfNumMap hc, h.wfCountOrder hc, hroot⟩
  have hlt := (List.getElem?_eq_some_iff.1 hi).1
  have hlen := h.arena_length
  have hle := h.length_le
  have hnat : (BitVec.ofNat 10 i).toNat = i := by rw [BitVec.toNat_ofNat]; omega
  exact hnat ▸ h.wfEntry hc ((node?_ofNat t (by omega)).trans hi)

end Assemble

end Sys2Proof.Machine
end

section
/-! One iteration of UPDATE as one permutation of handles: the nodes it exchanges take each other's number, parent
and place, one node is counted, and nothing else changes; so the shape of the tree stays (41_insert_update.md R140,
R145, R150). -/

namespace Sys2Proof.Machine

/-- The node `x` in the position of `z`, with its children renamed by `σ` and its count up by `d`. -/
def Node.moved (x z : Node) (σ : Equiv.Perm Handle) (d : Nat) : Node :=
  { x with count := x.count + d, number := z.number, parent := z.parent, left := σ x.left, right := σ x.right }

/-- One iteration at `cur`: handles exchange their positions by `σ`, which moves only counted live nodes, none
below `cur` and not the root, and `cur` is counted once. -/
structure Iterates (cfg : Config) (σ : Equiv.Perm Handle) (cur : Handle) (t t' : CodeTree) : Prop where
  frame : SameFrame t t'
  maps : Memory.wf cfg t' = true
  numEntry : ∀ k, t'.numEntry k = σ (t.numEntry k)
  entry : ∀ {h x}, t.node? h = some x → ∃ z, t.node? (σ h) = some z ∧
    t'.node? h = some (x.moved z σ (if h = cur then 1 else 0))
  involutive : ∀ h, σ (σ h) = h
  moves : ∀ {h}, σ h ≠ h → ∃ x, LiveAt t h x ∧ 1 ≤ x.count ∧ h ≠ t.root ∧
    ∀ nd, t.node? cur = some nd → nd.number.toNat ≤ x.number.toNat
  counted : ∃ nd, LiveAt t cur nd ∧ 1 ≤ nd.count

section Effect
variable {cfg : Config} {σ : Equiv.Perm Handle} {cur : Handle} {t t' : CodeTree}

@[simp] theorem moved_child (x z : Node) (σ : Equiv.Perm Handle) (d : Nat) (b : Bool) :
    (x.moved z σ d).child b = σ (x.child b) := by cases b <;> rfl

/-- What is no counted live node stays in its place. -/
theorem Iterates.fixes (i : Iterates cfg σ cur t t') {h : Handle} (hh : ∀ x, LiveAt t h x → x.count = 0) :
    σ h = h := by
  by_contra hne
  obtain ⟨x, hx, h1, -⟩ := i.moves hne
  have := hh x hx
  omega

theorem Iterates.fixes_none (i : Iterates cfg σ cur t t') (hs : Shaped cfg t) : σ NONE = NONE :=
  i.fixes fun _ hx => absurd rfl (hs.ne_none hx.1)

theorem Iterates.fixes_root (i : Iterates cfg σ cur t t') : σ t.root = t.root := by
  by_contra hne
  obtain ⟨-, -, -, hroot, -⟩ := i.moves hne
  exact hroot rfl

/-- An entry after the iteration was there before it. -/
theorem Iterates.entry_before (i : Iterates cfg σ cur t t') {h : Handle} {y : Node} (hy : t'.node? h = some y) :
    ∃ x z, t.node? h = some x ∧ t.node? (σ h) = some z ∧ y = x.moved z σ (if h = cur then 1 else 0) := by
  have hx : t.node? h = some _ := List.getElem?_eq_getElem (i.frame.size ▸ lt_of_node? hy)
  obtain ⟨z, hz, hy'⟩ := i.entry hx
  exact ⟨_, z, hx, hz, node?_unique hy hy'⟩

/-- A live node's partner is live. -/
theorem Iterates.partner (i : Iterates cfg σ cur t t') {h : Handle} {x : Node} (hx : LiveAt t h x) :
    ∃ z, LiveAt t (σ h) z := by
  by_cases hh : σ h = h
  · exact ⟨x, hh.symm ▸ hx⟩
  · obtain ⟨z, hz, -⟩ := i.moves (h := σ h) fun e => hh ((i.involutive h).symm.trans e).symm
    exact ⟨z, hz⟩

theorem Iterates.live (i : Iterates cfg σ cur t t') {h : Handle} {x : Node} (hx : LiveAt t h x) :
    ∃ z, LiveAt t (σ h) z ∧ LiveAt t' h (x.moved z σ (if h = cur then 1 else 0)) := by
  obtain ⟨z', hz'⟩ := i.partner hx
  obtain ⟨z, hz, hy⟩ := i.entry hx.1
  obtain rfl := node?_unique hz'.1 hz
  exact ⟨z', hz', hy, hx.2⟩

/-- The node that takes the place of a live node is live, with its number and its parent. -/
theorem Iterates.place_taken (i : Iterates cfg σ cur t t') {h : Handle} {z : Node} (hz : LiveAt t h z) :
    ∃ y, LiveAt t' (σ h) y ∧ y.number = z.number ∧ y.parent = z.parent := by
  obtain ⟨x, hx⟩ := i.partner hz
  obtain ⟨z', hz', hy⟩ := i.live hx
  rw [i.involutive] at hz'
  obtain rfl := hz'.unique hz
  exact ⟨_, hy, rfl, rfl⟩

/-- A node that is neither counted nor moved, nor has a child that is, is untouched. -/
theorem Iterates.untouched (i : Iterates cfg σ cur t t') {h : Handle} {x : Node} (hx : t.node? h = some x)
    (hcur : h ≠ cur) (hh : σ h = h) (hchild : ∀ b, σ (x.child b) = x.child b) : t'.node? h = some x := by
  obtain ⟨z, hz, hy⟩ := i.entry hx
  rw [hh] at hz
  obtain rfl := node?_unique hx hz
  rw [hy, if_neg hcur, Node.moved, show σ x.left = x.left from hchild false,
    show σ x.right = x.right from hchild true, Nat.add_zero]

/-- An entry without children that is dead or was never counted is untouched. -/
theorem Iterates.untouched_idle (i : Iterates cfg σ cur t t') (hs : Shaped cfg t) {h : Handle} {x : Node}
    (hx : t.node? h = some x) (hidle : x.live = false ∨ x.count = 0) (hl : x.left = NONE) (hr : x.right = NONE) :
    t'.node? h = some x := by
  have idle : ∀ y, LiveAt t h y → y.count = 0 := by
    intro y hy
    obtain rfl := node?_unique hx hy.1
    rcases hidle with h0 | h0
    · exact absurd (hy.2.symm.trans h0) (by decide)
    · exact h0
  refine i.untouched hx ?_ (i.fixes idle) fun b => ?_
  · rintro rfl
    obtain ⟨nd, hn, h1⟩ := i.counted
    have := idle nd hn
    omega
  · rw [show x.child b = NONE by cases b <;> assumption]
    exact i.fixes_none hs

theorem Iterates.counters (i : Iterates cfg σ cur t t') (hc : wfCounters cfg t t.symMap.length = true) :
    wfCounters cfg t' t'.symMap.length = true := by
  rw [wfCounters_iff] at hc ⊢
  rwa [i.frame.size, i.frame.nextHandle, i.frame.nextNum, i.frame.nyt, i.frame.root, i.frame.symMap]

theorem Iterates.symbols (i : Iterates cfg σ cur t t') (hs : wfSymMap t = true) : wfSymMap t' = true := by
  rw [wfSymMap_iff] at hs ⊢
  rw [i.frame.symMap]
  intro e he
  obtain ⟨x, hx, hv, hsym⟩ := hs e he
  obtain ⟨z, -, hy⟩ := i.entry hx
  exact ⟨_, hy, hv, hsym⟩

theorem Iterates.numbers (i : Iterates cfg σ cur t t') (hs : Shaped cfg t) (k : Nat) :
    t'.numEntry k ≠ NONE ↔ cfg.maxNumber ≤ k + 2 * t'.symMap.length ∧ k ≤ cfg.maxNumber := by
  rw [i.frame.symMap, ← hs.numbers, i.numEntry]
  nth_rw 1 [← i.fixes_none hs]
  exact σ.injective.ne_iff

/-- The children of an internal node, renamed, are in its child slots. -/
theorem Iterates.branch (i : Iterates cfg σ cur t t') {h : Handle} {x z : Node} {d : Nat} (hb : Branch t h x) :
    Branch t' h (x.moved z σ d) := by
  refine hb.transfer rfl rfl rfl rfl fun b ch hch hpar => ?_
  obtain ⟨y, hy, hyn, hyp⟩ := i.place_taken hch
  exact ⟨y, moved_child x z σ d b ▸ hy, hyn, hyp.trans hpar⟩

theorem Iterates.shape (i : Iterates cfg σ cur t t') (hs : Shaped cfg t) {h : Handle} {x y : Node}
    (hx : t.node? h = some x) (hy : t'.node? h = some y) : EntryShape cfg t' h y := by
  obtain ⟨z, hz, hy'⟩ := i.entry hx
  obtain rfl := node?_unique hy' hy
  cases hs.entry hx with
  | leaf h2 hw =>
    obtain ⟨hlive, hnyt, hv, hl, hr, h1, hsym⟩ := (wfSymbolLeaf_iff _ _ _).1 hw
    refine .leaf h2 ((wfSymbolLeaf_iff _ _ _).2 ⟨hlive, hnyt, hv, ?_, ?_, h1.trans (Nat.le_add_right _ _), ?_⟩)
    · exact (congrArg σ hl).trans (i.fixes_none hs)
    · exact (congrArg σ hr).trans (i.fixes_none hs)
    · rwa [CodeTree.symEntry, i.frame.symMap]
  | branch h3 h0 hb => exact .branch h3 h0 (i.branch hb)
  | nyt hw =>
    obtain ⟨h1, h2, h3, h4, hcount, hnum, hl, hr, hplace⟩ := (wfNyt_iff _ _ _ _).1 hw
    rw [node?_unique hy (i.untouched_idle hs hx (.inr hcount) hl hr), ← i.frame.nyt]
    refine .nyt ((wfNyt_iff _ _ _ _).2 ⟨h1, h2, h3, h4, hcount, i.frame.symMap ▸ hnum, hl, hr, ?_⟩)
    rw [i.frame.symMap, i.frame.nyt]
    refine hplace.imp id fun ⟨hpar, p, hp, hleft⟩ => ⟨hpar, ?_⟩
    obtain ⟨w, -, hp'⟩ := i.entry hp
    refine ⟨_, hp', (congrArg σ hleft).trans (i.fixes fun v hv => ?_)⟩
    rw [node?_unique hv.1 hx]
    exact hcount
  | historical h2 h0 hne hw =>
    obtain ⟨hdead, -, -, -, -, hl, hr, -⟩ := (wfHistorical_iff _ _ _).1 hw
    rw [node?_unique hy (i.untouched_idle hs hx (.inl hdead) hl hr)]
    exact .historical h2 h0 (i.frame.nyt ▸ hne) hw

theorem Iterates.placed (i : Iterates cfg σ cur t t') (hs : Shaped cfg t) {h : Handle} {y : Node}
    (hy : LiveAt t' h y) : Placed cfg t' h y := by
  obtain ⟨x, z, hx, hz, rfl⟩ := i.entry_before hy.1
  obtain ⟨z', hz'⟩ := i.partner ⟨hx, hy.2⟩
  obtain rfl := node?_unique hz'.1 hz
  rw [Placed, i.frame.root]
  obtain ⟨hroot, hpar, hnum⟩ | ⟨hne, p, b, hp, hb⟩ := hs.placed hz'
  · exact .inl ⟨σ.injective (hroot.trans i.fixes_root.symm), hpar, hnum⟩
  · refine .inr ⟨fun e => hne (e ▸ i.fixes_root), ?_⟩
    obtain ⟨w, -, hp'⟩ := i.live hp
    exact ⟨_, b, hp', by rw [moved_child, hb, i.involutive]⟩

/-- An iteration keeps the shape. -/
theorem Shaped.iterates (hs : Shaped cfg t) (i : Iterates cfg σ cur t t') : Shaped cfg t' where
  config := hs.config
  maps := i.maps
  counters := i.counters hs.counters
  symbols := i.symbols hs.symbols
  numbers := i.numbers hs
  entry hy := by
    obtain ⟨x, z, hx, -⟩ := i.entry_before hy
    exact i.shape hs hx hy
  placed := i.placed hs

end Effect
end Sys2Proof.Machine
end

section
/-! SWAP exchanges two child slots, and so one iteration of UPDATE is one permutation (41_insert_update.md R140,
R145, R146, R150). -/

namespace Sys2Proof.Machine

section Slots
variable {cfg : Config} {t t' : CodeTree}

/-- Writing the slot of `p` that holds `k` (R145). -/
theorem child_setSlot_slotOf {p : Node} {k : Handle} (hne : p.left ≠ p.right) (hk : ∃ b, p.child b = k)
    (q : Node) (c : Handle) (b : Bool) :
    (q.setSlot (slotOf p k) c).child b = if p.child b = k then c else q.child b := by
  obtain ⟨b', rfl⟩ := hk
  cases b' <;> cases b <;> simp [Node.child, slotOf, hne, hne.symm]

theorem Shaped.parent_of_child (hs : Shaped cfg t) {h k : Handle} {x y : Node} {b : Bool} (hx : t.node? h = some x)
    (hy : t.node? k = some y) (hb : x.child b = k) : y.parent = h := by
  obtain ⟨hbr, -⟩ := hs.branch hx (hb ▸ hs.ne_none hy)
  obtain ⟨ch, hch, hpar⟩ := hbr.child b
  rw [hb] at hch
  rwa [node?_unique hy hch.1]

/-- The one slot that holds `k` is written, whatever else of the entry has been. -/
theorem Shaped.child_relink (hs : Shaped cfg t) {k : Handle} {n p : Node} (hk : LiveAt t k n)
    (hp : t.node? n.parent = some p) {h : Handle} {x : Node} (hx : t.node? h = some x) (q : Node) (c : Handle)
    (b : Bool) : (if n.parent = h then q.setSlot (slotOf p k) c else q).child b =
      if x.child b = k then c else q.child b := by
  by_cases hh : n.parent = h
  · obtain ⟨p', b', hp', hb', hbr, -⟩ := hs.parent_branch hk (hs.ne_none hp)
    obtain rfl := node?_unique hp hp'.1
    rw [hh] at hp
    obtain rfl := node?_unique hp hx
    rw [if_pos hh, child_setSlot_slotOf hbr.left_ne_right ⟨b', hb'⟩]
  · rw [if_neg hh, if_neg fun e => hh (hs.parent_of_child hx hk.1 e)]

/-- SWAP renames the children of every entry (R145, R146). -/
theorem Shaped.swap_child (hs : Shaped cfg t) {a c : Handle} {na nc : Node} (hsw : swap t a c = some t')
    (ha : LiveAt t a na) (hc : LiveAt t c nc) {h : Handle} {x y : Node} (hx : t.node? h = some x)
    (hy : t'.node? h = some y) (b : Bool) : y.child b = Equiv.swap a c (x.child b) := by
  obtain ⟨na', nc', pa, pc, ha', hc', hpa, hpc, rfl⟩ := swap_eq_some.1 hsw
  obtain rfl := node?_unique ha' ha.1
  obtain rfl := node?_unique hc' hc.1
  have repositioned : ∀ (p : Prop) [Decidable p] (n : Node) (k : Handle) (m : Number),
      (if p then { n with parent := k, number := m } else n).child b = n.child b := by
    intro p _ n k m
    split <;> rfl
  have hy' := node?_modNode_some (node?_modNode_some (node?_modNode_some (node?_modNode_some hx
    (k := na'.parent) (·.setSlot (slotOf pa a) c)) (k := nc'.parent) (·.setSlot (slotOf pc c) a))
    (k := a) ({ · with parent := nc'.parent, number := nc'.number }))
    (k := c) ({ · with parent := na'.parent, number := na'.number })
  rw [node?_unique hy hy', repositioned, repositioned, hs.child_relink hc hpc hx, hs.child_relink ha hpa hx,
    Equiv.swap_apply_def]
  split_ifs <;> simp_all

end Slots

section Iteration
variable {cfg : Config} {cur c : Handle} {t t' : CodeTree} {nd nc : Node}

theorem Node.eq_of_fields {x y : Node} (hb : SameBody x y) (hn : y.number = x.number) (hp : y.parent = x.parent)
    (hc : ∀ b, y.child b = x.child b) : y = x := by
  obtain ⟨h1, h2, h3, h4, h5⟩ := hb
  have hl := hc false
  have hr := hc true
  cases x
  cases y
  simp_all [Node.child]

/-- A swap of the walk moves each entry by the exchange of the two handles. -/
theorem Shaped.swap_moved (hs : Shaped cfg t) (h : Swappable t cur c nd nc) (hsw : swap t cur c = some t')
    {k : Handle} {x : Node} (hx : t.node? k = some x) : ∃ z, t.node? (Equiv.swap cur c k) = some z ∧
      t'.node? k = some (x.moved z (Equiv.swap cur c) 0) := by
  obtain ⟨y, hy, he⟩ := swap_entry hsw h.ne hx
  obtain ⟨z, hz, hn, hp⟩ := he.position
  refine ⟨z, hz, hy.trans (congrArg _ (Node.eq_of_fields ?_ hn hp fun b => ?_))⟩
  · obtain ⟨h1, h2, h3, h4, h5⟩ := he.body
    exact ⟨h1, h2, h3, h4, h5⟩
  · rw [hs.swap_child hsw h.cur h.cand hx hy, moved_child]

theorem memory_wf_bumpCount (t : CodeTree) (cur : Handle) :
    Memory.wf cfg (bumpCount t cur) = Memory.wf cfg t := memory_wf_modNode cfg t cur _

theorem Shaped.swap_maps (hs : Shaped cfg t) (hc : Climb cfg cur t) (h : Swappable t cur c nd nc)
    (hsw : swap t cur c = some t') : Memory.wf cfg t' = true := by
  obtain ⟨na, nb, pa, pb, ha, hb, -, -, rfl⟩ := swap_eq_some.1 hsw
  obtain rfl := node?_unique ha h.cur.1
  obtain rfl := node?_unique hb h.cand.1
  refine setNum_memory_wf _ _ _ _ (hc.named h.cur).2 (setNum_memory_wf _ _ _ _ (hc.named h.cand).2 ?_)
  simpa only [memory_wf_modNode] using hs.maps

/-- Neither of the two nodes of a swap is the root (R141, R166). -/
theorem Climb.swap_ne_root (hc : Climb cfg cur t) (hs : Shaped cfg t) (h : Swappable t cur c nd nc) :
    cur ≠ t.root ∧ c ≠ t.root := by
  obtain ⟨p, hp, hnum, hcnt, hlast⟩ := hc.parent_of_lower hs.anchored h.cur h.cand h.higher
  have hbelow := hc.below_parent h hp hnum hcnt hlast
  have root_top : ∀ {k x}, LiveAt t k x → k = t.root → p.number.toNat ≤ x.number.toNat := by
    rintro k x hx rfl
    obtain ⟨-, -, htop⟩ | ⟨hne, -⟩ := hs.placed hx
    · exact htop ▸ (hc.named hp).2
    · exact absurd rfl hne
  refine ⟨fun e => ?_, fun e => ?_⟩
  · have := root_top h.cur e
    omega
  · have := root_top h.cand e
    omega

/-- The increment after a swap or after none is one iteration. -/
theorem Shaped.iterates_swap (hs : Shaped cfg t) (hc : Climb cfg cur t) (h : Swappable t cur c nd nc)
    (hsw : swap t cur c = some t') : Iterates cfg (Equiv.swap cur c) cur t (bumpCount t' cur) where
  frame := (swap_frame hsw).trans' (sameFrame_bumpCount _ _)
  maps := (memory_wf_bumpCount t' cur).trans (hs.swap_maps hc h hsw)
  numEntry k := show t'.numEntry k = _ from hc.swap_numEntry h hsw k
  entry {k x} hx := by
    obtain ⟨z, hz, hy⟩ := hs.swap_moved h hsw hx
    refine ⟨z, hz, ?_⟩
    rw [bumpCount, node?_modNode_some hy]
    simp only [eq_comm (a := k)]
    split_ifs <;> rfl
  involutive := Equiv.swap_apply_self cur c
  moves {k} hk := by
    obtain ⟨hcur, hcand⟩ := hc.swap_ne_root hs h
    obtain ⟨x, hx, h1⟩ := hc.counted (hc.ne_none h.cur.1)
    obtain rfl := hx.unique h.cur
    obtain ⟨-, rfl | rfl⟩ := Equiv.swap_apply_ne_self_iff.1 hk
    · exact ⟨x, hx, h1, hcur, fun y hy => node?_unique hy hx.1 ▸ le_rfl⟩
    · exact ⟨nc, h.cand, h.same_count ▸ h1, hcand, fun y hy => node?_unique hy hx.1 ▸ h.higher.le⟩
  counted := hc.counted (hc.ne_none h.cur.1)

theorem Shaped.iterates_bumpCount (hs : Shaped cfg t) (hc : Climb cfg cur t) (hne : cur ≠ NONE) :
    Iterates cfg (Equiv.refl Handle) cur t (bumpCount t cur) where
  frame := sameFrame_bumpCount _ _
  maps := (memory_wf_bumpCount t cur).trans hs.maps
  numEntry _ := rfl
  entry {k x} hx := by
    refine ⟨x, hx, ?_⟩
    rw [bumpCount, node?_modNode_some hx]
    simp only [eq_comm (a := k)]
    split_ifs <;> rfl
  involutive _ := rfl
  moves hk := absurd rfl hk
  counted := hc.counted hne

end Iteration

/-- What the walk of UPDATE keeps. -/
structure Standing (cfg : Config) (cur : Handle) (t : CodeTree) : Prop where
  climb : Climb cfg cur t
  shaped : Shaped cfg t

/-- One iteration of UPDATE, which goes on from the parent that `cur` then has (R150, R151). -/
theorem Standing.walkStep {cfg : Config} {cur : Handle} {t : CodeTree} {p : Handle × CodeTree}
    (s : Standing cfg cur t) (hne : cur ≠ NONE) (h : walkStep cfg cur t = some p) :
    Standing cfg p.1 p.2 ∧ (∃ σ, Iterates cfg σ cur t p.2) ∧
      ∃ nd, LiveAt p.2 cur nd ∧ nd.parent = p.1 := by
  obtain ⟨t1, y, hr, hy, rfl⟩ := walkStep_eq_some.1 h
  obtain ⟨hc1, htop, -⟩ := s.climb.rebalance_keeps s.shaped.anchored hne hr
  obtain ⟨nd, hn, -⟩ := hc1.counted hne
  obtain ⟨y', hy', -, hyp, -⟩ := hn.after_bumpCount (cur := cur)
  obtain rfl := node?_unique hy'.1 hy
  have hiter : ∃ σ, Iterates cfg σ cur t (bumpCount t1 cur) := by
    obtain ⟨x, hx, -⟩ := s.climb.counted hne
    rcases s.climb.rebalance_swaps hx hr with ⟨rfl, -⟩ | ⟨c, nc, hsw, hs, -⟩
    · exact ⟨_, s.shaped.iterates_bumpCount s.climb hne⟩
    · exact ⟨_, s.shaped.iterates_swap s.climb hsw hs⟩
  obtain ⟨σ, i⟩ := hiter
  exact ⟨⟨hyp ▸ hc1.after_bumpCount htop hn, s.shaped.iterates i⟩, ⟨σ, i⟩, y', hy', rfl⟩

end Sys2Proof.Machine
end

section
/-! The whole of UPDATE: it counts once each node of its start's path as it stands at the end, touches nothing below
the node it stands at, and brings the root's count level with the leaves' (41_insert_update.md R150 to R152, R164). -/

namespace Sys2Proof.Machine

/-- The nodes from `h` up to the root, by the parent links (R170). -/
inductive Upward (t : CodeTree) : Handle → List Handle → Prop
  | top : Upward t NONE []
  | up {h : Handle} {nd : Node} {hs : List Handle} : t.node? h = some nd → Upward t nd.parent hs →
      Upward t h (h :: hs)

section Iteration
variable {cfg : Config} {σ : Equiv.Perm Handle} {cur : Handle} {t t' : CodeTree} {nd : Node}

/-- No handle below `cur` is moved. -/
theorem Iterates.fixes_below (i : Iterates cfg σ cur t t') {h : Handle} {x : Node} (hx : LiveAt t h x)
    (hcur : t.node? cur = some nd) (hlt : x.number.toNat < nd.number.toNat) : σ h = h := by
  by_contra hne
  obtain ⟨y, hy, -, -, hle⟩ := i.moves hne
  have := hle nd hcur
  rw [hy.unique hx] at this
  omega

theorem Standing.fixes_child (s : Standing cfg cur t) (i : Iterates cfg σ cur t t') {h : Handle} {x : Node}
    (hx : LiveAt t h x) (hcur : t.node? cur = some nd) (hle : x.number.toNat ≤ nd.number.toNat) (b : Bool) :
    σ (x.child b) = x.child b := by
  by_cases hb : x.child b = NONE
  · rw [hb, i.fixes_none s.shaped]
  obtain ⟨hbr, -⟩ := s.shaped.branch hx.1 hb
  obtain ⟨ch, hch, rfl⟩ := hbr.child b
  obtain ⟨p, hp, hnum, -⟩ := s.climb.parent hch (s.climb.ne_none hx.1)
  obtain rfl := hp.unique hx
  exact i.fixes_below hch hcur (by omega)

/-- A live node below `cur` is untouched: its children are below it. -/
theorem Standing.untouched_below (s : Standing cfg cur t) (i : Iterates cfg σ cur t t') {h : Handle} {x : Node}
    (hx : LiveAt t h x) (hcur : t.node? cur = some nd) (hlt : x.number.toNat < nd.number.toNat) :
    t'.node? h = some x := by
  refine i.untouched hx.1 ?_ (i.fixes_below hx hcur hlt) (s.fixes_child i hx hcur hlt.le)
  rintro rfl
  rw [node?_unique hx.1 hcur] at hlt
  exact lt_irrefl _ hlt

/-- What an iteration makes of `cur` itself: it is counted, its children stay, and it stands no lower. -/
theorem Standing.cur_after (s : Standing cfg cur t) (i : Iterates cfg σ cur t t') (hn : LiveAt t cur nd) :
    ∃ y, LiveAt t' cur y ∧ y = { nd with count := nd.count + 1, number := y.number, parent := y.parent } ∧
      nd.number.toNat ≤ y.number.toNat := by
  obtain ⟨z, hz, hy⟩ := i.live hn
  rw [if_pos rfl] at hy
  refine ⟨_, hy, ?_, ?_⟩
  · rw [Node.moved, show σ nd.left = nd.left from s.fixes_child i hn hn.1 le_rfl false,
      show σ nd.right = nd.right from s.fixes_child i hn hn.1 le_rfl true]
  · by_cases hh : σ cur = cur
    · rw [hh] at hz
      rw [hz.unique hn]
      exact le_rfl
    · obtain ⟨w, hw, -, -, hle⟩ := i.moves (h := σ cur) fun e => hh ((i.involutive cur).symm.trans e).symm
      rw [hz.unique hw]
      exact hle nd hn.1

/-- A node stands below its parent (R162). -/
theorem Climb.number_lt_parent (hc : Climb cfg cur t) {h : Handle} (hn : LiveAt t h nd) {p : Node}
    (hp : t.node? nd.parent = some p) : nd.number.toNat < p.number.toNat := by
  obtain ⟨q, hq, hnum, -⟩ := hc.parent hn (hc.ne_none hp)
  rwa [node?_unique hp hq.1]

end Iteration

section Walk
variable {cfg : Config} {t' : CodeTree}

/-- The induction over the walk of UPDATE, from its end: what holds of the final tree above the root, and of an
iteration's start when it holds where the iteration goes on, holds where the walk starts. -/
theorem Standing.walk_induct {P : Handle → CodeTree → Prop} (done : Standing cfg NONE t' → P NONE t')
    (iter : ∀ {cur t t1 nd σ fuel}, Standing cfg cur t → Iterates cfg σ cur t t1 → LiveAt t1 cur nd →
      Standing cfg nd.parent t1 → updateWalk cfg fuel nd.parent t1 = some t' → P nd.parent t1 → P cur t) :
    ∀ {fuel cur t}, Standing cfg cur t → updateWalk cfg fuel cur t = some t' → P cur t := by
  intro fuel
  induction fuel with
  | zero => intro cur t _ h; cases h
  | succ fuel ih =>
    intro cur t s h
    rcases updateWalk_succ.1 h with ⟨rfl, rfl⟩ | ⟨hne, t1, nd, hr, hnd, h⟩
    · exact done s
    obtain ⟨s1, ⟨σ, i⟩, nd', hnd', hpar⟩ := s.walkStep hne (walkStep_eq_some.2 ⟨t1, nd, hr, hnd, rfl⟩)
    obtain rfl := node?_unique hnd'.1 hnd
    exact iter s i hnd' s1 h (ih s1 h)

variable {fuel : Nat} {cur : Handle} {t : CodeTree}

/-- Above the root the walk is over. -/
theorem Standing.walk_standing (s : Standing cfg cur t) (h : updateWalk cfg fuel cur t = some t') :
    Standing cfg NONE t' :=
  s.walk_induct (P := fun _ _ => Standing cfg NONE t') id (fun _ _ _ _ _ hp => hp) h

/-- The walk leaves every live node below its start as it was. -/
theorem Standing.walk_untouched (s : Standing cfg cur t) (h : updateWalk cfg fuel cur t = some t') :
    ∀ {k x}, LiveAt t k x → (∀ nd, t.node? cur = some nd → x.number.toNat < nd.number.toNat) →
      t'.node? k = some x := by
  refine s.walk_induct (P := fun cur t => ∀ {k x}, LiveAt t k x →
    (∀ nd, t.node? cur = some nd → x.number.toNat < nd.number.toNat) → t'.node? k = some x)
    (fun _ {k x} hx _ => hx.1) ?_ h
  intro cur t t1 nd σ fuel s i hn s1 _ ih k x hx hbelow
  obtain ⟨nd0, hn0, -⟩ := i.counted
  have hlt := hbelow nd0 hn0.1
  obtain ⟨y, hy, -, hle⟩ := s.cur_after i hn0
  obtain rfl := hy.unique hn
  exact ih ⟨s.untouched_below i hx hn0.1 hlt, hx.2⟩ fun p hp =>
    (hlt.trans_le hle).trans (s1.climb.number_lt_parent hn hp)

/-- The walk counts once each node of the path of its start, as it stands at the end, and no other (R150). -/
theorem Standing.walk_counts (s : Standing cfg cur t) (h : updateWalk cfg fuel cur t = some t') :
    ∃ hs, Upward t' cur hs ∧ ∀ k x, t.node? k = some x →
      ∃ y, t'.node? k = some y ∧ y.count = x.count + if k ∈ hs then 1 else 0 := by
  refine s.walk_induct (P := fun cur t => ∃ hs, Upward t' cur hs ∧ ∀ k x, t.node? k = some x →
      ∃ y, t'.node? k = some y ∧ y.count = x.count + if k ∈ hs then 1 else 0)
    (fun _ => ⟨[], .top, fun k x hx => ⟨x, hx, rfl⟩⟩) ?_ h
  intro cur t t1 nd σ fuel s i hn s1 hrest ⟨hs, hup, hcount⟩
  have hkept := s1.walk_untouched hrest hn fun p hp => s1.climb.number_lt_parent hn hp
  have hfresh : cur ∉ hs := by
    intro hmem
    obtain ⟨y, hy, hyc⟩ := hcount cur nd hn.1
    rw [node?_unique hy hkept, if_pos hmem] at hyc
    omega
  refine ⟨cur :: hs, .up hkept hup, fun k x hx => ?_⟩
  obtain ⟨z, -, hy⟩ := i.entry hx
  obtain ⟨w, hw, hwc⟩ := hcount k _ hy
  refine ⟨w, hw, hwc.trans ?_⟩
  by_cases hk : k = cur
  · subst hk
    simp [Node.moved, hfresh]
  · simp [Node.moved, hk]

/-- What UPDATE makes of the node it starts at, but for its number and parent: it is counted. -/
theorem Standing.walk_start (s : Standing cfg cur t) (h : updateWalk cfg fuel cur t = some t') {nd : Node}
    (hn : LiveAt t cur nd) : ∃ y, LiveAt t' cur y ∧
      y = { nd with count := nd.count + 1, number := y.number, parent := y.parent } := by
  refine s.walk_induct (P := fun cur t => ∀ {nd}, LiveAt t cur nd → ∃ y, LiveAt t' cur y ∧
    y = { nd with count := nd.count + 1, number := y.number, parent := y.parent })
    (fun s {nd} hn => absurd rfl (s.climb.ne_none hn.1)) ?_ h hn
  intro cur t t1 nd1 σ fuel s i hn1 s1 hrest _ nd hn
  obtain ⟨y, hy, he, -⟩ := s.cur_after i hn
  obtain rfl := hy.unique hn1
  exact ⟨y, ⟨s1.walk_untouched hrest hn1 fun p hp => s1.climb.number_lt_parent hn1 hp, hn1.2⟩, he⟩

end Walk

section Balance
variable {cfg : Config} {σ : Equiv.Perm Handle} {cur : Handle} {t t' : CodeTree}

/-- The counts of the symbol leaves (R164 (b)). -/
def leafCount (nd : Node) : Nat := if nd.symv then nd.count else 0

theorem leafTotal_eq (t : CodeTree) : t.leafTotal = (t.arena.map leafCount).sum := rfl

/-- A sum of which one term grows. -/
theorem sum_of_bump : ∀ {l l' : List Nat} {j d : Nat}, (∀ i, l'[i]? = l[i]?.map (· + if i = j then d else 0)) →
    j < l.length → l'.sum = l.sum + d := by
  intro l
  induction l with
  | nil => intro l' j d _ hj; cases hj
  | cons a l ih =>
    intro l' j d h hj
    obtain ⟨a', l', rfl⟩ : ∃ a' m, l' = a' :: m := by
      cases l' with
      | nil => simpa using h 0
      | cons a' m => exact ⟨a', m, rfl⟩
    have hhead : a' = a + if 0 = j then d else 0 := by simpa using h 0
    have htail : ∀ i, l'[i]? = l[i]?.map (· + if i + 1 = j then d else 0) := fun i => by simpa using h (i + 1)
    cases j with
    | zero =>
      obtain rfl : l' = l := List.ext_getElem? fun i => by simpa using htail i
      simp only [hhead, if_pos, List.sum_cons]
      omega
    | succ j =>
      have hrest := ih (l' := l') (j := j) (d := d) (fun i => by simpa using htail i) (by simpa using hj)
      simp [hhead, hrest]
      omega

/-- `cur` names a symbol leaf. -/
def atLeaf (t : CodeTree) (cur : Handle) : Bool := (t.node? cur).any (·.symv)

/-- An iteration at a symbol leaf counts one more symbol. -/
theorem Iterates.leafTotal (i : Iterates cfg σ cur t t') (hs : Shaped cfg t) :
    t'.leafTotal = t.leafTotal + if atLeaf t cur then 1 else 0 := by
  obtain ⟨nd, hn, -⟩ := i.counted
  rw [leafTotal_eq, leafTotal_eq]
  refine sum_of_bump (j := cur.toNat) (fun j => ?_) (by simpa using lt_of_node? hn.1)
  rw [List.getElem?_map, List.getElem?_map]
  rcases Nat.lt_or_ge j t.arena.length with hj | hj
  · have hlen := hs.arena_length
    have hle := hs.length_le
    have hx : t.node? (BitVec.ofNat 10 j) = some t.arena[j] :=
      (node?_ofNat t (by omega)).trans (List.getElem?_eq_getElem hj)
    obtain ⟨z, -, hy⟩ := i.entry hx
    rw [node?_ofNat _ (by omega)] at hx hy
    have hcur : BitVec.ofNat 10 j = cur ↔ j = cur.toNat := by
      rw [← BitVec.toNat_inj, BitVec.toNat_ofNat, Nat.mod_eq_of_lt (by omega)]
    simp only [hx, hy, hcur, Option.map_some, Option.some.injEq]
    by_cases hj' : j = cur.toNat
    · have hn' : t.arena[cur.toNat]? = some nd := hn.1
      obtain rfl : t.arena[j] = nd := Option.some.inj (hx.symm.trans (hj' ▸ hn'))
      rw [if_pos hj', if_pos hj', atLeaf, hn.1, Option.any_some]
      cases hv : t.arena[j].symv <;> simp [leafCount, Node.moved, hv]
    · simp [hj', leafCount, Node.moved]
  · rw [List.getElem?_eq_none hj, List.getElem?_eq_none (i.frame.size ▸ hj)]
    rfl

/-- The root's count against the leaves': one more than all of them once the walk is over, one less than that
while it has the root to count, and a leaf to count too at its start (R164 (b), (d)). -/
def Balanced (cur : Handle) (t : CodeTree) : Prop :=
  ∃ r, LiveAt t t.root r ∧
    r.count + (if cur = NONE then 0 else 1) = t.leafTotal + 1 + if atLeaf t cur then 1 else 0

/-- The root is no symbol leaf (R160): its handle is 0 or 3. -/
theorem Shaped.root_not_leaf (hs : Shaped cfg t) : atLeaf t t.root = false := by
  obtain ⟨-, -, -, -, hroot⟩ := (wfCounters_iff _ _ _).1 hs.counters
  refine Bool.eq_false_iff.2 fun h => ?_
  obtain ⟨r, hr, hv⟩ := (Option.any_eq_true _ _).1 h
  obtain ⟨h2, -⟩ := hs.leaf_of_symv hr hv
  split at hroot <;> omega

/-- The node that the walk goes on to is no symbol leaf, and there is none only above the root. -/
theorem Standing.next_place {nd : Node} (s : Standing cfg nd.parent t) (hn : LiveAt t cur nd) :
    atLeaf t nd.parent = false ∧ (nd.parent = NONE ↔ cur = t.root) := by
  obtain ⟨hroot, hnone, -⟩ | ⟨hne, p, b, hp, hb⟩ := s.shaped.placed hn
  · refine ⟨?_, iff_of_true hnone hroot⟩
    rw [atLeaf, hnone, s.climb.none_absent, Option.any_none]
  · obtain ⟨hbr, -⟩ := s.shaped.branch hp.1 (hb ▸ s.climb.ne_none hn.1)
    refine ⟨?_, iff_of_false (s.climb.ne_none hp.1) hne⟩
    rw [atLeaf, hp.1, Option.any_some, hbr.symv]

/-- An iteration keeps the balance. -/
theorem Balanced.iterates (hb : Balanced cur t) (s : Standing cfg cur t) (i : Iterates cfg σ cur t t') {nd : Node}
    (hn : LiveAt t' cur nd) (s' : Standing cfg nd.parent t') : Balanced nd.parent t' := by
  obtain ⟨r, hr, hcount⟩ := hb
  obtain ⟨x, hx, -⟩ := i.counted
  obtain ⟨z, -, hy⟩ := i.live hr
  obtain ⟨hleaf, hnext⟩ := s'.next_place hn
  refine ⟨_, i.frame.root ▸ hy, ?_⟩
  rw [if_neg (s.climb.ne_none hx.1)] at hcount
  rw [hleaf, i.leafTotal s.shaped]
  simp only [Node.moved, hnext, i.frame.root, eq_comm (a := t.root)]
  by_cases hroot : cur = t.root
  · rw [hroot, s.shaped.root_not_leaf] at hcount ⊢
    simp at hcount ⊢
    omega
  · simp only [hroot, if_false]
    simp
    omega

theorem Standing.walk_balanced {fuel : Nat} (s : Standing cfg cur t) (h : updateWalk cfg fuel cur t = some t')
    (hb : Balanced cur t) : Balanced NONE t' :=
  s.walk_induct (P := fun cur t => Balanced cur t → Balanced NONE t') (fun _ hb => hb)
    (fun s i hn s1 _ ih hb => ih (hb.iterates s i hn s1)) h hb

end Balance
end Sys2Proof.Machine
end

section
/-! The tree that INSERT grafts, entry by entry: it has the shape, and its root's count is level with the leaves'
(41_insert_update.md R131 to R134, R167, R168). -/

namespace Sys2Proof.Machine

/-- A write of a fresh index lists one more. -/
theorem length_write_fresh {m : HandleMap} {k : Nat} {h : Handle} (hm : m.wf = true) (hk : m.read k = NONE)
    (hh : h ≠ NONE) : (m.write k h).length = m.length + 1 := by
  induction m with
  | nil => simp [HandleMap.write, hh]
  | cons e m ih =>
    obtain ⟨hne, -, hwf⟩ := (wf_cons e m).1 hm
    rw [read_cons] at hk
    split_ifs at hk with he
    · exact absurd hk hne
    · simp only [HandleMap.write, hh, if_false, Ne.symm he]
      split_ifs
      · rfl
      · rw [List.length_cons, ih hwf hk, List.length_cons]

section Graft
variable {cfg : Config} {t g : CodeTree} {sym : Symbol} {old : Node}

theorem OldNyt.wfNyt (h : OldNyt cfg t old) : wfNyt cfg t t.symMap.length old = true := by
  obtain ⟨old', ho, hw⟩ := treeWf_nyt h.wf
  rwa [node?_unique h.here.1 ho]

/-- The old NYT is the root of an empty tree, or its parent's left child (R160). -/
theorem OldNyt.place (h : OldNyt cfg t old) :
    (t.symMap.length = 0 ∧ t.nyt = t.root ∧ old.parent = NONE ∧ old.number.toNat = cfg.maxNumber) ∨
      (t.symMap.length ≠ 0 ∧ t.root.toNat = 3 ∧ old.parent.toNat = t.nyt.toNat + 2 ∧
        ∃ p, LiveAt t old.parent p ∧ p.left = t.nyt) := by
  have hs := shaped_of_treeWf h.wf
  obtain ⟨-, -, -, hnyt, hroot⟩ := (wfCounters_iff _ _ _).1 hs.counters
  obtain ⟨-, -, -, -, -, -, -, -, hplace⟩ := (wfNyt_iff _ _ _ _).1 h.wfNyt
  by_cases hn : t.symMap.length = 0
  · rw [if_pos hn] at hnyt hroot
    have he : t.nyt = t.root := BitVec.eq_of_toNat_eq (hnyt.trans hroot.symm)
    obtain ⟨-, hpar, hnum⟩ | ⟨hne, -⟩ := hs.placed h.here
    · exact .inl ⟨hn, he, hpar, hnum⟩
    · exact absurd he hne
  · rw [if_neg hn] at hroot
    obtain ⟨hpar, p, hp, hleft⟩ := hplace.resolve_left hn
    obtain ⟨hbr, -⟩ := hs.branch hp (b := false) (hleft ▸ hs.ne_none h.here.1 : p.left ≠ NONE)
    exact .inr ⟨hn, hroot, hpar, p, ⟨hp, hbr.live⟩, hleft⟩

/-- The three new handles are none of the old entries' and not NONE. -/
theorem OldNyt.new_ne (h : OldNyt cfg t old) (hs : t.symEntry sym = NONE) {k : Handle}
    (hk : k = NONE ∨ ∃ x, t.node? k = some x) :
    t.nextHandle ≠ k ∧ t.nextHandle + 1 ≠ k ∧ t.nextHandle + 2 ≠ k := by
  obtain ⟨h0, hle, h1, h2⟩ := h.room hs
  have hk' : k.toNat < t.arena.length ∨ k.toNat = 1023 := by
    obtain rfl | ⟨x, hx⟩ := hk
    · exact .inr rfl
    · exact .inl (lt_of_node? hx)
  refine ⟨?_, ?_, ?_⟩ <;> rintro rfl <;> omega

theorem OldNyt.parent_known (h : OldNyt cfg t old) : old.parent = NONE ∨ ∃ x, t.node? old.parent = some x := by
  obtain ⟨-, -, hnone, -⟩ | ⟨-, -, -, p, hp, -⟩ := h.place
  · exact .inl hnone
  · exact .inr ⟨p, hp.1⟩

theorem OldNyt.graft_root (h : OldNyt cfg t old) (hg : graft sym t = some g) :
    g.root = if old.parent = NONE then t.nextHandle + 2 else t.root := by
  obtain ⟨old', t2, ho', hsp, rfl⟩ := graft_eq_some.1 hg
  obtain rfl := node?_unique ho' h.here.1
  rcases splice_cases hsp with ⟨hp, rfl⟩ | ⟨hp, pn, -, rfl⟩
  · rw [if_pos hp]; rfl
  · rw [if_neg hp]; rfl

/-- The three new entries of the grafted tree (R131 steps S2 to S4). -/
theorem OldNyt.graft_new (h : OldNyt cfg t old) (hs : t.symEntry sym = NONE) (hg : graft sym t = some g) :
    g.node? t.nextHandle = some (newNyt t) ∧ g.node? (t.nextHandle + 1) = some (newLeaf t sym) ∧
      g.node? (t.nextHandle + 2) = some (newInternal t old) := by
  obtain ⟨e0, e1, e2⟩ := h.node?_allocate_new hs
  obtain ⟨a0, a1, a2⟩ := h.new_ne hs (.inr ⟨_, h.here.1⟩)
  obtain ⟨b0, b1, b2⟩ := h.new_ne hs h.parent_known
  have kept : ∀ {k x}, (allocate t sym old).node? k = some x → k ≠ t.nyt → k ≠ old.parent →
      g.node? k = some x := by
    intro k x hx hk hp
    obtain ⟨y, hy, he⟩ := h.graft_entry hg hx
    rw [hy, he.untouched hk hp]
  exact ⟨kept e0 a0 b0, kept e1 a1 b1, kept e2 a2 b2⟩

theorem OldNyt.graft_retired (h : OldNyt cfg t old) (hg : graft sym t = some g) :
    g.node? t.nyt = some { old with live := false, isNyt := false } := by
  obtain ⟨y, hy, he⟩ := h.graft_entry hg (node?_allocate_kept h.here.1)
  rw [hy, he.retired rfl]

theorem OldNyt.graft_kept (h : OldNyt cfg t old) (hg : graft sym t = some g) {k : Handle} {x : Node}
    (hx : t.node? k = some x) (hk : k ≠ t.nyt) (hp : k ≠ old.parent) : g.node? k = some x := by
  obtain ⟨y, hy, he⟩ := h.graft_entry hg (node?_allocate_kept hx)
  rw [hy, he.untouched hk hp]

/-- The old NYT's parent has the new internal node for its left child (R131 step S5). -/
theorem OldNyt.graft_parent (h : OldNyt cfg t old) (hg : graft sym t = some g) {p : Node}
    (hp : t.node? old.parent = some p) : g.node? old.parent = some { p with left := t.nextHandle + 2 } := by
  have hne := treeWf_ne_none h.wf hp
  have hleft : p.left = t.nyt := by
    obtain ⟨-, -, hnone, -⟩ | ⟨-, -, -, p', hp', hl⟩ := h.place
    · exact absurd hnone hne
    · rwa [node?_unique hp hp'.1]
  obtain ⟨old', t2, ho', hsp, rfl⟩ := graft_eq_some.1 hg
  obtain rfl := node?_unique ho' h.here.1
  rcases splice_cases hsp with ⟨hnone, -⟩ | ⟨-, pn, hpn, rfl⟩
  · exact absurd hnone hne
  obtain rfl := node?_unique hpn (node?_allocate_kept hp)
  have hslot := node?_modNode_some (node?_modNode_some hpn (k := old'.parent)
    (·.setSlot (slotOf pn t.nyt) (t.nextHandle + 2))) (k := t.nyt) ({ · with live := false, isNyt := false })
  rw [if_neg (h.not_parent h.here).symm, if_pos rfl] at hslot
  exact hslot.trans (by rw [show slotOf pn t.nyt = .left from if_pos hleft]; rfl)

/-- Every entry of the grafted tree. -/
theorem OldNyt.graft_cases (h : OldNyt cfg t old) (hs : t.symEntry sym = NONE) (hg : graft sym t = some g)
    {k : Handle} {y : Node} (hy : g.node? k = some y) :
    (k = t.nextHandle ∧ y = newNyt t) ∨ (k = t.nextHandle + 1 ∧ y = newLeaf t sym) ∨
      (k = t.nextHandle + 2 ∧ y = newInternal t old) ∨
      (k = t.nyt ∧ y = { old with live := false, isNyt := false }) ∨
      (k ≠ t.nyt ∧ k = old.parent ∧ ∃ p, LiveAt t k p ∧ y = { p with left := t.nextHandle + 2 }) ∨
      (k ≠ t.nyt ∧ k ≠ old.parent ∧ t.node? k = some y) := by
  obtain ⟨x, hx, -⟩ := h.graft_allocated hg hy
  obtain ⟨e0, e1, e2⟩ := h.graft_new hs hg
  rcases h.allocate_cases hs hx with hx | ⟨rfl, rfl⟩ | ⟨rfl, rfl⟩ | ⟨rfl, rfl⟩
  · by_cases hk : k = t.nyt
    · subst hk
      exact .inr (.inr (.inr (.inl ⟨rfl, node?_unique hy (h.graft_retired hg)⟩)))
    by_cases hp : k = old.parent
    · subst hp
      obtain ⟨p, hp, -⟩ := treeWf_parent h.wf h.here (treeWf_ne_none h.wf hx)
      exact .inr (.inr (.inr (.inr (.inl ⟨hk, rfl, p, hp, node?_unique hy (h.graft_parent hg hp.1)⟩))))
    · exact .inr (.inr (.inr (.inr (.inr ⟨hk, hp, node?_unique hy (h.graft_kept hg hx hk hp) ▸ hx⟩))))
  · exact .inl ⟨rfl, node?_unique hy e0⟩
  · exact .inr (.inl ⟨rfl, node?_unique hy e1⟩)
  · exact .inr (.inr (.inl ⟨rfl, node?_unique hy e2⟩))

theorem graft_symEntry (h : OldNyt cfg t old) (hs : t.symEntry sym = NONE) (hg : graft sym t = some g)
    (sym' : Symbol) : g.symEntry sym' = if sym = sym' then t.nextHandle + 1 else t.symEntry sym' := by
  obtain ⟨-, -, -, hmap, -⟩ := graft_frame hg
  obtain ⟨-, hne, -⟩ := h.new_ne hs (.inl rfl)
  rw [← symEntry_setSym t sym sym' _ hne, CodeTree.symEntry, hmap]
  rfl

/-- NSYM after the graft (R26). -/
theorem OldNyt.graft_length (h : OldNyt cfg t old) (hs : t.symEntry sym = NONE) (hg : graft sym t = some g) :
    g.symMap.length = t.symMap.length + 1 := by
  obtain ⟨-, -, -, hmap, -⟩ := graft_frame hg
  obtain ⟨-, hne, -⟩ := h.new_ne hs (.inl rfl)
  obtain ⟨hwf, -⟩ := (memory_wf_iff _ _).1 (shaped_of_treeWf h.wf).maps
  rw [hmap, length_write_fresh hwf hs hne]

theorem OldNyt.graft_counters (h : OldNyt cfg t old) (hs : t.symEntry sym = NONE) (hg : graft sym t = some g) :
    wfCounters cfg g g.symMap.length = true := by
  obtain ⟨hnext, hnum, hnyt, -, hlen⟩ := graft_frame hg
  obtain ⟨hroom, hle, -, h2⟩ := h.room hs
  have hsh := shaped_of_treeWf h.wf
  obtain ⟨hlen', -, hnum', -, -⟩ := (wfCounters_iff _ _ _).1 hsh.counters
  obtain ⟨hlo, hhi, -⟩ := (config_wf_iff _).1 hsh.config
  rw [h.graft_length hs hg]
  refine (wfCounters_iff _ _ _).2 ⟨by omega, ?_, ?_, ?_, ?_⟩
  · rw [hnext, BitVec.toNat_add_of_lt (by simp; omega)]
    simp
    omega
  · rw [hnum, BitVec.toInt_sub, hnum', show (2 : BitVec 11).toInt = 2 from rfl, Int.bmod_eq_of_le] <;>
      push_cast <;> omega
  · rw [hnyt, if_neg (Nat.succ_ne_zero _)]
    omega
  · rw [h.graft_root hg, if_neg (Nat.succ_ne_zero _)]
    obtain ⟨hn, -, hnone, -⟩ | ⟨-, hroot, -, p, hp, -⟩ := h.place
    · rw [if_pos hnone]
      omega
    · rwa [if_neg (treeWf_ne_none h.wf hp.1)]

theorem OldNyt.graft_maps (h : OldNyt cfg t old) (hg : graft sym t = some g) (hs : t.symEntry sym = NONE) :
    Memory.wf cfg g = true := by
  obtain ⟨hleaf, hnyt⟩ := h.numbers hs
  have hnum := h.number
  obtain ⟨old', t2, ho', hsp, rfl⟩ := graft_eq_some.1 hg
  obtain rfl := node?_unique ho' h.here.1
  obtain ⟨-, -, hsym, hnm, -⟩ := splice_frame hsp
  have hm : Memory.wf cfg (retireNyt t2 t.nyt t.nextHandle) = true := by
    rw [← (shaped_of_treeWf h.wf).maps, Memory.wf, Memory.wf, retireNyt_symMap, retireNyt_numMap, hsym, hnm]
    rfl
  exact setNum_memory_wf _ _ _ _ (by omega) (setNum_memory_wf _ _ _ _ (by omega)
    (setNum_memory_wf _ _ _ _ (by omega) (setSym_memory_wf _ _ _ _ hm)))

theorem OldNyt.graft_symbols (h : OldNyt cfg t old) (hs : t.symEntry sym = NONE) (hg : graft sym t = some g) :
    wfSymMap g = true := by
  obtain ⟨-, -, -, hmap, -⟩ := graft_frame hg
  obtain ⟨-, e1, -⟩ := h.graft_new hs hg
  have hsym := (wfSymMap_iff _).1 (shaped_of_treeWf h.wf).symbols
  refine (wfSymMap_iff _).2 fun e he => ?_
  rw [hmap] at he
  rcases mem_write _ _ _ _ he with he | ⟨rfl, -⟩
  · obtain ⟨nd, hn, hv, hse⟩ := hsym e he
    have hk : e.2 ≠ t.nyt := fun hk => by
      obtain ⟨-, -, hno, -⟩ := (wfNyt_iff _ _ _ _).1 h.wfNyt
      rw [hk] at hn
      rw [node?_unique hn h.here.1, hno] at hv
      cases hv
    obtain ⟨y, hy, hent⟩ := h.graft_entry hg (node?_allocate_kept hn)
    have hb := hent.body hk
    exact ⟨y, hy, hb.symv.trans hv, hb.sym ▸ hse⟩
  · exact ⟨_, e1, rfl, rfl⟩

theorem OldNyt.graft_range (h : OldNyt cfg t old) (hs : t.symEntry sym = NONE) (hg : graft sym t = some g)
    (k : Nat) : g.numEntry k ≠ NONE ↔ cfg.maxNumber ≤ k + 2 * g.symMap.length ∧ k ≤ cfg.maxNumber := by
  obtain ⟨hleaf, hnyt⟩ := h.numbers hs
  obtain ⟨a0, a1, a2⟩ := h.new_ne hs (.inl rfl)
  have hnum := h.number
  have hrange := (shaped_of_treeWf h.wf).numbers k
  rw [h.graft_numEntry hs hg, h.graft_length hs hg]
  split_ifs
  · exact iff_of_true a0 (by omega)
  · exact iff_of_true a1 (by omega)
  · exact iff_of_true a2 (by omega)
  · rw [hrange]
    omega

/-- A live node other than the old NYT keeps its place among the children of its parent. -/
theorem OldNyt.graft_child (h : OldNyt cfg t old) (hg : graft sym t = some g) {k : Handle} {p : Node}
    (hp : LiveAt t k p) (hk : k ≠ t.nyt) : ∃ q, LiveAt g k q ∧ ∀ b, p.child b ≠ t.nyt → q.child b = p.child b := by
  by_cases hpar : k = old.parent
  · subst hpar
    refine ⟨_, ⟨h.graft_parent hg hp.1, hp.2⟩, fun b hb => ?_⟩
    obtain ⟨-, -, hnone, -⟩ | ⟨-, -, -, p', hp', hl⟩ := h.place
    · exact absurd hnone (treeWf_ne_none h.wf hp.1)
    obtain rfl := hp.unique hp'
    cases b
    · exact absurd hl hb
    · rfl
  · exact ⟨p, ⟨h.graft_kept hg hp.1 hk hpar, hp.2⟩, fun _ _ => rfl⟩

/-- The children of an internal node after the graft: the new internal node has the old NYT's place. -/
theorem OldNyt.graft_branch (h : OldNyt cfg t old) (hs : t.symEntry sym = NONE) (hg : graft sym t = some g)
    {k : Handle} {x y : Node} (hb : Branch t k x) (hk : k ≠ t.nyt) (hx : t.node? k = some x)
    (hy : g.node? k = some y) : Branch g k y := by
  obtain ⟨z, hz, he⟩ := h.graft_entry hg (node?_allocate_kept hx)
  obtain rfl := node?_unique hz hy
  have hbody := he.body hk
  obtain ⟨q, hq, hchild⟩ := h.graft_child hg ⟨hx, hb.live⟩ hk
  obtain rfl := node?_unique hq.1 hz
  refine hb.transfer hbody.live hbody.isNyt hbody.symv hbody.sym fun b ch hch hpar => ?_
  by_cases hn : x.child b = t.nyt
  · rw [hn] at hch
    obtain rfl := hch.unique h.here
    obtain ⟨-, -, e2⟩ := h.graft_new hs hg
    subst hpar
    have hz' := node?_unique hz (h.graft_parent hg hx)
    have hnew : q.child b = t.nextHandle + 2 := by
      obtain ⟨-, -, hnone, -⟩ | ⟨-, -, -, p, hp, hl⟩ := h.place
      · exact absurd hnone (treeWf_ne_none h.wf hx)
      obtain rfl := node?_unique hx hp.1
      cases b
      · rw [hz']; rfl
      · exact absurd (hl.trans hn.symm) hb.left_ne_right
    exact ⟨newInternal t ch, ⟨hnew ▸ e2, rfl⟩, rfl, rfl⟩
  · obtain ⟨ch', hch', hnum, hpar', -⟩ := (Grafted.kept (sym := sym) (old := old) hn hch).liveAt h hs hg
    exact ⟨ch', (hchild b hn).symm ▸ hch', hnum, hpar'.trans hpar⟩

/-- The old entries after the graft are what they were, and the old NYT is historical (R134). -/
theorem OldNyt.graft_old_shape (h : OldNyt cfg t old) (hs : t.symEntry sym = NONE) (hg : graft sym t = some g)
    {k : Handle} {x y : Node} (hx : t.node? k = some x) (hy : g.node? k = some y) : EntryShape cfg g k y := by
  have hsh := shaped_of_treeWf h.wf
  obtain ⟨-, -, hgnyt, -, -⟩ := graft_frame hg
  obtain ⟨hnew, -⟩ := h.new_ne hs (.inr ⟨x, hx⟩)
  have kept : k ≠ t.nyt → (k.toNat % 3 = 0 → k.toNat = 0) → y = x := by
    intro hk h0
    refine node?_unique hy (h.graft_kept hg hx hk ?_)
    rintro rfl
    obtain ⟨-, -, hnone, -⟩ | ⟨-, -, -, p, hp, hl⟩ := h.place
    · exact treeWf_ne_none h.wf hx hnone
    obtain ⟨-, h3, hne⟩ := hsh.branch hp.1 (b := false) (hl ▸ hsh.ne_none h.here.1 : p.left ≠ NONE)
    exact hne (h0 h3)
  cases hsh.entry hx with
  | leaf h2 hw =>
    obtain rfl := kept (fun e => hsh.nyt_handle.1 (e ▸ h2)) (by omega)
    obtain ⟨hlive, hnyt, hv, hl, hr, h1, hsym⟩ := (wfSymbolLeaf_iff _ _ _).1 hw
    refine .leaf h2 ((wfSymbolLeaf_iff _ _ _).2 ⟨hlive, hnyt, hv, hl, hr, h1, ?_⟩)
    rw [graft_symEntry h hs hg, if_neg, hsym]
    rintro rfl
    exact treeWf_ne_none h.wf hx (BitVec.eq_of_toNat_eq (hs ▸ hsym).symm)
  | branch h3 h0 hb =>
    exact .branch h3 h0 (h.graft_branch hs hg hb (fun e => h0 (hsh.nyt_handle.2 (e ▸ h3) ▸ e ▸ rfl)) hx hy)
  | nyt hw =>
    obtain ⟨-, -, h3, h4, hcount, hnum, hl, hr, hplace⟩ := (wfNyt_iff _ _ _ _).1 hw
    obtain ⟨-, -, -, hnyt, -⟩ := (wfCounters_iff _ _ _).1 hsh.counters
    obtain rfl := node?_unique hx h.here.1
    rw [node?_unique hy (h.graft_retired hg)]
    obtain ⟨h2, h0⟩ := hsh.nyt_handle
    refine .historical h2 h0 (hgnyt ▸ hnew.symm) ((wfHistorical_iff _ _ _).2
      ⟨rfl, rfl, h3, h4, hcount, hl, hr, ?_, ?_⟩)
    · split at hnyt <;> dsimp only <;> omega
    · obtain ⟨hn, -, hnone, -⟩ | ⟨hn, -, hpar, -⟩ := h.place
      · rw [if_pos hn] at hnyt
        rwa [if_pos hnyt]
      · rw [if_neg hn] at hnyt
        rwa [if_neg (by omega)]
  | historical h2 h0 hne hw =>
    obtain rfl := kept hne h0
    exact .historical h2 h0 (hgnyt ▸ hnew.symm) hw

/-- The new entries are the NYT, a symbol leaf and an internal node (R131 steps S2 to S4). -/
theorem OldNyt.graft_shape (h : OldNyt cfg t old) (hs : t.symEntry sym = NONE) (hg : graft sym t = some g)
    {k : Handle} {y : Node} (hy : g.node? k = some y) : EntryShape cfg g k y := by
  obtain ⟨x, hx, -⟩ := h.graft_allocated hg hy
  obtain ⟨e0, e1, e2⟩ := h.graft_new hs hg
  obtain ⟨-, -, hgnyt, -, -⟩ := graft_frame hg
  obtain ⟨h0, -, h1, h2⟩ := h.room hs
  obtain ⟨hleaf, hnyt⟩ := h.numbers hs
  have hsize := treeWf_arena_length h.wf
  have hnum := h.number
  rcases h.allocate_cases hs hx with hx | ⟨rfl, rfl⟩ | ⟨rfl, rfl⟩ | ⟨rfl, rfl⟩
  · exact h.graft_old_shape hs hg hx hy
  · rw [node?_unique hy e0, ← hgnyt]
    refine .nyt ((wfNyt_iff _ _ _ _).2 ⟨rfl, rfl, rfl, rfl, rfl, ?_, rfl, rfl, .inr ⟨?_, _, e2, hgnyt.symm⟩⟩)
    · rw [h.graft_length hs hg]
      omega
    · rw [hgnyt, h0]
      exact h2
  · rw [node?_unique hy e1]
    refine .leaf (by omega) ((wfSymbolLeaf_iff _ _ _).2 ⟨rfl, rfl, rfl, rfl, rfl, le_rfl, ?_⟩)
    rw [graft_symEntry h hs hg]
    exact congrArg BitVec.toNat (if_pos rfl)
  · rw [node?_unique hy e2]
    refine .branch (by omega) (by omega) ⟨rfl, rfl, rfl, rfl, fun b => ?_, fun {l r} hl hr => .inl ?_⟩
    · cases b
      · exact ⟨_, ⟨e0, rfl⟩, rfl⟩
      · exact ⟨_, ⟨e1, rfl⟩, rfl⟩
    · rw [node?_unique hl e0, node?_unique hr e1]
      omega

/-- The new internal node takes the old NYT's place, and the other old live nodes keep theirs (R131 step S5). -/
theorem OldNyt.graft_placed (h : OldNyt cfg t old) (hs : t.symEntry sym = NONE) (hg : graft sym t = some g)
    {k : Handle} {y : Node} (hy : LiveAt g k y) : Placed cfg g k y := by
  have hsh := shaped_of_treeWf h.wf
  obtain ⟨x, hx, hn, hp, -⟩ := h.liveAt_graft hs hg hy
  obtain ⟨-, -, e2⟩ := h.graft_new hs hg
  obtain ⟨r, hr⟩ := treeWf_root_live h.wf
  obtain ⟨a0, a1, a2⟩ := h.new_ne hs (.inr ⟨r, hr.1⟩)
  obtain ⟨h0, -, h1, h2⟩ := h.room hs
  have hroot := h.graft_root hg
  have hne0 : t.nextHandle ≠ g.root := by
    rw [hroot]
    split_ifs
    · exact fun e => by have := congrArg BitVec.toNat e; omega
    · exact a0
  have hne1 : t.nextHandle + 1 ≠ g.root := by
    rw [hroot]
    split_ifs
    · exact fun e => by have := congrArg BitVec.toNat e; omega
    · exact a1
  rw [Placed, hn, hp]
  rcases hx with _ | _ | _ | ⟨hk, hx⟩
  · exact .inr ⟨hne0, _, false, ⟨e2, rfl⟩, rfl⟩
  · exact .inr ⟨hne1, _, true, ⟨e2, rfl⟩, rfl⟩
  · obtain ⟨-, -, hnone, htop⟩ | ⟨-, -, -, p, hp, hl⟩ := h.place
    · exact .inl ⟨(hroot.trans (if_pos hnone)).symm, hnone, htop⟩
    · have hpn := treeWf_ne_none h.wf hp.1
      rw [if_neg hpn] at hroot
      exact .inr ⟨hroot ▸ a2, _, false, ⟨h.graft_parent hg hp.1, hp.2⟩, rfl⟩
  · obtain ⟨-, -, hnew⟩ := h.new_ne hs (.inr ⟨x, hx.1⟩)
    obtain ⟨rfl, hplace⟩ | ⟨hkr, p, b, hp, hb⟩ := hsh.placed hx
    · refine .inl ⟨?_, hplace⟩
      obtain ⟨-, hrt, -⟩ | ⟨-, -, -, p, hp, -⟩ := h.place
      · exact absurd hrt.symm hk
      · rw [hroot, if_neg (treeWf_ne_none h.wf hp.1)]
    · refine .inr ⟨?_, ?_⟩
      · rw [hroot]
        split_ifs
        · exact hnew.symm
        · exact hkr
      · obtain ⟨q, hq, hchild⟩ := h.graft_child hg hp (h.not_parent hx)
        exact ⟨q, b, hq, (hchild b (hb ▸ hk)).trans hb⟩

/-- The grafted tree has the shape, and climbs from the new internal node (R131 step S10). -/
theorem OldNyt.standing_graft (h : OldNyt cfg t old) (hs : t.symEntry sym = NONE) (hg : graft sym t = some g) :
    Standing cfg (t.nextHandle + 2) g where
  climb := h.climb_graft hs hg
  shaped :=
    { config := (shaped_of_treeWf h.wf).config
      maps := h.graft_maps hg hs
      counters := h.graft_counters hs hg
      symbols := h.graft_symbols hs hg
      numbers := h.graft_range hs hg
      entry := h.graft_shape hs hg
      placed := h.graft_placed hs hg }

end Graft
end Sys2Proof.Machine
end

section
/-! A coded symbol keeps the tree's check: UPDATE starts from a tree that lacks the root's count alone, and ends in one
that lacks nothing (41_insert_update.md R150, R164, R168, 40_encode_decode.md R101). -/

namespace Sys2Proof.Machine

section Totals
variable {cfg : Config} {t g : CodeTree} {sym : Symbol} {old : Node}

/-- A write that keeps an entry's symbol and count keeps the leaves' total. -/
theorem leafTotal_modNode (t : CodeTree) (h : Handle) {f : Node → Node} (hf : ∀ x, leafCount (f x) = leafCount x) :
    (t.modNode h f).leafTotal = t.leafTotal := by
  rw [leafTotal_eq, leafTotal_eq]
  congr 1
  refine List.ext_getElem? fun i => ?_
  rw [modNode_arena, List.getElem?_map, List.getElem?_map, List.getElem?_modify]
  cases t.arena[i]? with
  | none => rfl
  | some x => by_cases hi : h.toNat = i <;> simp [hi, hf]

/-- The new leaf is counted once (R131 step S3). -/
theorem graft_leafTotal (hg : graft sym t = some g) : g.leafTotal = t.leafTotal + 1 := by
  obtain ⟨old, t2, -, hsp, rfl⟩ := graft_eq_some.1 hg
  have hsplice : t2.leafTotal = (allocate t sym old).leafTotal := by
    rcases splice_cases hsp with ⟨-, rfl⟩ | ⟨-, pn, -, rfl⟩
    · rfl
    · exact leafTotal_modNode _ _ fun x => by simp [leafCount]
  calc (t2.modNode t.nyt ({ · with live := false, isNyt := false })).leafTotal
      = t2.leafTotal := leafTotal_modNode _ _ fun _ => rfl
    _ = (allocate t sym old).leafTotal := hsplice
    _ = t.leafTotal + 1 := by simp [leafTotal_eq, allocate, leafCount, newNyt, newLeaf, newInternal]

/-- A tree without symbols has no leaf to count. -/
theorem Shaped.leafTotal_empty (hs : Shaped cfg t) (hn : t.symMap.length = 0) : t.leafTotal = 0 := by
  have hlen := hs.arena_length
  rw [leafTotal_eq]
  refine List.sum_eq_zero fun c hc => ?_
  obtain ⟨x, hx, rfl⟩ := List.mem_map.1 hc
  obtain ⟨i, hi, rfl⟩ := List.getElem_of_mem hx
  have hnode := (node?_ofNat t (i := i) (by omega)).trans (List.getElem?_eq_getElem hi)
  refine if_neg fun hv => ?_
  obtain ⟨h2, -⟩ := hs.leaf_of_symv hnode hv
  rw [BitVec.toNat_ofNat] at h2
  omega

/-- The root after the graft is the new internal node on an empty tree, and otherwise has its count (R131). -/
theorem OldNyt.graft_root_count (h : OldNyt cfg t old) (hs : t.symEntry sym = NONE) (hg : graft sym t = some g) :
    ∃ r, LiveAt g g.root r ∧ ((t.symMap.length = 0 ∧ r.count = 1) ∨
      (t.symMap.length ≠ 0 ∧ ∃ r0, t.node? t.root = some r0 ∧ r.count = r0.count)) := by
  rw [h.graft_root hg]
  obtain ⟨hn, -, hnone, -⟩ | ⟨hn, hroot, -, p, hp, -⟩ := h.place
  · obtain ⟨-, -, e2⟩ := h.graft_new hs hg
    rw [if_pos hnone]
    exact ⟨_, ⟨e2, rfl⟩, .inl ⟨hn, rfl⟩⟩
  · have hnyt : t.root ≠ t.nyt := by
      obtain ⟨-, h0⟩ := (shaped_of_treeWf h.wf).nyt_handle
      rintro e
      rw [← e] at h0
      omega
    obtain ⟨r, hr⟩ := treeWf_root_live h.wf
    obtain ⟨y, hy, -, -, hyc⟩ := (Grafted.kept (sym := sym) (old := old) hnyt hr).liveAt h hs hg
    rw [if_neg (treeWf_ne_none h.wf hp.1)]
    exact ⟨y, hy, .inr ⟨hn, r, hr.1, hyc⟩⟩

/-- The grafted tree has its root to count (R133, R164). -/
theorem OldNyt.balanced_graft (h : OldNyt cfg t old) (hs : t.symEntry sym = NONE) (hg : graft sym t = some g) :
    Balanced (t.nextHandle + 2) g := by
  obtain ⟨-, -, e2⟩ := h.graft_new hs hg
  obtain ⟨-, -, hne⟩ := h.new_ne hs (.inl rfl)
  obtain ⟨r, hr, hcount⟩ := h.graft_root_count hs hg
  refine ⟨r, hr, ?_⟩
  rw [if_neg hne, atLeaf, e2, graft_leafTotal hg, Option.any_some]
  obtain ⟨hn, h1⟩ | ⟨hn, r0, hr0, hr0c⟩ := hcount
  · rw [h1, (shaped_of_treeWf h.wf).leafTotal_empty hn]
    rfl
  · obtain ⟨-, -, -, -, -, -, -, hrc⟩ := (treeWf_iff _ _).1 h.wf
    obtain ⟨r', hr', hcount, -⟩ := (wfRootCount_iff _ _ _).1 hrc
    rw [hr0c, node?_unique hr0 hr', hcount, if_neg hn]
    rfl

end Totals

section Starts
variable {cfg : Config} {t t' : CodeTree} {x : Handle}

/-- Where UPDATE starts, and what its tree lacks (R150). -/
structure Started (cfg : Config) (x : Handle) (t : CodeTree) : Prop where
  standing : Standing cfg x t
  balanced : Balanced x t
  start : ∃ nd, LiveAt t x nd
  symbols : t.symMap.length ≠ 0
  size : t.arena.length ≤ numHandles

theorem Shaped.size_le (hs : Shaped cfg t) : t.arena.length ≤ numHandles := by
  have hlen := hs.arena_length
  have hle := hs.length_le
  unfold numHandles
  omega

theorem started_of_leaf {leaf : Node} (hw : treeWf cfg t = true) (hx : t.node? x = some leaf)
    (hv : leaf.symv = true) : Started cfg x t := by
  have hs := shaped_of_treeWf hw
  obtain ⟨h2, hleaf⟩ := hs.leaf_of_symv hx hv
  obtain ⟨hlive, -, -, -, -, h1, -⟩ := (wfSymbolLeaf_iff _ _ _).1 hleaf
  have hn : t.symMap.length ≠ 0 := by
    have hlt := lt_of_node? hx
    have hlen := hs.arena_length
    omega
  obtain ⟨-, -, -, -, -, -, -, hrc⟩ := (treeWf_iff _ _).1 hw
  obtain ⟨r, hr, hcount, -⟩ := (wfRootCount_iff _ _ _).1 hrc
  obtain ⟨r', hr'⟩ := treeWf_root_live hw
  obtain rfl := node?_unique hr'.1 hr
  refine ⟨⟨(climb_of_treeWf hw).start ⟨hx, hlive⟩ h1, hs⟩, ⟨r', hr', ?_⟩, ⟨leaf, hx, hlive⟩, hn, hs.size_le⟩
  rw [if_neg hn] at hcount
  rw [if_neg (hs.ne_none hx), atLeaf, hx, Option.any_some, hv, hcount]
  rfl

theorem started_of_graft {g : CodeTree} {sym : Symbol} (hw : treeWf cfg t = true) (hs : t.symEntry sym = NONE)
    (hg : graft sym t = some g) : Started cfg (t.nextHandle + 2) g := by
  obtain ⟨old, ho, -⟩ := treeWf_nyt hw
  have hold := treeWf_oldNyt hw ho
  obtain ⟨-, -, e2⟩ := hold.graft_new hs hg
  have hst := hold.standing_graft hs hg
  exact ⟨hst, hold.balanced_graft hs hg, ⟨_, e2, rfl⟩, hold.graft_length hs hg ▸ Nat.succ_ne_zero _,
    hst.shaped.size_le⟩

theorem UpdateStart.started (h : UpdateStart cfg t x) : Started cfg x t := by
  obtain ⟨hw, leaf, hx, hv⟩ | ⟨t0, sym, hw, hs, hg, rfl⟩ := h
  · exact started_of_leaf hw hx hv
  · exact started_of_graft hw hs hg

theorem Started.update_isSome (h : Started cfg x t) : ∃ t', update cfg x t = some t' :=
  h.standing.climb.update_isSome h.standing.shaped.anchored h.size

/-- UPDATE ends in a well-formed tree when the root has room for one more count (R101, R150). -/
theorem Started.treeWf_update (h : Started cfg x t) (hu : update cfg x t = some t')
    (hroom : ∀ r, t.node? t.root = some r → r.count < cfg.countMax) : treeWf cfg t' = true := by
  have hst := h.standing.walk_standing hu
  have hframe := update_frame hu
  refine treeWf_of_shaped hst.shaped hst.climb ((wfRootCount_iff _ _ _).2 ?_)
  obtain ⟨r, hr, hcount⟩ := h.standing.walk_balanced hu h.balanced
  obtain ⟨r0, hr0, -⟩ := h.balanced
  have hlt := hroom r0 hr0.1
  obtain ⟨y, hy, hpass⟩ := update_progress hu h.standing.climb _ _ hr0.1
  rw [hframe.root] at hr
  obtain rfl := node?_unique hy hr.1
  refine ⟨y, hframe.root ▸ hr.1, ?_, ?_⟩
  · rw [hframe.symMap, if_neg h.symbols]
    rw [if_pos rfl, atLeaf, hst.climb.none_absent] at hcount
    simpa using hcount
  · rcases hpass.count with hc | ⟨hc, -⟩ <;> omega

/-- A coded symbol keeps the tree well-formed when the root is not saturated (R100, R101, R115). -/
theorem treeWf_codeSymbol {sym : Symbol} {leaf : Handle} (hw : treeWf cfg t = true)
    (hsat : saturated cfg t = false) (h : codeSymbol cfg sym t = some (t', leaf)) : treeWf cfg t' = true := by
  obtain ⟨hcfg, -, -, -, -, -, -, hrc⟩ := (treeWf_iff _ _).1 hw
  obtain ⟨r, hr, -, hle⟩ := (wfRootCount_iff _ _ _).1 hrc
  rw [saturated_eq_decide hr] at hsat
  have hlt : r.count < cfg.countMax := lt_of_le_of_ne hle (of_decide_eq_false hsat)
  by_cases hs : t.symEntry sym = NONE
  · rw [codeSymbol_of_absent hs] at h
    obtain ⟨-, g, hg, hu⟩ := insert_eq_some.1 h
    obtain ⟨old, ho, -⟩ := treeWf_nyt hw
    obtain ⟨rg, hrg, hcount⟩ := (treeWf_oldNyt hw ho).graft_root_count hs hg
    refine (started_of_graft hw hs hg).treeWf_update hu fun r' hr' => ?_
    obtain rfl := node?_unique hr' hrg.1
    obtain ⟨-, h1⟩ | ⟨-, r0, hr0, hr0c⟩ := hcount
    · have := three_le_countMax cfg hcfg
      omega
    · rwa [hr0c, node?_unique hr0 hr]
  · obtain ⟨hu, -⟩ := (codeSymbol_of_present hs).1 h
    obtain ⟨nd, hn, -, hv, -⟩ := treeWf_symEntry hw hs
    refine (started_of_leaf hw hn.1 hv).treeWf_update hu fun r' hr' => ?_
    rwa [node?_unique hr' hr]

end Starts
end Sys2Proof.Machine
end

section
/-! Every step keeps the invariant: what a response, a fault and a coded symbol do to it, and then each command
(41_insert_update.md R160 to R168, 10_state.md R29, R30, R32; log entries 5 and 13). -/

namespace Sys2Proof.Machine

/-- After a coded symbol SYMMAP names its leaf (R26, R29). -/
theorem codeSymbol_symEntry {cfg : Config} {t t' : CodeTree} {sym : Symbol} {leaf : Handle}
    (hw : treeWf cfg t = true) (h : codeSymbol cfg sym t = some (t', leaf)) :
    t'.symEntry sym = leaf ∧ leaf ≠ NONE := by
  by_cases hs : t.symEntry sym = NONE
  · rw [codeSymbol_of_absent hs] at h
    obtain ⟨-, -, -, hmap, -, rfl⟩ := insert_frame h
    obtain ⟨old, ho, -⟩ := treeWf_nyt hw
    obtain ⟨-, hne, -⟩ := (treeWf_oldNyt hw ho).new_ne hs (.inl rfl)
    refine ⟨?_, hne⟩
    rw [CodeTree.symEntry, hmap, read_write_self_of_ne _ _ _ hne]
  · obtain ⟨hu, rfl⟩ := (codeSymbol_of_present hs).1 h
    exact ⟨by rw [CodeTree.symEntry, (update_frame hu).symMap]; rfl, hs⟩

/-- A recorded fault keeps the invariant if it is one that can have been raised there (R212; log entry 5). -/
theorem inv_raise {s : State} {c : Fault} (n : Nat) (hs : s.inv = true)
    (hc : s.fault = false → wfFirstFault { s with errCode := c.code } = true) : (raise c n s).inv = true := by
  cases hf : s.fault
  case true =>
    rw [raise_of_faulted hf]
    exact hs
  case false =>
    obtain ⟨hfifo, -, htree, hlast, -, hsession⟩ := (inv_iff s).1 hs
    obtain ⟨h1, h7⟩ := code_range c
    rw [raise_of_clean hf]
    exact (inv_iff _).2 ⟨hfifo, by simp [wfStatus, h1, h7], htree, hlast, hc hf, hsession⟩

/-- A coded symbol keeps the invariant (R100, R110; log entry 13). -/
theorem inv_commitSymbol {s : State} {sym : Symbol} {t : CodeTree} {leaf : Handle} (hs : s.inv = true)
    (hr : Ready s) (h : codeSymbol s.cfg sym s.tree = some (t, leaf)) :
    (commitSymbol sym t leaf s).inv = true := by
  obtain ⟨hfifo, hstatus, -, -, -, hsession⟩ := (inv_iff s).1 hs
  obtain ⟨hleaf, hne⟩ := codeSymbol_symEntry hr.wf h
  have hmem : (sym.toNat, leaf) ∈ t.symMap := hleaf ▸ mem_of_read t.symMap sym.toNat
    (show t.symEntry sym ≠ NONE from hleaf ▸ hne)
  have hcode : s.errCode = 0 := by simpa [wfStatus, hr.clean] using hstatus
  refine (inv_iff _).2 ⟨hfifo, hstatus, treeWf_codeSymbol hr.wf hr.room h, ?_, ?_, ?_⟩
  · have hnil : t.symMap ≠ [] := List.ne_nil_of_mem hmem
    rw [wfLast, commitSymbol_tree, if_neg hnil]
    exact List.any_eq_true.2 ⟨_, hmem, decide_eq_true rfl⟩
  · simp [wfFirstFault, hcode]
  · exact (wfSession_iff _).2 (codeSession_snoc ((wfSession_iff s).1 hsession) hr.room h)

theorem inv_resetProcedure {s : State} (hs : s.inv = true) : (resetProcedure s).inv = true := by
  obtain ⟨-, -, hw, -⟩ := (inv_iff s).1 hs
  obtain ⟨hcfg, -⟩ := (treeWf_iff _ _).1 hw
  exact initialStateMeetsTheInvariant s.cfg hcfg

section Commands
variable {s t : State} (hs : s.inv = true)
include hs

theorem execEnc_inv {sym : Symbol} (h : execEnc sym s = .next t) : t.inv = true := by
  rcases execEnc_cases h with ⟨-, rfl⟩ | ⟨-, -, hsat, rfl⟩ | ⟨hf, hw, hsat, out, t', leaf, -, hc, rfl⟩
  · exact hs
  · exact inv_raise 0 hs fun _ => hsat
  · exact inv_commitSymbol hs ⟨hf, hw, hsat⟩ hc

/-- The escape that DEC has popped fits in the FIFO beside what it leaves (R32, R113). -/
theorem escapeFitted_of_popped {path fifo : Bits} (hpath : codePath s.tree s.tree.nyt = some path)
    (hfifo : s.inFifo = path ++ fifo) (h8 : 8 ≤ fifo.length) :
    escapeFitted { s with inFifo := fifo.drop 8 } = true := by
  obtain ⟨hle, -⟩ := (inv_iff s).1 hs
  rw [hfifo, List.length_append] at hle
  simp only [escapeFitted, hpath, Option.any_some, List.length_drop, decide_eq_true_eq]
  omega

theorem execDec_inv (h : execDec s = .next t) : t.inv = true := by
  obtain ⟨hle, -⟩ := (inv_iff s).1 hs
  have popped : s.fault = false → ∀ {fifo : Bits}, fifo.length ≤ s.inFifo.length →
      State.inv { s with inFifo := fifo } = true :=
    fun hf _ hlen => inv_of_clean_inFifo hs hf (hlen.trans hle)
  rcases execDec_cases h with ⟨-, rfl⟩ | ⟨-, -, hsat, rfl⟩ | ⟨hf, hw, hsat, ⟨n, -, rfl⟩ |
    ⟨cur, nd, fifo, n, hwalk, hend⟩⟩
  · exact hs
  · exact inv_raise 0 hs fun _ => hsat
  · exact inv_raise n (popped hf (Nat.zero_le _)) fun _ => by simp [wfFirstFault, Fault.code, hsat]
  obtain ⟨path, hpath, hfifo, rfl, hn, hl⟩ := codePath_of_decWalk hw hwalk
  have hlen : fifo.length ≤ s.inFifo.length := by rw [hfifo, List.length_append]; omega
  have hlen8 : (fifo.drop 8).length ≤ s.inFifo.length := by rw [List.length_drop]; omega
  rcases hend with ⟨-, h8, rfl⟩ | ⟨hnyt, h8, hdup, rfl⟩ | ⟨-, -, hnew, t', leaf, hi, rfl⟩ | ⟨hnyt, t', hu, rfl⟩
  · exact inv_raise _ (popped hf hlen) fun _ => by simp [wfFirstFault, Fault.code, hsat, h8]
  · obtain rfl : cur = s.tree.nyt := by
      by_contra hne
      exact absurd ((treeWf_not_nyt hw hn hne).symm.trans hnyt) (by decide)
    have hnil : s.tree.symMap ≠ [] := List.ne_nil_of_mem (mem_of_read _ _ hdup)
    have hfit := escapeFitted_of_popped hs hpath hfifo h8
    have hfirst : (!saturated s.cfg s.tree && decide (s.tree.symMap ≠ []) &&
        escapeFitted { s with inFifo := fifo.drop 8 }) = true := by simp [hsat, hnil, hfit]
    exact inv_raise _ (popped hf hlen8) fun _ => hfirst
  · exact inv_commitSymbol (popped hf hlen8) ⟨hf, hw, hsat⟩ ((codeSymbol_of_absent hnew).trans hi)
  · obtain rfl := treeWf_symEntry_of_leaf hw hn.1 (treeWf_symv_of_leaf hw hn hl hnyt)
    exact inv_commitSymbol (popped hf hlen) ⟨hf, hw, hsat⟩
      ((codeSymbol_of_present (treeWf_ne_none hw hn.1)).2 ⟨hu, rfl⟩)

theorem execPush_inv {n : Nat} {bits : BitVec 8} (hn : n ≤ 8) (h : execPush n bits s = .next t) :
    t.inv = true := by
  rcases execPush_cases n bits s with ⟨-, he⟩ | ⟨-, hover, he⟩ | ⟨hf, hroom, he⟩ <;> cases he.symm.trans h
  · exact hs
  · exact inv_raise 0 hs fun _ => decide_eq_true (show s.cfg.inDepth < s.inFifo.length + 8 by omega)
  · have hpushed : State.inv { s with inFifo := s.inFifo ++ topBits n bits } = true :=
      inv_of_clean_inFifo hs hf (by rwa [List.length_append, topBits_length])
    exact hpushed

/-- A query responds, or raises BAD_HANDLE or BAD_NUMBER, which can be raised in every state (R185, R186). -/
theorem exec_query_inv {i : Instr} (hq : isQuery i = true) (h : exec i s = .next t) : t.inv = true := by
  cases i with
  | reset | enc _ | dec | push _ _ => cases hq
  | rdroot | rdnyt | rdlast | rdsym _ | rdstat => cases h; exact hs
  | rdnode n =>
    obtain ⟨-, rfl⟩ | ⟨-, nd, -, rfl⟩ := execRdnode_cases h
    · exact inv_raise 0 hs fun _ => rfl
    · exact hs
  | code n =>
    obtain ⟨-, ⟨-, rfl⟩ | ⟨-, out, -, rfl⟩⟩ := execCode_cases h
    · exact inv_raise 0 hs fun _ => rfl
    · exact hs
  | rdnum k =>
    simp only [exec, execRdnum] at h
    split at h <;> cases h
    · exact inv_raise 0 hs fun _ => rfl
    · exact hs

/-- A well-formed command keeps the invariant. -/
theorem exec_inv {i : Instr} (hi : i.wellFormed = true) (h : exec i s = .next t) : t.inv = true := by
  cases i with
  | reset =>
    cases h
    exact show (resetProcedure s).inv = true from inv_resetProcedure hs
  | enc sym => exact execEnc_inv hs h
  | dec => exact execDec_inv hs h
  | push n bits =>
    obtain ⟨-, h8⟩ : 1 ≤ n ∧ n ≤ 8 := by simpa [Instr.wellFormed] using hi
    exact execPush_inv hs h8 h
  | rdroot | rdnyt | rdlast | rdsym _ | rdnode _ | code _ | rdnum _ | rdstat => exact exec_query_inv hs rfl h

end Commands

/-- Settles O44: a step waits, runs a decoded command, which is well-formed, or records ILLEGAL_CMD, which can be
raised in every state. -/
theorem everyStepKeepsTheInvariant : Obligations.EveryStepKeepsTheInvariant := by
  intro s t hs h
  obtain ⟨-, ⟨-, rfl⟩ | ⟨w, ws, -, ⟨i, hi, he⟩ | ⟨why, -, rfl⟩⟩⟩ := step_cases h
  · exact hs
  · obtain ⟨hwf, -⟩ := encodeOfDecodeIsTheWord w i hi
    exact exec_inv ((inv_cmds s ws).trans hs) hwf he
  · exact inv_raise 0 ((inv_cmds s ws).trans hs) fun _ => rfl

end Sys2Proof.Machine
end

section
/-! What the check of a tree says of the whole of it: the NYT, the numbers, the counts and the code lengths
(41_insert_update.md R160, R161, R163 to R165). -/

namespace Sys2Proof.Machine

/-- Settles O48: the check of adjacent numbers orders any two live nodes. -/
theorem higherNumberNeverHasTheLowerCount : Obligations.HigherNumberNeverHasTheLowerCount := by
  intro cfg t a b na nb hw ha hb hal hbl hlt
  exact treeWf_order hw ⟨hb, hbl⟩ ⟨ha, hal⟩ hlt

section WellFormed
variable {cfg : Config} {t : CodeTree} (hw : treeWf cfg t = true)
include hw

theorem treeWf_nsym : t.nsym = t.symMap.length := nsym_eq_length (shaped_of_treeWf hw).maps

/-- Only the NYT is marked so (R160). -/
theorem treeWf_isNyt_iff {h : Handle} {nd : Node} (hn : t.node? h = some nd) : nd.isNyt = true ↔ h = t.nyt := by
  constructor
  · intro hnyt
    have marked : nd.isNyt ≠ false := by simp [hnyt]
    rcases treeWf_entry hw hn with he | he | ⟨he, -⟩ | he
    · obtain ⟨-, hno, -⟩ := (wfSymbolLeaf_iff _ _ _).1 he
      exact absurd hno marked
    · obtain ⟨-, hno, -⟩ := (wfInternal_iff _ _ _).1 he
      exact absurd hno marked
    · exact he
    · obtain ⟨-, hno, -⟩ := (wfHistorical_iff _ _ _).1 he
      exact absurd hno marked
  · rintro rfl
    obtain ⟨old, ho, hold⟩ := treeWf_nyt hw
    obtain ⟨-, hnyt, -⟩ := (wfNyt_iff _ _ _ _).1 hold
    rwa [node?_unique hn ho]

/-- A dead entry was never counted (R134). -/
theorem treeWf_dead_count {h : Handle} {nd : Node} (hn : t.node? h = some nd) (hd : nd.live = false) :
    nd.count = 0 := by
  have dead : nd.live ≠ true := by simp [hd]
  rcases treeWf_entry hw hn with he | he | ⟨-, he⟩ | he
  · obtain ⟨hl, -⟩ := (wfSymbolLeaf_iff _ _ _).1 he
    exact absurd hl dead
  · obtain ⟨hl, -⟩ := (wfInternal_iff _ _ _).1 he
    exact absurd hl dead
  · obtain ⟨hl, -⟩ := (wfNyt_iff _ _ _ _).1 he
    exact absurd hl dead
  · obtain ⟨-, -, -, -, hc, -⟩ := (wfHistorical_iff _ _ _).1 he
    exact hc

/-- The root has the highest number, and so the highest count (R161, R163). -/
theorem treeWf_count_le_root {r : Node} (hr : LiveAt t t.root r) {h : Handle} {nd : Node}
    (hn : t.node? h = some nd) : nd.count ≤ r.count := by
  cases hl : nd.live
  case false =>
    rw [treeWf_dead_count hw hn hl]
    exact Nat.zero_le _
  case true =>
    obtain ⟨-, htop⟩ := treeWf_root_place hw hr
    obtain ⟨hname, hle, -⟩ := treeWf_named hw ⟨hn, hl⟩
    rcases Nat.lt_or_eq_of_le hle with hlt | heq
    · exact treeWf_order hw ⟨hn, hl⟩ hr (by omega)
    · obtain ⟨hroot, -⟩ := treeWf_named hw hr
      rw [heq, ← htop, hroot] at hname
      subst hname
      rw [node?_unique hn hr.1]

/-- A live node counts more than each of its children (R164 (e)). -/
theorem treeWf_child_count {h c : Handle} {nd ch : Node} (hn : t.node? h = some nd)
    (hc : c = nd.left ∨ c = nd.right) (hch : t.node? c = some ch) : ch.count < nd.count := by
  have hne := treeWf_ne_none hw hch
  have hint := treeWf_internal hw hn (hc.imp (ne_of_eq_of_ne ·.symm hne) (ne_of_eq_of_ne ·.symm hne))
  obtain ⟨-, -, -, -, hleft, hright, -⟩ := (wfInternal_iff _ _ _).1 hint
  have hchild : wfChild t h.toNat nd c = true := by
    rcases hc with rfl | rfl
    · exact hleft
    · exact hright
  obtain ⟨ch', hch', -, -, -, hlt⟩ := (wfChild_iff _ _ _ _).1 hchild
  rwa [node?_unique hch hch']

end WellFormed

/-- Settles O49: the order of allocation fixes which entry is the NYT and which the root. -/
theorem exactlyOneNytAndItIsALeftLeaf : Obligations.ExactlyOneNytAndItIsALeftLeaf := by
  intro cfg t hw
  obtain ⟨old, ho, hold⟩ := treeWf_nyt hw
  obtain ⟨hlive, -, -, -, hcount, -, hl, hr, -⟩ := (wfNyt_iff _ _ _ _).1 hold
  have hplace := (treeWf_oldNyt hw ho).place
  rw [treeWf_nsym hw]
  refine ⟨fun h nd hn => treeWf_isNyt_iff hw hn, ⟨old, ho, hlive, hl, hr, hcount, fun h0 => ?_, fun h0 => ?_⟩, ?_⟩
  · obtain ⟨-, hroot, -⟩ | ⟨hne, -⟩ := hplace
    · exact hroot.symm
    · exact absurd h0 hne
  · obtain ⟨hn, -⟩ | ⟨-, -, -, p, hp, hleft⟩ := hplace
    · exact absurd hn h0
    · exact ⟨p, hp.1, hleft⟩
  · obtain ⟨r, hroot, -⟩ := treeWf_root_live hw
    have hleaf := (shaped_of_treeWf hw).root_not_leaf
    rw [atLeaf, hroot, Option.any_some] at hleaf
    exact ⟨r, hroot, hleaf⟩

/-- Settles O50: the root has the highest number, and the check compares each internal node with its children. -/
theorem noCountExceedsTheRoots : Obligations.NoCountExceedsTheRoots := by
  intro cfg t r hw hr
  obtain ⟨-, -, -, -, -, -, -, hrc⟩ := (treeWf_iff _ _).1 hw
  obtain ⟨r', hr', -, hmax⟩ := (wfRootCount_iff _ _ _).1 hrc
  obtain ⟨r'', hlive⟩ := treeWf_root_live hw
  obtain rfl := node?_unique hr' hr
  obtain rfl := node?_unique hlive.1 hr
  exact ⟨hmax, fun h nd hn => treeWf_count_le_root hw hlive hn,
    fun h nd c ch hn _ hc hch => treeWf_child_count hw hn hc hch⟩

/-- Settles O51: NUMMAP lists exactly the range, and names the live node of each number. -/
theorem liveNumbersAreOneUniqueRange : Obligations.LiveNumbersAreOneUniqueRange := by
  intro cfg t hw
  have hs := shaped_of_treeWf hw
  rw [treeWf_nsym hw]
  refine ⟨fun h nd hn hl => ?_, fun k hlo hhi => ?_, fun k hk => ?_, fun nd hn => ?_, fun nd hn => ?_⟩
  · obtain ⟨hname, hle, hge⟩ := treeWf_named hw ⟨hn, hl⟩
    exact ⟨hge, hle, hname⟩
  · obtain ⟨nd, hn, hnum, -⟩ := hs.numbered (climb_of_treeWf hw) hlo hhi
    exact ⟨nd, hn.1, hn.2, hnum⟩
  · by_contra hne
    obtain ⟨hlo, -⟩ := (hs.numbers k).1 hne
    omega
  · exact (treeWf_oldNyt hw hn).number
  · obtain ⟨r, hr⟩ := treeWf_root_live hw
    rw [node?_unique hn hr.1]
    exact (treeWf_root_place hw hr).2

/-- Settles O52: each step up a path goes to another of the NSYM internal entries. -/
theorem codeLengthsAreAtMostNsym : Obligations.CodeLengthsAreAtMostNsym := by
  intro cfg t x nd hw hn hl
  obtain ⟨path, hpath, hlen⟩ := treeWf_codePath hw ⟨hn, hl⟩
  rw [treeWf_nsym hw]
  exact ⟨path, hpath, hlen, treeWf_length_le hw⟩

end Sys2Proof.Machine
end

section
/-! FIND_CANDIDATE's scan compares the count of every node numbered above cur's, down to the one it answers
(41_insert_update.md R140). -/

namespace Sys2Proof.Machine

/-- NUMMAP names no node by `j`, or one whose count is not `w`. -/
def OtherCount (t : CodeTree) (w j : Nat) : Prop :=
  t.numEntry j ≠ NONE → ∃ x, t.node? (t.numEntry j) = some x ∧ x.count ≠ w

/-- What the scan over the numbers above `lo` up to `k` has found when it answers `c`. -/
def Scanned (t : CodeTree) (w : Nat) (c : Handle) (lo k : Nat) : Prop :=
  (c = NONE ∧ ∀ j, lo < j → j ≤ k → OtherCount t w j) ∨
    ∃ j x, lo < j ∧ j ≤ k ∧ t.numEntry j = c ∧ c ≠ NONE ∧ t.node? c = some x ∧ x.count = w ∧
      ∀ i, j < i → i ≤ k → OtherCount t w i

theorem Scanned.extend {t : CodeTree} {w lo k : Nat} {c : Handle} (h : Scanned t w c lo k)
    (hk : OtherCount t w (k + 1)) : Scanned t w c lo (k + 1) := by
  have upTo : ∀ i, (i ≤ k → OtherCount t w i) → i ≤ k + 1 → OtherCount t w i := by
    intro i hi hik
    rcases Nat.le_or_eq_of_le_succ hik with hle | rfl
    · exact hi hle
    · exact hk
  rcases h with ⟨hc, hno⟩ | ⟨j, x, hlo, hj, hc, hne, hx, hw, hno⟩
  · exact .inl ⟨hc, fun j hj => upTo j (hno j hj)⟩
  · exact .inr ⟨j, x, hlo, hj.trans (Nat.le_succ k), hc, hne, hx, hw, fun i hi => upTo i (hno i hi)⟩

theorem scanned_of_scanNumbers {t : CodeTree} {w lo : Nat} {c : Handle} : ∀ {steps : Nat},
    scanNumbers t w steps (lo + steps) = some c → Scanned t w c lo (lo + steps) := by
  intro steps
  induction steps with
  | zero =>
    intro h
    exact .inl ⟨(Option.some.inj h).symm, fun j h1 h2 => absurd h1 (Nat.not_lt.2 h2)⟩
  | succ steps ih =>
    intro h
    rw [scanNumbers, ← Nat.add_assoc, Nat.add_sub_cancel] at h
    split at h
    · next he => exact (ih h).extend fun hne => absurd he hne
    · next he =>
      split at h
      · cases h
      · next x hx =>
        split_ifs at h with hw
        · cases h
          exact .inr ⟨_, x, by omega, le_rfl, rfl, he, hx, hw, fun i h1 h2 => absurd h1 (Nat.not_lt.2 h2)⟩
        · exact (ih h).extend fun _ => ⟨x, hx, hw⟩

/-- Settles O38: on a well-formed tree the scan meets live nodes alone; whatever it answers, it has gone past nothing
but empty entries and other counts. -/
theorem candidateIsTheHighestNodeOfEqualCount : Obligations.CandidateIsTheHighestNodeOfEqualCount := by
  refine ⟨fun cfg t cur nd hw hn => (climb_of_treeWf hw).findCandidate_isSome hn, fun cfg t cur c nd hn hf => ?_⟩
  obtain ⟨nd', hn', hscan⟩ := findCandidate_eq_some.1 hf
  obtain rfl := node?_unique hn' hn
  rcases Nat.le_total nd'.number.toNat cfg.maxNumber with hle | hge
  · obtain ⟨steps, hmax⟩ := Nat.exists_eq_add_of_le hle
    rw [hmax, Nat.add_sub_cancel_left] at hscan
    rw [hmax]
    exact scanned_of_scanNumbers hscan
  · rw [Nat.sub_eq_zero_of_le hge] at hscan
    exact .inl ⟨(Option.some.inj hscan).symm, fun k h1 h2 => by omega⟩

end Sys2Proof.Machine
end

section
/-! SWAP on any two nodes whose parents are there: the entries and map entries it writes, and no others
(41_insert_update.md R145, R146). -/

namespace Sys2Proof.Machine

section Swap
variable {t : CodeTree} {a b : Handle} {na nb pa pb : Node}

/-- The tree after the writes of R145, the slots found before either is written. -/
def swapped (t : CodeTree) (a b : Handle) (na nb pa pb : Node) : CodeTree :=
  ((((((t.modNode na.parent (·.setSlot (slotOf pa a) b)).modNode nb.parent
    (·.setSlot (slotOf pb b) a)).modNode a
    ({ · with parent := nb.parent, number := nb.number })).modNode b
    ({ · with parent := na.parent, number := na.number })).setNum nb.number a).setNum na.number b)

theorem swap_eq_swapped (ha : t.node? a = some na) (hb : t.node? b = some nb) (hpa : t.node? na.parent = some pa)
    (hpb : t.node? nb.parent = some pb) : swap t a b = some (swapped t a b na nb pa pb) :=
  swap_eq_some.2 ⟨na, nb, pa, pb, ha, hb, hpa, hpb, rfl⟩

theorem swapped_node?_other {h : Handle} (h1 : h ≠ a) (h2 : h ≠ b) (h3 : h ≠ na.parent) (h4 : h ≠ nb.parent) :
    (swapped t a b na nb pa pb).node? h = t.node? h := by
  simp only [swapped, node?_setNum, node?_modNode, h1.symm, h2.symm, h3.symm, h4.symm, if_false]

/-- NUMMAP after a swap (R145). -/
theorem swapped_numEntry (ha : a ≠ NONE) (hb : b ≠ NONE) (k : Nat) : (swapped t a b na nb pa pb).numEntry k =
    if na.number.toNat = k then b else if nb.number.toNat = k then a else t.numEntry k := by
  rw [swapped, numEntry_setNum _ _ _ _ hb, numEntry_setNum _ _ _ _ ha]
  rfl

theorem swapped_numEntry_other (ha : a ≠ NONE) (hb : b ≠ NONE) {k : Nat} (h1 : k ≠ na.number.toNat)
    (h2 : k ≠ nb.number.toNat) : (swapped t a b na nb pa pb).numEntry k = t.numEntry k := by
  rw [swapped_numEntry ha hb, if_neg h1.symm, if_neg h2.symm]

theorem swapped_numEntry_left (ha : a ≠ NONE) (hb : b ≠ NONE) :
    (swapped t a b na nb pa pb).numEntry na.number.toNat = b := by
  rw [swapped_numEntry ha hb, if_pos rfl]

theorem swapped_numEntry_right (ha : a ≠ NONE) (hb : b ≠ NONE) (hne : na.number ≠ nb.number) :
    (swapped t a b na nb pa pb).numEntry nb.number.toNat = a := by
  rw [swapped_numEntry ha hb, if_neg fun e => hne (BitVec.eq_of_toNat_eq e), if_pos rfl]

theorem swapped_frame : SameFrame t (swapped t a b na nb pa pb) :=
  ⟨rfl, rfl, rfl, rfl, rfl, by simp [swapped]⟩

end Swap

/-- A write to the slot that holds `k`, or to the right one where neither does (R145). -/
theorem setSlot_slotOf (p : Node) (k c : Handle) :
    p.setSlot (slotOf p k) c = if p.left = k then { p with left := c } else { p with right := c } := by
  unfold slotOf
  split <;> rfl

/-- Settles O39: the four entries are four, so each of the writes of R145 stands. -/
theorem swapExchangesPositionsAndNumbers : Obligations.SwapExchangesPositionsAndNumbers := by
  intro t a b na nb pa pb han hbn hab ha hb hpa hpb hpp haa hab' hba hbb hnum
  have f := swapped_frame (t := t) (a := a) (b := b) (na := na) (nb := nb) (pa := pa) (pb := pb)
  refine ⟨_, swap_eq_swapped ha hb hpa hpb, ?_, ?_, ?_, ?_, fun h h1 h2 h3 h4 => swapped_node?_other h1 h2 h3 h4,
    swapped_numEntry_right han hbn hnum, swapped_numEntry_left han hbn,
    fun k h1 h2 => swapped_numEntry_other han hbn h1 h2, f.symMap, f.root, f.nyt, f.nextHandle, f.nextNum, f.size⟩
  · simp [swapped, ha, hab.symm, haa, hba]
  · simp [swapped, hb, hab, hab', hbb]
  · simp [swapped, hpa, haa.symm, hab'.symm, hpp.symm, setSlot_slotOf]
  · simp [swapped, hpb, hba.symm, hbb.symm, hpp, setSlot_slotOf]

/-- Settles O40: both slots are found before either is written, so the parent's two writes exchange its children. -/
theorem siblingSwapExchangesTheTwoChildren : Obligations.SiblingSwapExchangesTheTwoChildren := by
  intro t a b p na nb pn han hbn hab hpa hpb ha hb hp hap hbp hnum hchildren
  have f := swapped_frame (t := t) (a := a) (b := b) (na := na) (nb := nb) (pa := pn) (pb := pn)
  refine ⟨_, swap_eq_swapped ha hb (hap ▸ hp) (hbp ▸ hp), ?_, ?_, ?_,
    fun h h1 h2 h3 => swapped_node?_other h1 h2 (hap ▸ h3) (hbp ▸ h3),
    swapped_numEntry_right han hbn hnum, swapped_numEntry_left han hbn,
    fun k h1 h2 => swapped_numEntry_other han hbn h1 h2, f.symMap, f.root, f.nyt, f.nextHandle, f.nextNum, f.size⟩
  · obtain ⟨hl, hr⟩ | ⟨hl, hr⟩ := hchildren
    · simp [swapped, hp, hap, hbp, hpa.symm, hpb.symm, slotOf, hl, hr, hab, Node.setSlot]
    · simp [swapped, hp, hap, hbp, hpa.symm, hpb.symm, slotOf, hl, hr, hab.symm, Node.setSlot]
  · simp [swapped, ha, hap, hbp, hab.symm, hpa]
  · simp [swapped, hb, hap, hbp, hab, hpb]

end Sys2Proof.Machine
end

section
/-! Down from a node by the bits of a path-code the numbers fall: so a swap candidate is no ancestor and no descendant
(41_insert_update.md R141, R162, R166). -/

namespace Sys2Proof.Machine

section Below
variable {cfg : Config} {t : CodeTree}

/-- Below NONE lies nothing (R22). -/
theorem Shaped.follow_none (hs : Shaped cfg t) {x : Handle} {y : Node} (hx : t.node? x = some y) (bits : Bits) :
    follow t NONE bits ≠ some x := by
  cases bits with
  | nil => exact fun h => hs.ne_none hx (Option.some.inj h).symm
  | cons b bits =>
    intro h
    obtain ⟨nd, hn, -⟩ := Option.bind_eq_some_iff.1 (show (t.node? NONE).bind _ = some x from h)
    exact hs.ne_none hn rfl

/-- A node that is passed on the way to another is internal, and its child is next. -/
theorem Shaped.follow_step (hs : Shaped cfg t) {h x : Handle} {y : Node} {b : Bool} {bits : Bits}
    (hx : t.node? x = some y) (hf : follow t h (b :: bits) = some x) : ∃ nd ch, LiveAt t h nd ∧
      LiveAt t (nd.child b) ch ∧ ch.parent = h ∧ follow t (nd.child b) bits = some x := by
  obtain ⟨nd, hn, hrest⟩ := Option.bind_eq_some_iff.1 (show (t.node? h).bind _ = some x from hf)
  have hne : nd.child b ≠ NONE := fun e => hs.follow_none hx bits (e ▸ hrest)
  obtain ⟨hbr, -⟩ := hs.branch hn hne
  obtain ⟨ch, hch, hpar⟩ := hbr.child b
  exact ⟨nd, ch, ⟨hn, hbr.live⟩, hch, hpar, hrest⟩

variable {cur : Handle}

/-- The numbers fall on the way down (R162). -/
theorem Standing.follow_number (s : Standing cfg cur t) {x : Handle} {y : Node} (hx : LiveAt t x y) :
    ∀ {bits : Bits} {h : Handle}, follow t h bits = some x →
      ∃ z, LiveAt t h z ∧ y.number.toNat ≤ z.number.toNat := by
  intro bits
  induction bits with
  | nil =>
    intro h hf
    obtain rfl := Option.some.inj hf
    exact ⟨y, hx, le_rfl⟩
  | cons b bits ih =>
    intro h hf
    obtain ⟨nd, ch, hn, hch, hpar, hrest⟩ := s.shaped.follow_step hx.1 hf
    obtain ⟨z, hz, hle⟩ := ih hrest
    obtain rfl := hz.unique hch
    subst hpar
    have hlt := s.climb.number_lt_parent hch hn.1
    exact ⟨nd, hn, hle.trans hlt.le⟩

/-- What lies properly above `x` on the way down lies at its parent or above. -/
theorem Standing.follow_proper (s : Standing cfg cur t) {x : Handle} {y : Node} (hx : LiveAt t x y) {h : Handle}
    {bits : Bits} (hf : follow t h bits = some x) (hne : h ≠ x) :
    ∃ p z, LiveAt t y.parent p ∧ LiveAt t h z ∧ p.number.toNat ≤ z.number.toNat := by
  rcases List.eq_nil_or_concat bits with rfl | ⟨init, b, rfl⟩
  · exact absurd (Option.some.inj hf) hne
  rw [List.concat_eq_append, follow_append] at hf
  obtain ⟨q, hq, hlast⟩ := Option.bind_eq_some_iff.1 hf
  obtain ⟨nd, ch, hn, hch, hpar, hrest⟩ := s.shaped.follow_step hx.1 hlast
  obtain rfl := Option.some.inj hrest
  obtain rfl := hch.unique hx
  subst hpar
  obtain ⟨z, hz, hle⟩ := s.follow_number hn hq
  exact ⟨nd, z, hn, hz, hle⟩

/-- Everything R166 says of a candidate that the walk finds. -/
structure Apart (t : CodeTree) (x c : Handle) (nd : Node) : Prop where
  ne : c ≠ x
  not_parent : c ≠ nd.parent
  not_root : c ≠ t.root
  start_not_root : x ≠ t.root
  not_above : ∀ bits, follow t c bits ≠ some x
  not_below : ∀ bits, follow t x bits ≠ some c

/-- The candidate stands above `cur` and below its parent, so neither is on the way down to the other. -/
theorem Standing.apart (s : Standing cfg cur t) {c : Handle} {nd nc : Node} (h : Swappable t cur c nd nc) :
    Apart t cur c nd := by
  obtain ⟨hcur, hc⟩ := s.climb.swap_ne_root s.shaped h
  refine ⟨h.ne.symm, h.not_parent.symm, hc, hcur, fun bits hf => ?_, fun bits hf => ?_⟩
  · obtain ⟨p, z, hp, hz, hle⟩ := s.follow_proper h.cur hf h.ne.symm
    obtain rfl := hz.unique h.cand
    obtain ⟨q, hq, hnum, hcnt, hlast⟩ := s.climb.parent h.cur (s.climb.ne_none hp.1)
    have hbelow := s.climb.below_parent h hq hnum hcnt hlast
    rw [hq.unique hp] at hbelow
    omega
  · obtain ⟨z, hz, hle⟩ := s.follow_number h.cand hf
    rw [hz.unique h.cur] at hle
    exact absurd h.higher (by omega)

/-- Where the walk stands after some iterations. -/
theorem Standing.walkAfter : ∀ {k : Nat} {cur : Handle} {t : CodeTree} {p : Handle × CodeTree},
    Standing cfg cur t → walkAfter cfg k cur t = some p → Standing cfg p.1 p.2 := by
  intro k
  induction k with
  | zero =>
    intro cur t p s h
    obtain rfl := Option.some.inj h
    exact s
  | succ k ih =>
    intro cur t p s h
    obtain ⟨hne, q, hq, h⟩ := walkAfter_succ.1 h
    obtain ⟨s', -⟩ := s.walkStep hne hq
    exact ih s' h

end Below

/-- A live node with a candidate has been counted: no other live node has the NYT's count (R160). -/
theorem treeWf_counted_of_candidate {cfg : Config} {t : CodeTree} {x c : Handle} {nd : Node}
    (hw : treeWf cfg t = true) (hn : LiveAt t x nd) (hf : findCandidate cfg t x = some c) (hne : c ≠ NONE) :
    1 ≤ nd.count := by
  by_contra hcount
  have nyt_of_zero : ∀ {h y}, LiveAt t h y → y.count = 0 → h = t.nyt := by
    intro h y hy h0
    by_contra hh
    have := treeWf_one_le_count hw hy (treeWf_not_nyt hw hy hh)
    omega
  obtain ⟨hnone, -⟩ | ⟨k, y, hk, hmax, hkc, -, hy, hyc, -⟩ :=
    candidateIsTheHighestNodeOfEqualCount.2 cfg t x c nd hn.1 hf
  · exact hne hnone
  obtain ⟨z, hz, hzk⟩ := treeWf_numbered hw (hkc ▸ hne)
  rw [hkc] at hz
  obtain rfl := node?_unique hz.1 hy
  obtain rfl : c = x := (nyt_of_zero hz (by omega)).trans (nyt_of_zero hn (by omega)).symm
  rw [node?_unique hn.1 hy] at hk
  omega

/-- Settles O53: a counted live node stands as the walk would, and at every iteration the walk stands so; its
candidate can be swapped with it and lies apart from it. -/
theorem candidateIsNeverAnAncestorOrDescendant : Obligations.CandidateIsNeverAnAncestorOrDescendant := by
  refine ⟨fun cfg t x c nd hw hn hl hf hne => ?_, fun cfg t t' start cur c k nd hstart hwalk hn hf hne => ?_⟩
  · have h1 := treeWf_counted_of_candidate hw ⟨hn, hl⟩ hf hne
    have s : Standing cfg x t := ⟨(climb_of_treeWf hw).start ⟨hn, hl⟩ h1, shaped_of_treeWf hw⟩
    obtain ⟨nc, h⟩ := s.climb.swappable ⟨hn, hl⟩ hf hne
    obtain ⟨h1, h2, h3, h4, h5, h6⟩ := s.apart h
    exact ⟨h1, h2, h3, h4, h5, h6⟩
  · have s : Standing cfg cur t' := hstart.started.standing.walkAfter hwalk
    obtain ⟨nd', hlive, -⟩ := s.climb.counted (s.climb.ne_none hn)
    obtain rfl := node?_unique hlive.1 hn
    obtain ⟨nc, h⟩ := s.climb.swappable hlive hf hne
    obtain ⟨h1, h2, h3, h4, h5, h6⟩ := s.apart h
    exact ⟨by simp [swapAllowed, hne, h1, h2], h3, h4, h5, h6, s.climb.swap_isSome s.shaped.anchored h⟩

end Sys2Proof.Machine
end

section
/-! The path of UPDATE's start is the way of its path-code down from the root, and INSERT's three new nodes after
UPDATE (41_insert_update.md R131 to R134, R150 to R152, R170). -/

namespace Sys2Proof.Machine

section Path
variable {cfg : Config} {t : CodeTree}

/-- The path-code of a node leads from the root down to it, and its beginnings to the nodes of the way up from it
(R170, R171). -/
theorem Shaped.follow_upward (s : Shaped cfg t) {x : Handle} {hs : List Handle} (hup : Upward t x hs) :
    ∀ {nd : Node} {fuel : Nat} {path : Bits}, LiveAt t x nd → codePathFrom t fuel x [] = some path →
      follow t t.root path = some x ∧
        ∀ h, (∃ k, k ≤ path.length ∧ follow t t.root (path.take k) = some h) ↔ h ∈ hs := by
  induction hup with
  | top => exact fun hn => absurd rfl (s.ne_none hn.1)
  | @up x nd' hs hx hrest ih =>
    intro nd fuel path hn hpath
    obtain rfl := node?_unique hx hn.1
    cases fuel with
    | zero => cases hpath
    | succ fuel =>
    obtain ⟨nd, hn', hend⟩ := codePathFrom_succ.1 hpath
    obtain rfl := node?_unique hn' hx
    obtain ⟨rfl, hnone, -⟩ | ⟨-, p, b, hp, hb⟩ := s.placed hn
    · obtain ⟨-, rfl⟩ | ⟨hne, -⟩ := hend
      · rw [hnone] at hrest
        cases hrest with
        | top => simp [follow, eq_comm]
        | up hno => exact absurd rfl (s.ne_none hno)
      · exact absurd hnone hne
    · obtain ⟨hnone, -⟩ | ⟨-, q, hq, hclimb⟩ := hend
      · exact absurd hnone (s.ne_none hp.1)
      obtain rfl := node?_unique hp.1 hq
      obtain ⟨init, rfl, -, hinit⟩ := codePathFrom_append hclimb
      obtain ⟨hfollow, hiff⟩ := ih hp hinit
      have hbit : p.child (decide (slotOf p x = .right)) = x := by
        by_cases hl : p.left = x
        · simp [slotOf, hl, Node.child]
        · have hr : p.right = x := (Node.child_left_or_right.1 ⟨b, hb⟩).resolve_left hl
          simp [slotOf, hl, hr, Node.child]
      have hwhole : follow t t.root (init ++ [decide (slotOf p x = .right)]) = some x := by
        rw [follow_append, hfollow, Option.bind_some, follow_cons hp.1]
        exact congrArg some hbit
      refine ⟨hwhole, fun h => ?_⟩
      rw [List.mem_cons, ← hiff]
      constructor
      · rintro ⟨k, hk, hkf⟩
        rw [List.length_append, List.length_singleton] at hk
        rcases Nat.le_or_eq_of_le_succ hk with hk | rfl
        · exact .inr ⟨k, hk, by rwa [List.take_append_of_le_length hk] at hkf⟩
        · rw [List.take_of_length_le (by simp), hwhole] at hkf
          exact .inl (Option.some.inj hkf).symm
      · rintro (rfl | ⟨k, hk, hkf⟩)
        · exact ⟨_, le_rfl, by rwa [List.take_length]⟩
        · exact ⟨k, by rw [List.length_append]; omega, by rwa [List.take_append_of_le_length hk]⟩

end Path

section Update
variable {cfg : Config} {t t' : CodeTree} {x : Handle}

/-- UPDATE's start has a path-code in the tree that UPDATE leaves, whose nodes UPDATE has counted (R150, R170). -/
theorem Started.update_path (h : Started cfg x t) (hu : update cfg x t = some t') :
    ∃ path, codePath t' x = some path ∧ ∀ k y, t.node? k = some y → ∃ y', t'.node? k = some y' ∧
      (((∃ j, j ≤ path.length ∧ follow t' t'.root (path.take j) = some k) ∧ y'.count = y.count + 1) ∨
        ((∀ j, j ≤ path.length → follow t' t'.root (path.take j) ≠ some k) ∧ y'.count = y.count)) := by
  have s := h.standing.walk_standing hu
  obtain ⟨nd, hn⟩ := h.start
  obtain ⟨y, hy, -⟩ := h.standing.walk_start hu hn
  obtain ⟨hs, hup, hcount⟩ := h.standing.walk_counts hu
  have hsize := s.shaped.size_le
  have hleft := climbLeft_le t' x
  unfold numHandles at hsize
  obtain ⟨path, hpath, -⟩ := s.climb.codePathFrom_isSome s.shaped.anchored (fuel := maxCodeLen + 1) [] hy
    (by unfold maxCodeLen; omega)
  rw [List.append_nil] at hpath
  obtain ⟨-, hiff⟩ := s.shaped.follow_upward hup hy hpath
  refine ⟨path, hpath, fun k z hz => ?_⟩
  obtain ⟨z', hz', hzc⟩ := hcount k z hz
  refine ⟨z', hz', ?_⟩
  by_cases hk : k ∈ hs
  · rw [if_pos hk] at hzc
    exact .inl ⟨(hiff k).2 hk, hzc⟩
  · rw [if_neg hk] at hzc
    exact .inr ⟨fun j hj hf => hk ((hiff k).1 ⟨j, hj, hf⟩), hzc⟩

end Update

/-- Settles O23: each iteration counts the node it stands at, which no later one moves, and goes on to its parent. -/
theorem updateAddsOneAlongThePathAfterTheSwaps : Obligations.UpdateAddsOneAlongThePathAfterTheSwaps := by
  intro cfg t x hstart
  obtain ⟨t', hu⟩ := hstart.started.update_isSome
  obtain ⟨path, hpath, hcount⟩ := hstart.started.update_path hu
  refine ⟨t', path, hu, hpath, fun h nd hn => ?_⟩
  obtain ⟨nd', hn', ⟨⟨k, hk, hf⟩, hc⟩ | ⟨hoff, hc⟩⟩ := hcount h nd hn
  · exact ⟨nd', hn', fun _ => hc, fun hno => absurd hf (hno k hk)⟩
  · exact ⟨nd', hn', fun ⟨k, hk, hf⟩ => absurd hf (hoff k hk), fun _ => hc⟩

section Insert
variable {cfg : Config} {t g t' : CodeTree} {sym : Symbol} {old : Node}

/-- The numbers of the new NYT and leaf as NEXT_NUM gives them (R132). -/
theorem OldNyt.new_numbers (h : OldNyt cfg t old) (hs : t.symEntry sym = NONE) :
    (newNyt t).number = BitVec.ofInt 10 (t.nextNum.toInt - 1) ∧
      (newLeaf t sym).number = BitVec.ofInt 10 t.nextNum.toInt := by
  obtain ⟨hleaf, hnyt⟩ := h.numbers hs
  have hnum := h.number
  obtain ⟨-, -, hnext, -⟩ := (wfCounters_iff _ _ _).1 (shaped_of_treeWf h.wf).counters
  constructor <;> refine BitVec.eq_of_toNat_eq ?_ <;> rw [BitVec.toNat_ofInt] <;> omega

/-- UPDATE after the graft leaves all entries below the new internal node, the old NYT among them, and counts
the new internal node a second time (R133, R134). -/
theorem OldNyt.insert_entries (h : OldNyt cfg t old) (hs : t.symEntry sym = NONE) (hg : graft sym t = some g)
    (hu : update cfg (t.nextHandle + 2) g = some t') :
    t'.node? t.nextHandle = some (newNyt t) ∧ t'.node? (t.nextHandle + 1) = some (newLeaf t sym) ∧
      (∃ nI, t'.node? (t.nextHandle + 2) = some nI ∧
        nI = { newInternal t old with count := 2, number := nI.number, parent := nI.parent }) ∧
      t'.node? t.nyt = some { old with live := false, isNyt := false } := by
  have s := h.standing_graft hs hg
  obtain ⟨e0, e1, e2⟩ := h.graft_new hs hg
  obtain ⟨hleaf, hnyt⟩ := h.numbers hs
  have below : ∀ {k x}, LiveAt g k x → x.number.toNat < old.number.toNat → t'.node? k = some x := by
    intro k x hx hlt
    refine s.walk_untouched hu hx fun nd hn => ?_
    rw [node?_unique hn e2]
    exact hlt
  obtain ⟨y, hy, hye⟩ := s.walk_start hu ⟨e2, rfl⟩
  have hold := h.graft_retired hg
  obtain ⟨z, hz, hpass⟩ := update_progress hu s.climb _ _ hold
  refine ⟨below ⟨e0, rfl⟩ (by omega), below ⟨e1, rfl⟩ (by omega), ⟨y, hy.1, hye⟩, ?_⟩
  rw [hz, hpass.untouched (.inl rfl)]

end Insert

/-- Settles O22: the graft places the three nodes, and UPDATE counts the internal one and leaves the other two,
which stand below it, and the old NYT, which is dead. -/
theorem insertPlacesTheThreeNewNodes : Obligations.InsertPlacesTheThreeNewNodes := by
  intro cfg t sym old hw hs ho
  have h := treeWf_oldNyt hw ho
  obtain ⟨t', hi⟩ := treeWf_insert_isSome hw hs
  obtain ⟨-, g, hg, hu⟩ := insert_eq_some.1 hi
  obtain ⟨e0, e1, ⟨nI, e2, hnI⟩, eold⟩ := h.insert_entries hs hg hu
  obtain ⟨hnyt, hleaf⟩ := h.new_numbers hs
  obtain ⟨hnext, -, hnytReg, -, hlen, -⟩ := insert_frame hi
  have f := update_frame hu
  have hsym : ∀ sym', t'.symEntry sym' = if sym = sym' then t.nextHandle + 1 else t.symEntry sym' := by
    intro sym'
    rw [← graft_symEntry h hs hg, CodeTree.symEntry, f.symMap]
    rfl
  have hnum : t'.nextNum.toInt = t.nextNum.toInt - 2 := by
    obtain ⟨-, -, hnum, -⟩ := (wfCounters_iff _ _ _).1 (shaped_of_treeWf hw).counters
    obtain ⟨-, -, hnum', -⟩ := (wfCounters_iff _ _ _).1 (h.graft_counters hs hg)
    rw [h.graft_length hs hg] at hnum'
    rw [f.nextNum, hnum', hnum]
    push_cast
    omega
  refine ⟨t', nI, hi, ?_, ?_, e2, ?_⟩
  · rw [e0, ← hnyt]
    rfl
  · rw [e1, ← hleaf]
    rfl
  rw [hnI]
  exact ⟨rfl, rfl, rfl, rfl, rfl, rfl, eold, hnytReg, hnext, hnum, hlen, f.root.trans (h.graft_root hg),
    (hsym sym).trans (if_pos rfl), fun sym' hne => (hsym sym').trans (if_neg hne.symm)⟩
end Sys2Proof.Machine
end

section
/-! The counts are the session's: each coded symbol counts its leaf and the root once more (41_insert_update.md R164,
10_state.md R26; log entry 13). -/

namespace Sys2Proof.Machine

section Walk
variable {cfg : Config} {t t' : CodeTree} {cur x : Handle}

/-- The walk counts no symbol leaf but the one it starts at: it goes on to internal nodes (R150). -/
theorem Standing.walk_leaf {fuel : Nat} (s : Standing cfg cur t) (h : updateWalk cfg fuel cur t = some t') :
    ∀ {k z}, t.node? k = some z → z.symv = true → k ≠ cur → ∃ y, t'.node? k = some y ∧ y.count = z.count := by
  refine s.walk_induct (P := fun cur t => ∀ {k z}, t.node? k = some z → z.symv = true → k ≠ cur →
    ∃ y, t'.node? k = some y ∧ y.count = z.count) (fun _ {k z} hz _ _ => ⟨z, hz, rfl⟩) ?_ h
  intro cur t t1 nd σ fuel s i hn s1 _ ih k z hz hv hk
  obtain ⟨w, -, hy⟩ := i.entry hz
  obtain ⟨hleaf, -⟩ := s1.next_place hn
  rw [if_neg hk] at hy
  have hnext : k ≠ nd.parent := by
    rintro rfl
    rw [atLeaf, hy, Option.any_some] at hleaf
    exact absurd (hv.symm.trans hleaf) (by decide)
  exact ih (z := z.moved w σ 0) hy hv hnext

/-- The symbol leaves after UPDATE, of which the start alone has been counted. -/
theorem Started.update_leaf (h : Started cfg x t) (hu : update cfg x t = some t') {k : Handle} {y : Node}
    (hy : t'.node? k = some y) (hv : y.symv = true) : ∃ z, t.node? k = some z ∧ z.symv = true ∧ z.sym = y.sym ∧
      y.count = z.count + if k = x then 1 else 0 := by
  obtain ⟨z, hz⟩ : ∃ z, t.node? k = some z :=
    ⟨_, List.getElem?_eq_getElem ((update_frame hu).size ▸ lt_of_node? hy)⟩
  obtain ⟨y', hy', hpass⟩ := update_progress hu h.standing.climb _ _ hz
  obtain rfl := node?_unique hy' hy
  have hzv := hpass.symv.symm.trans hv
  refine ⟨_, hz, hzv, hpass.sym.symm, ?_⟩
  by_cases hk : k = x
  · subst hk
    obtain ⟨nd, hn⟩ := h.start
    obtain ⟨w, hw, hwe⟩ := h.standing.walk_start hu hn
    rw [if_pos rfl, node?_unique hz hn.1, node?_unique hy hw.1, hwe]
  · obtain ⟨w, hw, hwc⟩ := h.standing.walk_leaf hu hz hzv hk
    rw [if_neg hk, node?_unique hy hw, hwc]
    rfl

/-- UPDATE counts the root (R150). -/
theorem Started.update_root (h : Started cfg x t) (hu : update cfg x t = some t') {r : Node}
    (hr : t'.node? t'.root = some r) : ∃ r0, t.node? t.root = some r0 ∧ r.count = r0.count + 1 := by
  obtain ⟨r0, hr0, -⟩ := h.balanced
  obtain ⟨path, -, hcount⟩ := h.update_path hu
  rw [(update_frame hu).root] at hr
  obtain ⟨r', hr', ⟨-, hc⟩ | ⟨hoff, -⟩⟩ := hcount _ _ hr0.1
  · exact ⟨r0, hr0.1, node?_unique hr hr' ▸ hc⟩
  · exact absurd (congrArg some (update_frame hu).root) (hoff 0 (Nat.zero_le _))

end Walk

/-- The tree's counts are those of the symbols `coded`. -/
structure Tallied (t : CodeTree) (coded : List Symbol) : Prop where
  leaf : ∀ {h nd}, t.node? h = some nd → nd.symv = true → nd.count = coded.count nd.sym
  root : ∀ {r}, t.node? t.root = some r → r.count = if coded = [] then 0 else coded.length + 1
  known : ∀ sym, t.symEntry sym ≠ NONE ↔ sym ∈ coded
  empty : t.symMap.length = 0 ↔ coded = []

theorem tallied_initial (cfg : Config) : Tallied (CodeTree.initial cfg) [] where
  leaf {h nd} hn hv := by
    obtain rfl : nd = Node.initial cfg.maxNumber := by
      have hmem := List.mem_of_getElem? hn
      simpa [CodeTree.initial] using hmem
    cases hv
  root {r} hr := by
    cases hr
    rfl
  known sym := by simp [initial_symEntry]
  empty := by simp [CodeTree.initial]

section Coded
variable {cfg : Config} {t t' : CodeTree} {sym : Symbol} {coded : List Symbol}

theorem Tallied.root_snoc (h : Tallied t coded) (hn : t.symMap.length ≠ 0) {r0 : Node}
    (hr0 : t.node? t.root = some r0) (sym : Symbol) :
    r0.count + 1 = if coded ++ [sym] = [] then 0 else (coded ++ [sym]).length + 1 := by
  rw [h.root hr0, if_neg fun e => hn (h.empty.2 e)]
  simp

/-- A repeat counts the symbol's leaf. -/
theorem Tallied.update (h : Tallied t coded) (hw : treeWf cfg t = true) (hs : t.symEntry sym ≠ NONE)
    (hu : update cfg (t.symEntry sym) t = some t') : Tallied t' (coded ++ [sym]) := by
  obtain ⟨nd, hn, -, hv, hsym, -⟩ := treeWf_symEntry hw hs
  have hstart := started_of_leaf hw hn.1 hv
  have f := update_frame hu
  refine ⟨fun {k y} hy hyv => ?_, fun {r} hr => ?_, fun sym' => ?_, ?_⟩
  · obtain ⟨z, hz, hzv, hzs, hc⟩ := hstart.update_leaf hu hy hyv
    have hk : k = t.symEntry sym ↔ sym = y.sym := by
      constructor
      · rintro rfl
        rw [← hzs, ← node?_unique hn.1 hz, hsym]
      · rintro rfl
        rw [← hzs, treeWf_symEntry_of_leaf hw hz hzv]
    rw [hc, h.leaf hz hzv, hzs, List.count_append, List.count_singleton]
    simp only [hk, beq_iff_eq]
  · obtain ⟨r0, hr0, hc⟩ := hstart.update_root hu hr
    rw [hc]
    exact h.root_snoc hstart.symbols hr0 sym
  · rw [CodeTree.symEntry, f.symMap, ← CodeTree.symEntry, h.known, List.mem_append, List.mem_singleton]
    refine ⟨.inl, ?_⟩
    rintro (hmem | rfl)
    · exact hmem
    · exact (h.known sym').1 hs
  · rw [f.symMap]
    exact iff_of_false hstart.symbols (by simp)

/-- The symbol leaves after the graft: the new one has been counted once, the others as before. -/
theorem Tallied.graft_leaf {g : CodeTree} {old : Node} (h : Tallied t coded) (hw : treeWf cfg t = true)
    (hold : OldNyt cfg t old) (hs : t.symEntry sym = NONE) (hg : graft sym t = some g) {k : Handle} {z : Node}
    (hz : g.node? k = some z) (hv : z.symv = true) :
    k ≠ t.nextHandle + 2 ∧ z.count = (coded ++ [sym]).count z.sym := by
  have hfresh : sym ∉ coded := fun hmem => (h.known sym).2 hmem hs
  rw [List.count_append, List.count_singleton]
  rcases hold.graft_cases hs hg hz with ⟨-, rfl⟩ | ⟨rfl, rfl⟩ | ⟨-, rfl⟩ | ⟨-, rfl⟩ | ⟨-, rfl, p, hp, rfl⟩ |
    ⟨-, -, hz'⟩
  · cases hv
  · refine ⟨fun e => ?_, ?_⟩
    · obtain ⟨-, -, hinternal⟩ := hold.graft_new hs hg
      rw [e, hinternal] at hz
      cases hz
    · simp [newLeaf, List.count_eq_zero.2 hfresh]
  · cases hv
  · obtain ⟨-, -, hno, -⟩ := (wfNyt_iff _ _ _ _).1 hold.wfNyt
    exact absurd (hv.symm.trans hno) (by decide)
  · obtain ⟨q, b, hq, -, hbr, -⟩ := (shaped_of_treeWf hw).parent_branch hold.here (treeWf_ne_none hw hp.1)
    exact absurd (hv.symm.trans (hp.unique hq ▸ hbr.symv)) (by decide)
  · have hsym := treeWf_symEntry_of_leaf hw hz' hv
    have hother : sym ≠ z.sym := fun e => treeWf_ne_none hw hz' (hsym.symm.trans (e ▸ hs))
    obtain ⟨-, -, hne⟩ := hold.new_ne hs (.inr ⟨z, hz'⟩)
    exact ⟨hne.symm, by simp [h.leaf hz' hv, hother]⟩

/-- A first occurrence makes a leaf that has been counted once. -/
theorem Tallied.insert {leaf : Handle} (h : Tallied t coded) (hw : treeWf cfg t = true) (hs : t.symEntry sym = NONE)
    (hi : insert cfg sym t = some (t', leaf)) : Tallied t' (coded ++ [sym]) := by
  obtain ⟨-, g, hg, hu⟩ := insert_eq_some.1 hi
  obtain ⟨old, ho, -⟩ := treeWf_nyt hw
  have hold := treeWf_oldNyt hw ho
  have hstart := started_of_graft hw hs hg
  have f := update_frame hu
  refine ⟨fun {k y} hy hyv => ?_, fun {r} hr => ?_, fun sym' => ?_, ?_⟩
  · obtain ⟨z, hz, hzv, hzs, hc⟩ := hstart.update_leaf hu hy hyv
    obtain ⟨hk, hzc⟩ := h.graft_leaf hw hold hs hg hz hzv
    rw [hc, if_neg hk, hzc, hzs]
    rfl
  · obtain ⟨r0, hr0, hc⟩ := hstart.update_root hu hr
    obtain ⟨rg, hrg, hcount⟩ := hold.graft_root_count hs hg
    obtain rfl := node?_unique hr0 hrg.1
    obtain ⟨hn, h1⟩ | ⟨hn, r1, hr1, hr1c⟩ := hcount
    · rw [hc, h1, h.empty.1 hn]
      rfl
    · rw [hc, hr1c]
      exact h.root_snoc hn hr1 sym
  · rw [CodeTree.symEntry, f.symMap, ← CodeTree.symEntry, graft_symEntry hold hs hg, List.mem_append,
      List.mem_singleton]
    split_ifs with he
    · obtain ⟨-, hne, -⟩ := hold.new_ne hs (.inl rfl)
      exact iff_of_true hne (.inr he.symm)
    · rw [h.known]
      exact ⟨.inl, fun hmem => hmem.resolve_right (Ne.symm he)⟩
  · rw [f.symMap, hold.graft_length hs hg]
    exact iff_of_false (Nat.succ_ne_zero _) (by simp)

theorem Tallied.codeSymbol {leaf : Handle} (h : Tallied t coded) (hw : treeWf cfg t = true)
    (hc : codeSymbol cfg sym t = some (t', leaf)) : Tallied t' (coded ++ [sym]) := by
  by_cases hs : t.symEntry sym = NONE
  · exact h.insert hw hs ((codeSymbol_of_absent hs).symm.trans hc)
  · obtain ⟨hu, -⟩ := (codeSymbol_of_present hs).1 hc
    exact h.update hw hs hu

/-- A session's tree is well-formed, and tallied by its symbols (R168). -/
theorem tallied_codeSession : ∀ {syms coded : List Symbol} {p q : CodeTree × Handle}, treeWf cfg p.1 = true →
    Tallied p.1 coded → codeSession cfg syms p = some q → Tallied q.1 (coded ++ syms) := by
  intro syms
  induction syms with
  | nil =>
    intro coded p q _ h hq
    cases hq
    rwa [List.append_nil]
  | cons sym syms ih =>
    intro coded p q hw h hq
    obtain ⟨hsat, m, hm, hq⟩ := codeSession_cons.1 hq
    have hrest := ih (treeWf_codeSymbol hw hsat hm) (h.codeSymbol hw hm) hq
    rwa [List.append_assoc] at hrest

end Coded

theorem tallied_of_inv {s : State} (hs : s.inv = true) : Tallied s.tree s.coded := by
  obtain ⟨-, -, hw, -, -, hsession⟩ := (inv_iff s).1 hs
  obtain ⟨hcfg, -⟩ := (treeWf_iff _ _).1 hw
  have h := tallied_codeSession (p := (CodeTree.initial s.cfg, NONE)) (initial_treeWf hcfg) (tallied_initial s.cfg)
    ((wfSession_iff s).1 hsession)
  rwa [List.nil_append] at h

/-- Settles O46: the tree is that of the session, each of whose symbols added one to its leaf and to the root. -/
theorem countsAreThoseOfTheSession : Obligations.CountsAreThoseOfTheSession := by
  intro s hs
  have h := tallied_of_inv hs
  exact ⟨fun _ _ hn hv => h.leaf hn hv, fun _ hr => h.root hr, h.known⟩

end Sys2Proof.Machine
end

section
/-! The round trip: a decoder that differs from the encoder in FIFO and response alone makes the encoder's tree changes,
symbol by symbol (30_encoding.md R91, R92, 40_encode_decode.md R115, 41_insert_update.md R169). -/

namespace Sys2Proof.Machine

/-- Every codeword has a bit: an escape has its payload, and a symbol leaf is not the root (R102). -/
theorem treeWf_codeword_pos {cfg : Config} {t : CodeTree} {sym : Symbol} {out : Bits} (hw : treeWf cfg t = true)
    (ho : codeword sym t = some out) : 1 ≤ out.length := by
  by_cases hs : t.symEntry sym = NONE
  · obtain ⟨path, -, rfl⟩ := (codeword_of_absent hs).1 ho
    rw [List.length_append, bitsMsb8_length]
    omega
  · exact treeWf_symbol_code_pos hw hs ((codeword_of_present hs).symm.trans ho)

/-- A symbol has a codeword and a tree change (R100). -/
theorem treeWf_codeSymbol_isSome {cfg : Config} {t : CodeTree} (hw : treeWf cfg t = true) (sym : Symbol) :
    ∃ out t' leaf, codeword sym t = some out ∧ codeSymbol cfg sym t = some (t', leaf) := by
  obtain ⟨out, ho, -⟩ := treeWf_codeword hw sym
  by_cases hs : t.symEntry sym = NONE
  · obtain ⟨t', ht⟩ := treeWf_insert_isSome hw hs
    exact ⟨out, t', _, ho, (codeSymbol_of_absent hs).trans ht⟩
  · obtain ⟨t', ht⟩ := treeWf_update_isSome hw hs
    exact ⟨out, t', _, ho, (codeSymbol_of_present hs).2 ⟨ht, rfl⟩⟩

/-- While fewer symbols than COUNT_MAX - 1 have been coded, the root has room for one more (R101, R164). -/
theorem ready_of_coded {s : State} (hs : s.inv = true) (hf : s.fault = false)
    (hroom : s.coded.length + 1 < s.cfg.countMax) : Ready s := by
  obtain ⟨-, -, hw, -⟩ := (inv_iff s).1 hs
  obtain ⟨r, hr, -⟩ := treeWf_root_live hw
  refine ready_of_count hf hw hr ?_
  rw [(tallied_of_inv hs).root hr]
  split_ifs <;> omega

/-- The decoder: the engine `s` with another FIFO and response. -/
def State.withFifo (s : State) (fifo : Bits) (r : Option Response) : State := { s with inFifo := fifo, resp := r }

@[simp] theorem withFifo_resp (s : State) (fifo : Bits) (r : Option Response) : (s.withFifo fifo r).resp = r := rfl

section Decoder
variable {s : State} {fifo : Bits} {r : Option Response} (hs : s.inv = true) (hf : s.fault = false)
  (hfifo : fifo.length ≤ s.cfg.inDepth)
include hs hf hfifo

theorem inv_withFifo : (s.withFifo fifo r).inv = true := inv_of_clean_inFifo hs hf hfifo

/-- RDSTAT reports an empty FIFO exactly when it is empty (R31, R187). -/
theorem issue_rdstat : ∃ st,
    issue (encode .rdstat) (s.withFifo fifo r) = .next (s.withFifo fifo (some (.okStatus st))) ∧
    (statusInCount st = 0 ↔ fifo = []) := by
  obtain ⟨-, -, hw, -⟩ := (inv_iff s).1 hs
  obtain ⟨hcfg, -⟩ := (treeWf_iff _ _).1 hw
  obtain ⟨-, -, -, -, hdepth⟩ := (config_wf_iff _).1 hcfg
  refine ⟨_, issue_encode (inv_withFifo hs hf hfifo) rfl, ?_⟩
  have hsmall : fifo.length < 2 ^ 16 := by omega
  rw [statusInCount, statusWord_inCount, ← BitVec.toNat_inj]
  change (BitVec.ofNat 16 fifo.length).toNat = 0 ↔ _
  rw [BitVec.toNat_ofNat, Nat.mod_eq_of_lt hsmall, List.length_eq_zero_iff]

/-- DECALL is done at an empty FIFO (R92). -/
theorem decall_done {fuel : Nat} {acc : List Symbol} (hnil : fifo = []) : ∃ r',
    decall (fuel + 1) acc (s.withFifo fifo r) =
      some { out := acc, stopped := none, final := s.withFifo fifo r' } := by
  obtain ⟨st, hst, hempty⟩ := issue_rdstat hs hf hfifo (r := r)
  exact ⟨some (.okStatus st), by simp only [decall, hst, withFifo_resp, if_pos (hempty.2 hnil)]⟩

end Decoder

section RoundTrip
variable {s : State} {sym : Symbol} {out : Bits} {t : CodeTree} {leaf : Handle} (hs : s.inv = true) (hr : Ready s)
  (ho : codeword sym s.tree = some out) (hc : codeSymbol s.cfg sym s.tree = some (t, leaf))
include hs hr ho hc

/-- ENCS of one more symbol (R91). -/
theorem encs_cons (syms : List Symbol) (acc : Bits) : encs (sym :: syms) acc s =
    encs syms (acc ++ out) (respond (okBitsOf out) (commitSymbol sym t leaf s)) := by
  have hissue : issue (encode (.enc sym)) s = .next (respond (okBitsOf out) (commitSymbol sym t leaf s)) :=
    (issue_encode hs rfl).trans (hr.execEnc_eq ho hc)
  simp only [encs, hissue, respond_resp, okBitsOf]

/-- DECALL of one more codeword leaves the encoder's engine behind the codeword (R92, R115). -/
theorem decall_cons {fuel : Nat} {acc : List Symbol} {rest : Bits} {r : Option Response}
    (hfifo : (out ++ rest).length ≤ s.cfg.inDepth) : ∃ r', decall (fuel + 1) acc (s.withFifo (out ++ rest) r) =
      decall fuel (acc ++ [sym]) ((respond (okBitsOf out) (commitSymbol sym t leaf s)).withFifo rest r') := by
  obtain ⟨st, hst, hempty⟩ := issue_rdstat hs hr.clean hfifo (r := r)
  have hne : statusInCount st ≠ 0 := fun h0 => by
    have hpos := treeWf_codeword_pos hr.wf ho
    have hnil := congrArg List.length (hempty.1 h0)
    rw [List.length_append, List.length_nil] at hnil
    omega
  have hready : Ready (s.withFifo (out ++ rest) (some (.okStatus st))) := ⟨hr.clean, hr.wf, hr.room⟩
  have hdec : issue (encode .dec) (s.withFifo (out ++ rest) (some (.okStatus st))) =
      .next ((respond (okBitsOf out) (commitSymbol sym t leaf s)).withFifo rest
        (some (.okSym sym (BitVec.ofNat 9 out.length)))) :=
    (issue_encode (i := .dec) (inv_withFifo hs hr.clean hfifo) rfl).trans (hready.execDec_eq ho hc rfl)
  exact ⟨some (.okSym sym (BitVec.ofNat 9 out.length)), by
    simp only [decall, hst, withFifo_resp, if_neg hne, hdec]⟩

end RoundTrip

/-- DECALL of `stream`, on the engine `s` with that FIFO, answers `syms` and ends in the engine `a` but for the
response, the FIFO being empty. -/
def Decodes (s : State) (stream : Bits) (syms : List Symbol) (a : State) : Prop :=
  ∀ fuel acc r, stream.length < fuel → ∃ r',
    decall fuel acc (s.withFifo stream r) = some { out := acc ++ syms, stopped := none, final := a.withFifo [] r' }

theorem decodes_nil {s : State} (hs : s.inv = true) (hf : s.fault = false) : Decodes s [] [] s := by
  intro fuel acc r hfuel
  obtain ⟨fuel, rfl⟩ := Nat.exists_eq_succ_of_ne_zero (Nat.ne_zero_of_lt hfuel)
  obtain ⟨r', hdone⟩ := decall_done hs hf (Nat.zero_le _) rfl (r := r)
  exact ⟨r', by rw [List.append_nil, hdone]⟩

section RoundTrip
variable {s a : State} {sym : Symbol} {syms : List Symbol} {out stream : Bits} {t : CodeTree} {leaf : Handle}

theorem decodes_cons (hs : s.inv = true) (hr : Ready s) (ho : codeword sym s.tree = some out)
    (hc : codeSymbol s.cfg sym s.tree = some (t, leaf)) (hfits : (out ++ stream).length ≤ s.cfg.inDepth)
    (hrest : Decodes (respond (okBitsOf out) (commitSymbol sym t leaf s)) stream syms a) :
    Decodes s (out ++ stream) (sym :: syms) a := by
  intro fuel acc r hfuel
  obtain ⟨fuel, rfl⟩ := Nat.exists_eq_succ_of_ne_zero (Nat.ne_zero_of_lt hfuel)
  obtain ⟨r₁, hstep⟩ := decall_cons hs hr ho hc hfits (r := r)
  have hpos := treeWf_codeword_pos hr.wf ho
  rw [List.length_append] at hfuel
  obtain ⟨r₂, hend⟩ := hrest fuel (acc ++ [sym]) r₁ (by omega)
  exact ⟨r₂, by rw [hstep, hend, List.append_assoc, List.singleton_append]⟩

end RoundTrip

/-- What ENCS writes decodes to its symbols, while the counts do not saturate (R91, R92, R101). -/
theorem encs_decodes (syms : List Symbol) : ∀ {s : State} (out : Bits), s.inv = true → s.fault = false →
    s.coded.length + syms.length < s.cfg.countMax → ∃ stream a,
      encs syms out s = some { out := out ++ stream, stopped := none, final := a } ∧ a.fault = false ∧
      (stream.length ≤ s.cfg.inDepth → Decodes s stream syms a) := by
  induction syms with
  | nil => exact fun {s} out hs hf _ => ⟨[], s, by rw [List.append_nil, encs], hf, fun _ => decodes_nil hs hf⟩
  | cons sym syms ih =>
    intro s out hs hf hroom
    rw [List.length_cons] at hroom
    have hr : Ready s := ready_of_coded hs hf (by omega)
    obtain ⟨word, t, leaf, ho, hc⟩ := treeWf_codeSymbol_isSome hr.wf sym
    have hnext : (s.coded ++ [sym]).length + syms.length < s.cfg.countMax := by
      rw [List.length_append, List.length_singleton]
      omega
    obtain ⟨stream, a, henc, hclean, hdec⟩ := ih (s := respond (okBitsOf word) (commitSymbol sym t leaf s))
      (out ++ word) (inv_commitSymbol hs hr hc) hf hnext
    refine ⟨word ++ stream, a, by rw [encs_cons hs hr ho hc, henc, List.append_assoc], hclean, fun hfits => ?_⟩
    refine decodes_cons hs hr ho hc hfits (hdec (le_trans ?_ hfits))
    rw [List.length_append]
    exact Nat.le_add_left ..

/-- Settles O58: the two engines start alike, and PUSHS loads the decoder's FIFO with the stream. -/
theorem encodeThenDecodeRoundTrip : Obligations.EncodeThenDecodeRoundTrip := by
  intro cfg syms hcfg hlen
  have hinit := initialStateMeetsTheInvariant cfg hcfg
  have hroom : (State.init cfg).coded.length + syms.length < cfg.countMax := by simpa using hlen
  obtain ⟨stream, a, henc, hclean, hdec⟩ := encs_decodes syms [] hinit rfl hroom
  refine ⟨stream, a, henc, fun hfits => ?_⟩
  have hpush := pushsAppendsTheWholeString _ stream hinit rfl (le_of_eq_of_le (Nat.zero_add _) hfits)
  obtain ⟨r, hend⟩ := hdec hfits (stream.length + 1) [] _ (Nat.lt_succ_self _)
  exact ⟨_, a.withFifo [] r, hpush, hend, rfl, rfl, rfl, hclean⟩

end Sys2Proof.Machine
end

section
/-! CODE of a live node answers its path-code, which leads from the root to the node; any other handle is refused
(42_code_path.md R170 to R172). -/

namespace Sys2Proof.Machine

/-- Settles O41: a live node has a path-code, whose bits undo the walk up from the node. -/
theorem followingACodeFromTheRootArrives : Obligations.FollowingACodeFromTheRootArrives := by
  intro cfg t x nd hw hn hl
  obtain ⟨path, hpath, -⟩ := treeWf_codePath hw ⟨hn, hl⟩
  exact ⟨path, hpath, follow_codePath hw ⟨hn, hl⟩ hpath⟩

/-- A raise sets FAULT and keeps the first code (R211, R212). -/
theorem raise_eq (c : Fault) (n : Nat) (s : State) :
    raise c n s = { s with fault := true,
                           errCode := if s.fault then s.errCode else c.code,
                           resp := some (.err c (BitVec.ofNat 9 n)) } := by
  cases hs : s.fault
  · exact raise_of_clean hs c n
  · simp [raise_of_faulted hs, respond, hs]

theorem execCode_live {s : State} {h : Handle} {out : Bits} (hw : treeWf s.cfg s.tree = true)
    (hl : liveHandle s.tree h = true) (ho : codePath s.tree h = some out) :
    execCode h s = .next (respond (okBitsOf out) s) := by
  simp [execCode, hw, hl, ho, orRefuse]

theorem execCode_not_live {s : State} {h : Handle} (hw : treeWf s.cfg s.tree = true)
    (hl : liveHandle s.tree h = false) : execCode h s = .next (raise .badHandle 0 s) := by
  simp [execCode, hw, hl]

/-- A live entry of the arena has a handle below NEXT_HANDLE, so it passes CODE's check (R167, R172). -/
theorem treeWf_liveHandle {cfg : Config} {t : CodeTree} {h : Handle} {nd : Node} (hw : treeWf cfg t = true)
    (hn : LiveAt t h nd) : liveHandle t h = true := by
  obtain ⟨-, -, hc, -⟩ := (treeWf_iff _ _).1 hw
  obtain ⟨hlen, hnext, -⟩ := (wfCounters_iff _ _ _).1 hc
  obtain ⟨hlt, -⟩ := List.getElem?_eq_some_iff.1 hn.1
  have hbelow : h.toNat < t.nextHandle.toNat := by omega
  simp [liveHandle, hbelow, hn.1, hn.2]

theorem liveHandle_unallocated {t : CodeTree} {h : Handle} (hh : t.nextHandle.toNat ≤ h.toNat) :
    liveHandle t h = false := by
  simp [liveHandle, Nat.not_lt.2 hh]

theorem liveHandle_historical {t : CodeTree} {h : Handle} {nd : Node} (hn : t.node? h = some nd)
    (hl : nd.live = false) : liveHandle t h = false := by
  simp [liveHandle, hn, hl]

/-- Settles O36: a live node has a path-code of at most NSYM bits; CODE's check refuses an unallocated handle and a
historical node. -/
theorem codeAnswersThePathCodeOfALiveNode : Obligations.CodeAnswersThePathCodeOfALiveNode := by
  refine fun s h hw => ⟨fun nd hn hl => ?_, fun hbad => ?_⟩
  · obtain ⟨out, ho, hlen⟩ := treeWf_codePath hw ⟨hn, hl⟩
    exact ⟨out, ho, hlen.trans (treeWf_length_le hw), execCode_live hw (treeWf_liveHandle hw ⟨hn, hl⟩) ho⟩
  · have hdead : liveHandle s.tree h = false := by
      obtain hnew | ⟨nd, hn, hl⟩ := hbad
      · exact liveHandle_unallocated hnew
      · exact liveHandle_historical hn hl
    exact (execCode_not_live hw hdead).trans (congrArg _ (raise_eq .badHandle 0 s))

end Sys2Proof.Machine
end

section
/-! RESET and the queries: what each answers, and that a query leaves all but the response, or records its bad
operand (43_host_interface.md R180 to R188). -/

namespace Sys2Proof.Machine

/-- On a well-formed tree the handles below NEXT_HANDLE are those with an arena entry (R22, R167). -/
theorem treeWf_allocated {cfg : Config} {t : CodeTree} {h : Handle} (hw : treeWf cfg t = true)
    (hh : h.toNat < t.nextHandle.toNat) : ∃ nd, t.node? h = some nd := by
  obtain ⟨-, -, hc, -⟩ := (treeWf_iff _ _).1 hw
  obtain ⟨hlen, hnext, -⟩ := (wfCounters_iff _ _ _).1 hc
  exact ⟨_, List.getElem?_eq_getElem (by omega)⟩

theorem execRdnode_allocated {s : State} {h : Handle} {nd : Node} (hh : h.toNat < s.tree.nextHandle.toNat)
    (hn : s.tree.node? h = some nd) : execRdnode h s = .next (respond (.okNode nd) s) := by
  simp [execRdnode, Nat.not_le.2 hh, hn]

theorem execRdnode_unallocated {s : State} {h : Handle} (hh : s.tree.nextHandle.toNat ≤ h.toNat) :
    execRdnode h s = .next (raise .badHandle 0 s) := if_pos hh

/-- Everything RDNUM can do: it always answers (R186). -/
theorem execRdnum_cases (k : Number) (s : State) :
    (s.cfg.maxNumber < k.toNat ∧ execRdnum k s = .next (raise .badNumber 0 s)) ∨
      (k.toNat ≤ s.cfg.maxNumber ∧
        execRdnum k s = .next (respond (.okHandle (s.tree.numEntry k.toNat)) s)) := by
  rcases Nat.lt_or_ge s.cfg.maxNumber k.toNat with hk | hk
  · exact .inl ⟨hk, if_pos hk⟩
  · exact .inr ⟨hk, if_neg (Nat.not_lt.2 hk)⟩

theorem liveAt_of_liveHandle {t : CodeTree} {h : Handle} (hl : liveHandle t h = true) :
    ∃ nd, LiveAt t h nd := by
  obtain ⟨-, hany⟩ := (Bool.and_eq_true _ _).mp hl
  exact (Option.any_eq_true _ _).1 hany

/-- CODE answers on every well-formed tree: the path-code of a live handle, a fault for any other (R172). -/
theorem execCode_isNext {s : State} (h : Handle) (hw : treeWf s.cfg s.tree = true) :
    ∃ t, execCode h s = .next t := by
  cases hl : liveHandle s.tree h
  case false => exact ⟨_, execCode_not_live hw hl⟩
  obtain ⟨nd, hn⟩ := liveAt_of_liveHandle hl
  obtain ⟨out, ho, -⟩ := treeWf_codePath hw hn
  exact ⟨_, execCode_live hw hl ho⟩

/-- RDNODE answers on every well-formed tree: the entry below NEXT_HANDLE, a fault from there on (R185). -/
theorem execRdnode_isNext {s : State} (h : Handle) (hw : treeWf s.cfg s.tree = true) :
    ∃ t, execRdnode h s = .next t := by
  rcases Nat.lt_or_ge h.toNat s.tree.nextHandle.toNat with hh | hh
  · obtain ⟨nd, hn⟩ := treeWf_allocated hw hh
    exact ⟨_, execRdnode_allocated hh hn⟩
  · exact ⟨_, execRdnode_unallocated hh⟩

theorem exec_query_isNext {i : Instr} {s : State} (hq : isQuery i = true) (hw : treeWf s.cfg s.tree = true) :
    ∃ t, exec i s = .next t := by
  cases i with
  | reset | enc _ | dec | push _ _ => cases hq
  | rdroot | rdnyt | rdlast | rdsym _ | rdstat => exact ⟨_, rfl⟩
  | rdnode h => exact execRdnode_isNext h hw
  | code h => exact execCode_isNext h hw
  | rdnum k => obtain ⟨-, h⟩ | ⟨-, h⟩ := execRdnum_cases k s <;> exact ⟨_, h⟩

/-- Which responses and faults a query has: an answer, or the fault of its handle or number (R188). -/
theorem exec_query_answers_or_faults {i : Instr} {s t : State} (hq : isQuery i = true)
    (h : exec i s = .next t) :
    (∃ r, t = respond r s ∧ r.faultCode = none ∧ r ≠ .rejected) ∨
      ∃ c, (c = .badHandle ∨ c = .badNumber) ∧ t = raise c 0 s := by
  cases i with
  | reset | enc _ | dec | push _ _ => cases hq
  | rdroot | rdnyt | rdlast | rdsym _ | rdstat => cases h; exact .inl ⟨_, rfl, rfl, nofun⟩
  | rdnode n =>
    obtain ⟨-, rfl⟩ | ⟨-, nd, -, rfl⟩ := execRdnode_cases h
    · exact .inr ⟨_, .inl rfl, rfl⟩
    · exact .inl ⟨_, rfl, rfl, nofun⟩
  | code n =>
    obtain ⟨-, ⟨-, rfl⟩ | ⟨-, out, -, rfl⟩⟩ := execCode_cases h
    · exact .inr ⟨_, .inl rfl, rfl⟩
    · exact .inl ⟨_, rfl, rfl, nofun⟩
  | rdnum k =>
    obtain ⟨-, he⟩ | ⟨-, he⟩ := execRdnum_cases k s <;> cases he.symm.trans h
    · exact .inr ⟨_, .inr rfl, rfl⟩
    · exact .inl ⟨_, rfl, rfl, nofun⟩

/-- Settles O37: each query answers on a well-formed tree, and what it answers is a response to the old state or
the raise of its operand's fault. -/
theorem queriesChangeNothingOnSuccess : Obligations.QueriesChangeNothingOnSuccess := by
  refine ⟨fun _ _ hq hw => exec_query_isNext hq hw, fun i s t hq h => ?_⟩
  obtain ⟨r, rfl, hcode, hrej⟩ | ⟨c, hc, rfl⟩ := exec_query_answers_or_faults hq h
  · exact .inl ⟨r, hcode, hrej, rfl⟩
  · exact .inr ⟨c, hc, raise_eq c 0 s⟩

/-- Settles O13: RESET responds OK from the state of the reset procedure, whatever the state before. -/
theorem resetCommandReachesThePowerOnState : Obligations.ResetCommandReachesThePowerOnState :=
  fun _ => rfl

/-- Settles O32: the four queries have no check, and respond with what they name. -/
theorem referenceQueriesAnswerTheRegisters : Obligations.ReferenceQueriesAnswerTheRegisters :=
  fun _ => ⟨rfl, rfl, rfl, fun _ => rfl⟩

/-- Settles O33: an entry stands below NEXT_HANDLE, and RDNODE refuses the handles from there on. -/
theorem rdnodeReadsEveryAllocatedEntry : Obligations.RdnodeReadsEveryAllocatedEntry := by
  refine fun s h hw => ⟨fun hh => ?_, fun hh => ?_⟩
  · obtain ⟨nd, hn⟩ := treeWf_allocated hw hh
    exact ⟨nd, hn, execRdnode_allocated hh hn⟩
  · exact (execRdnode_unallocated hh).trans (congrArg _ (raise_eq .badHandle 0 s))

/-- Settles O34: RDNUM's one check is the number against MAX_NUMBER. -/
theorem rdnumReadsTheNumberMap : Obligations.RdnumReadsTheNumberMap := by
  intro s k
  obtain ⟨hk, h⟩ | ⟨hk, h⟩ := execRdnum_cases k s
  · exact ⟨fun hle => absurd hk (Nat.not_lt.2 hle), fun _ => h.trans (congrArg _ (raise_eq .badNumber 0 s))⟩
  · exact ⟨fun _ => h, fun hlt => absurd hlt (Nat.not_lt.2 hk)⟩

end Sys2Proof.Machine
end

section
/-! The guard of a step, which refuses a state that no command produces, and the illegal word (60_exceptions.md
R220, R225). -/

namespace Sys2Proof.Machine

/-- Settles O8: the words are no part of the invariant, so the guard refuses the state with any of them. -/
theorem stepRefusesAStateThatFailsTheInvariant : Obligations.StepRefusesAStateThatFailsTheInvariant :=
  fun s words hs => step_of_not_inv ((inv_cmds s words).trans hs)

theorem step_illegal {s : State} {w : Word} {ws : List Word} {why : Illegal} (hs : s.inv = true)
    (hcmds : s.cmds = w :: ws) (hw : decode w = .illegal why) :
    step s = .next (raise .illegalCmd 0 { s with cmds := ws }) := by
  rw [step, takeWord_cons hcmds]
  simp only [ifMeaningful_of_inv hs, hw, illegalWord]

/-- Settles O10: a raise writes FAULT, the session's first code and the response. -/
theorem illegalWordRecordsIllegalCmd : Obligations.IllegalWordRecordsIllegalCmd :=
  ⟨fun s _ ws _ hs hcmds hw =>
    (step_illegal hs hcmds hw).trans (congrArg _ (raise_eq .illegalCmd 0 { s with cmds := ws })), by decide⟩

end Sys2Proof.Machine
end

section
/-! What a word can lead to: the reset state, a response that is no ERR, or one raised fault with the bits popped
that R215 gives it (60_exceptions.md R211 to R215). -/

namespace Sys2Proof.Machine

/-- The bits of a FIFO that runs dry in DEC's walk lead to an internal node (R111). -/
theorem follow_of_decWalk_dry {t : CodeTree} {m : Nat} : ∀ {fuel n : Nat} {c : Handle} {fifo : Bits},
    decWalk t fuel c fifo n = .dry m →
      ∃ x nd, t.node? x = some nd ∧ nd.left ≠ NONE ∧ follow t c fifo = some x := by
  intro fuel
  induction fuel with
  | zero => intro n c fifo h; cases h
  | succ fuel ih =>
    intro n c fifo h
    cases hn : t.node? c with
    | none => simp [decWalk, hn] at h
    | some nd =>
      rw [decWalk_succ _ _ _ _ _ _ hn] at h
      split_ifs at h with hl
      cases fifo with
      | nil => exact ⟨c, nd, hn, hl, rfl⟩
      | cons b fifo =>
        obtain ⟨x, y, hx, hy, hrest⟩ := ih h
        exact ⟨x, y, hx, hy, (follow_cons hn b fifo).trans hrest⟩

/-- The table of R215: the fault a command raises in `s`, the number of bits it has popped by then, and the FIFO
that it leaves. -/
inductive FaultPops (s : State) : Fault → Nat → Bits → Prop where
  | nothing {c : Fault} (hdry : c ≠ .incompleteStream) (hdup : c ≠ .dupSymbol) : FaultPops s c 0 s.inFifo
  | dry {x : Handle} {nd : Node} (hn : s.tree.node? x = some nd) (hl : nd.left ≠ NONE)
      (hpath : follow s.tree s.tree.root s.inFifo = some x) (hlen : s.inFifo.length ≤ maxCodeLen) :
      FaultPops s .incompleteStream s.inFifo.length []
  | short {x : Handle} {nd : Node} {path rest : Bits} (hn : s.tree.node? x = some nd) (hl : nd.left = NONE)
      (hnyt : nd.isNyt = true) (hpath : follow s.tree s.tree.root path = some x) (hlen : path.length ≤ maxCodeLen)
      (hfifo : s.inFifo = path ++ rest) (hshort : rest.length < 8) :
      FaultPops s .incompleteStream path.length rest
  | dup {x : Handle} {nd : Node} {path rest : Bits} (hn : s.tree.node? x = some nd) (hnyt : nd.isNyt = true)
      (hpath : follow s.tree s.tree.root path = some x) (hlen : path.length ≤ maxCodeLen)
      (hfifo : s.inFifo = path ++ rest) (hpayload : 8 ≤ rest.length)
      (hleaf : s.tree.symEntry (valMsb8 (rest.take 8)) ≠ NONE) :
      FaultPops s .dupSymbol (path.length + 8) (rest.drop 8)

/-- The command raises one fault, and writes nothing before it but the FIFO (R215). -/
def Faults (s t : State) : Prop := ∃ c n fifo, FaultPops s c n fifo ∧ t = raise c n { s with inFifo := fifo }

/-- The command responds and raises no fault, so it leaves FAULT and ERRCODE (R212). -/
def Unfaulted (s t : State) : Prop :=
  t.fault = s.fault ∧ t.errCode = s.errCode ∧ ∃ r, t.resp = some r ∧ r.faultCode = none

section Outcomes
variable {s t : State}

/-- The popped bits are the FIFO's first, and no more than the response can report (R83, R215). -/
theorem FaultPops.popped {c : Fault} {n : Nat} {fifo : Bits} (h : FaultPops s c n fifo) :
    n ≤ maxDecBits ∧ n ≤ s.inFifo.length ∧ fifo = s.inFifo.drop n := by
  unfold maxDecBits
  cases h with
  | nothing => exact ⟨Nat.zero_le _, Nat.zero_le _, rfl⟩
  | dry _ _ _ hlen => unfold maxCodeLen at hlen; exact ⟨by omega, le_rfl, List.drop_length.symm⟩
  | @short _ _ path _ _ _ _ _ hlen hfifo =>
    unfold maxCodeLen at hlen
    rw [hfifo, List.length_append, List.drop_left]
    exact ⟨by omega, by omega, rfl⟩
  | @dup _ _ path _ _ _ _ hlen hfifo hpayload =>
    unfold maxCodeLen at hlen
    rw [hfifo, List.length_append, List.drop_append, List.drop_of_length_le (Nat.le_add_right ..)]
    exact ⟨by omega, by omega, by rw [List.nil_append, Nat.add_sub_cancel_left]⟩

theorem FaultPops.none_popped {c : Fault} {n : Nat} {fifo : Bits} (h : FaultPops s c n fifo)
    (hdry : c ≠ .incompleteStream) (hdup : c ≠ .dupSymbol) : n = 0 := by
  cases h with
  | nothing => rfl
  | dry | short => exact absurd rfl hdry
  | dup => exact absurd rfl hdup

/-- INCOMPLETE_STREAM popped a whole path: all the FIFO, or all of it but a short payload (R111, R112). -/
theorem FaultPops.incompleteStream {n : Nat} {fifo : Bits} (h : FaultPops s .incompleteStream n fifo) :
    ∃ x nd, s.tree.node? x = some nd ∧ follow s.tree s.tree.root (s.inFifo.take n) = some x ∧
      ((nd.left ≠ NONE ∧ fifo = []) ∨ (nd.left = NONE ∧ nd.isNyt = true ∧ fifo.length < 8)) := by
  cases h with
  | nothing hdry => exact absurd rfl hdry
  | dry hn hl hpath => exact ⟨_, _, hn, by rwa [List.take_length], .inl ⟨hl, rfl⟩⟩
  | short hn hl hnyt hpath _ hfifo hshort =>
    rw [hfifo, List.take_left]
    exact ⟨_, _, hn, hpath, .inr ⟨hl, hnyt, hshort⟩⟩

/-- DUP_SYMBOL popped the path to the NYT and the payload of a symbol with a leaf (R113). -/
theorem FaultPops.dupSymbol {n : Nat} {fifo : Bits} (h : FaultPops s .dupSymbol n fifo) :
    8 ≤ n ∧ ∃ x nd, s.tree.node? x = some nd ∧ nd.isNyt = true ∧
      follow s.tree s.tree.root (s.inFifo.take (n - 8)) = some x ∧
      s.tree.symEntry (valMsb8 ((s.inFifo.drop (n - 8)).take 8)) ≠ NONE := by
  cases h with
  | nothing _ hdup => exact absurd rfl hdup
  | dup hn hnyt hpath _ hfifo _ hleaf =>
    rw [Nat.add_sub_cancel, hfifo, List.take_left, List.drop_left]
    exact ⟨Nat.le_add_left .., _, _, hn, hnyt, hpath, hleaf⟩

theorem faults_raise {c : Fault} (hdry : c ≠ .incompleteStream) (hdup : c ≠ .dupSymbol) :
    Faults s (raise c 0 s) := ⟨c, 0, s.inFifo, .nothing hdry hdup, rfl⟩

theorem execEnc_outcomes {sym : Symbol} (h : execEnc sym s = .next t) : Unfaulted s t ∨ Faults s t := by
  rcases execEnc_cases h with ⟨-, rfl⟩ | ⟨-, -, -, rfl⟩ | ⟨-, -, -, out, t', leaf, -, -, rfl⟩
  · exact .inl ⟨rfl, rfl, _, rfl, rfl⟩
  · exact .inr (faults_raise nofun nofun)
  · exact .inl ⟨rfl, rfl, _, rfl, rfl⟩

theorem execPush_outcomes {n : Nat} {bits : BitVec 8} (h : execPush n bits s = .next t) :
    Unfaulted s t ∨ Faults s t := by
  rcases execPush_cases n bits s with ⟨-, he⟩ | ⟨-, -, he⟩ | ⟨-, -, he⟩ <;> cases he.symm.trans h
  · exact .inl ⟨rfl, rfl, _, rfl, rfl⟩
  · exact .inr (faults_raise nofun nofun)
  · exact .inl ⟨rfl, rfl, _, rfl, rfl⟩

theorem exec_query_outcomes {i : Instr} (hq : isQuery i = true) (h : exec i s = .next t) :
    Unfaulted s t ∨ Faults s t := by
  obtain ⟨r, rfl, hr, -⟩ | ⟨c, rfl | rfl, rfl⟩ := exec_query_answers_or_faults hq h
  · exact .inl ⟨rfl, rfl, r, rfl, hr⟩
  · exact .inr (faults_raise nofun nofun)
  · exact .inr (faults_raise nofun nofun)

/-- DEC's walk ends in an internal node with an empty FIFO, or at a leaf, which is the NYT in both of the leaf's
faults (R111 to R113). -/
theorem execDec_outcomes (h : execDec s = .next t) : Unfaulted s t ∨ Faults s t := by
  rcases execDec_cases h with ⟨-, rfl⟩ | ⟨-, -, -, rfl⟩ | ⟨-, hw, -, ⟨n, hwalk, rfl⟩ |
    ⟨cur, nd, fifo, n, hwalk, hend⟩⟩
  · exact .inl ⟨rfl, rfl, _, rfl, rfl⟩
  · exact .inr (faults_raise nofun nofun)
  · obtain ⟨rfl, hlen⟩ := (decWalk_pops ..).2 n hwalk
    obtain ⟨x, nd, hn, hl, hpath⟩ := follow_of_decWalk_dry hwalk
    rw [Nat.zero_add]
    exact .inr ⟨_, _, _, .dry hn hl hpath (Nat.le_of_lt_succ hlen), rfl⟩
  obtain ⟨path, hcode, hfifo, rfl, hn, hl⟩ := codePath_of_decWalk hw hwalk
  have hpath := follow_codePath hw hn hcode
  have hlen := codePath_length_le hcode
  rcases hend with ⟨hnyt, h8, rfl⟩ | ⟨hnyt, h8, hleaf, rfl⟩ | ⟨-, -, -, t', leaf, -, rfl⟩ | ⟨-, t', -, rfl⟩
  · exact .inr ⟨_, _, _, .short hn.1 hl hnyt hpath hlen hfifo h8, rfl⟩
  · exact .inr ⟨_, _, _, .dup hn.1 hnyt hpath hlen hfifo h8 hleaf, rfl⟩
  · exact .inl ⟨rfl, rfl, _, rfl, rfl⟩
  · exact .inl ⟨rfl, rfl, _, rfl, rfl⟩

theorem exec_outcomes {i : Instr} (hi : i ≠ .reset) (h : exec i s = .next t) : Unfaulted s t ∨ Faults s t := by
  cases i with
  | reset => exact absurd rfl hi
  | enc sym => exact execEnc_outcomes h
  | dec => exact execDec_outcomes h
  | push n bits => exact execPush_outcomes h
  | rdroot | rdnyt | rdlast | rdsym _ | rdnode _ | code _ | rdnum _ | rdstat => exact exec_query_outcomes rfl h

/-- Every word that is taken is RESET's, or raises no fault, or raises one with the table's pops (R212, R215,
R225). -/
theorem step_outcomes {w : Word} {ws : List Word} (hcmds : s.cmds = w :: ws) (h : step s = .next t) :
    (w = 0x1000#16 ∧ t = respond .ok (resetProcedure { s with cmds := ws })) ∨
      Unfaulted { s with cmds := ws } t ∨ Faults { s with cmds := ws } t := by
  obtain ⟨-, ⟨hnil, -⟩ | ⟨w', ws', hcmds', hrun⟩⟩ := step_cases h
  · exact absurd (hnil.symm.trans hcmds) nofun
  obtain ⟨rfl, rfl⟩ := List.cons.inj (hcmds'.symm.trans hcmds)
  obtain ⟨i, hi, he⟩ | ⟨why, -, rfl⟩ := hrun
  · by_cases hreset : i = .reset
    · subst hreset
      cases he
      obtain ⟨-, hword⟩ := encodeOfDecodeIsTheWord w' .reset hi
      exact .inl ⟨hword.symm, rfl⟩
    · exact .inr (exec_outcomes hreset he)
  · exact .inr (.inr (faults_raise nofun nofun))

/-- A response that reports no fault is no ERR (R211). -/
theorem Unfaulted.resp_ne_err (h : Unfaulted s t) (c : Fault) (n : BitVec 9) : t.resp ≠ some (.err c n) := by
  obtain ⟨-, -, r, hr, hcode⟩ := h
  rintro he
  obtain rfl := Option.some.inj (hr.symm.trans he)
  cases hcode

end Outcomes

/-- Settles O15: a word that raises no fault leaves both registers, and a raise records only a first fault. -/
theorem errCodeKeepsTheFirstFaultUntilReset : Obligations.ErrCodeKeepsTheFirstFaultUntilReset := by
  intro s t w ws hcmds hw h
  obtain ⟨hreset, -⟩ | hun | ⟨c, n, fifo, -, rfl⟩ := step_outcomes hcmds h
  · exact absurd hreset hw
  · obtain ⟨hfault, hcode, -⟩ := id hun
    exact ⟨fun hf => ⟨hfault.trans hf, hcode⟩, fun hf => .inr ⟨hfault.trans hf, hcode, hun.resp_ne_err⟩⟩
  · exact ⟨fun hf => by simp [hf], fun hf => .inl ⟨c, _, raise_resp .., raise_fault .., by simp [hf]⟩⟩

/-- Settles O16: a response ERR comes from a raise, with the bits popped that the table of R215 gives. -/
theorem faultsArePrecise : Obligations.FaultsArePrecise := by
  intro s t c n hcmds h hresp
  obtain ⟨w, ws, hcmds⟩ := List.exists_cons_of_ne_nil hcmds
  obtain ⟨-, rfl⟩ | hun | ⟨c', k, fifo, hpops, rfl⟩ := step_outcomes hcmds h
  · cases hresp
  · exact absurd hresp (hun.resp_ne_err c n)
  rw [raise_resp] at hresp
  cases hresp
  obtain ⟨hmax, hlen, hfifo⟩ := hpops.popped
  have hk : (BitVec.ofNat 9 k).toNat = k := by
    unfold maxDecBits at hmax
    rw [BitVec.toNat_ofNat]
    omega
  rw [raise_inFifo, hk]
  refine ⟨raise_tree .., raise_last .., raise_fault .., raise_errCode .., hlen, hfifo, fun hdry hdup => ?_,
    fun hdry => ?_, fun hdup => ?_⟩
  · exact congrArg _ (hpops.none_popped hdry hdup)
  · subst hdry
    exact hpops.incompleteStream
  · subst hdup
    exact hpops.dupSymbol

end Sys2Proof.Machine
end

section
/-! On a well-formed tree every command answers: DEC's walk comes to its end within MAX_CODE_LEN bits
(40_encode_decode.md R110, 41_insert_update.md R152, R165, 60_exceptions.md R227). -/

namespace Sys2Proof.Machine

section Walk
variable {cfg : Config} {t : CodeTree} (hw : treeWf cfg t = true)
include hw

/-- No live node lies MAX_CODE_LEN + 1 bits below the root: CODE_PATH's fuel suffices to climb back (R165). -/
theorem treeWf_follow_length_ne {x : Handle} {nd : Node} {bits : Bits} (hx : LiveAt t x nd)
    (h : follow t t.root bits = some x) : bits.length ≠ maxCodeLen + 1 := by
  intro hlen
  obtain ⟨path, hpath, -⟩ := treeWf_codePath hw hx
  rw [codePath, ← hlen, ← Nat.zero_add bits.length, codePathFrom_of_follow hw hx.1 [] h] at hpath
  cases hpath

/-- DEC's walk, with fuel for as many visits as its path leaves, goes from live node to live node to its end. -/
theorem treeWf_decWalk_ne_broken : ∀ {fuel n : Nat} {c : Handle} {nd : Node} {bits fifo : Bits},
    LiveAt t c nd → follow t t.root bits = some c → fuel + bits.length = maxCodeLen + 1 →
      decWalk t fuel c fifo n ≠ .broken := by
  intro fuel
  induction fuel with
  | zero =>
    intro n c nd bits fifo hc hbits hfuel
    exact absurd ((Nat.zero_add _).symm.trans hfuel) (treeWf_follow_length_ne hw hc hbits)
  | succ fuel ih =>
    intro n c nd bits fifo hc hbits hfuel
    rw [decWalk_succ _ _ _ _ _ _ hc.1]
    split_ifs with hl
    · exact nofun
    cases fifo with
    | nil => exact nofun
    | cons b fifo =>
      obtain ⟨ch, hch, -⟩ := treeWf_child hw hc.1 hl b
      refine ih (bits := bits ++ [b]) hch ?_ (by rw [List.length_append, List.length_singleton]; omega)
      rw [follow_append, hbits, Option.bind_some, follow_cons hc.1]
      rfl

end Walk

section Commands
variable {s : State} (hw : treeWf s.cfg s.tree = true)
include hw

theorem execEnc_saturated {sym : Symbol} (hf : s.fault = false) (hsat : saturated s.cfg s.tree = true) :
    execEnc sym s = .next (raise .countSaturated 0 s) := by
  simp [execEnc, hf, hw, hsat]

theorem execDec_saturated (hf : s.fault = false) (hsat : saturated s.cfg s.tree = true) :
    execDec s = .next (raise .countSaturated 0 s) := by
  simp [execDec, hf, hw, hsat]

theorem execEnc_isNext (sym : Symbol) : ∃ t, execEnc sym s = .next t := by
  cases hf : s.fault
  case true => exact ⟨_, if_pos hf⟩
  cases hsat : saturated s.cfg s.tree
  case true => exact ⟨_, execEnc_saturated hw hf hsat⟩
  obtain ⟨out, t, leaf, ho, hc⟩ := treeWf_codeSymbol_isSome hw sym
  exact ⟨_, Ready.execEnc_eq ⟨hf, hw, hsat⟩ ho hc⟩

/-- At the NYT DEC has too short a payload, a symbol with a leaf, or one to insert (R110, R112, R113). -/
theorem decEscape_isNext (fifo : Bits) (n : Nat) : ∃ t, decEscape fifo n s = .next t := by
  unfold decEscape
  split_ifs with h8 hleaf
  · exact ⟨_, rfl⟩
  · exact ⟨_, rfl⟩
  · obtain ⟨t, ht⟩ := treeWf_insert_isSome hw (not_not.1 hleaf)
    rw [ht]
    exact ⟨_, rfl⟩

theorem execDec_isNext : ∃ t, execDec s = .next t := by
  cases hf : s.fault
  case true => exact ⟨_, if_pos hf⟩
  cases hsat : saturated s.cfg s.tree
  case true => exact ⟨_, execDec_saturated hw hf hsat⟩
  cases hwalk : decWalk s.tree (maxCodeLen + 1) s.tree.root s.inFifo 0 with
  | broken =>
    obtain ⟨r, hr⟩ := treeWf_root_live hw
    exact absurd hwalk (treeWf_decWalk_ne_broken hw hr (bits := []) rfl rfl)
  | dry n => exact ⟨_, execDec_of_dry hf hw hsat hwalk⟩
  | leaf cur nd fifo n =>
    rw [execDec_of_leaf hf hw hsat hwalk]
    cases hnyt : nd.isNyt
    case true => exact decEscape_isNext hw fifo n
    obtain ⟨path, -, -, -, hn, hl⟩ := codePath_of_decWalk hw hwalk
    obtain rfl := treeWf_symEntry_of_leaf hw hn.1 (treeWf_symv_of_leaf hw hn hl hnyt)
    obtain ⟨t, ht⟩ := treeWf_update_isSome hw (treeWf_ne_none hw hn.1)
    rw [if_neg Bool.false_ne_true, decLeaf, ht]
    exact ⟨_, rfl⟩

theorem exec_isNext (i : Instr) : ∃ t, exec i s = .next t := by
  cases i with
  | reset => exact ⟨_, rfl⟩
  | enc sym => exact execEnc_isNext hw sym
  | dec => exact execDec_isNext hw
  | push n bits => obtain ⟨-, h⟩ | ⟨-, -, h⟩ | ⟨-, -, h⟩ := execPush_cases n bits s <;> exact ⟨_, h⟩
  | rdroot | rdnyt | rdlast | rdsym _ | rdnode _ | code _ | rdnum _ | rdstat => exact exec_query_isNext rfl hw

end Commands

/-- A step on a delivered word answers a next state that has taken the word (R227). -/
theorem step_isNext {s : State} {w : Word} {ws : List Word} (hs : s.inv = true) (hcmds : s.cmds = w :: ws) :
    ∃ t, step s = .next t ∧ t.cmds = ws := by
  cases hdecode : decode w with
  | illegal why => exact ⟨_, step_illegal hs hcmds hdecode, raise_cmds ..⟩
  | command i =>
    obtain ⟨-, -, hw, -⟩ := (inv_iff s).1 hs
    obtain ⟨t, ht⟩ := exec_isNext (s := { s with cmds := ws }) hw i
    obtain ⟨-, htaken, -⟩ := onlyCodersAndResetChangeTheTree i _ t ht
    exact ⟨t, (stepRunsTheDeliveredCommand s w ws i hs hcmds hdecode).trans ht, htaken⟩

/-- Settles O47: every command answers on a well-formed tree, and each outcome of a word responds. -/
theorem everyDeliveredWordIsAnswered : Obligations.EveryDeliveredWordIsAnswered := by
  intro s w ws hs hcmds
  obtain ⟨t, ht, htaken⟩ := step_isNext hs hcmds
  obtain ⟨-, rfl⟩ | ⟨-, -, r, hr, -⟩ | ⟨c, n, fifo, -, rfl⟩ := step_outcomes hcmds ht
  · exact ⟨_, _, ht, htaken, rfl⟩
  · exact ⟨_, r, ht, htaken, hr⟩
  · exact ⟨_, _, ht, htaken, raise_resp ..⟩

end Sys2Proof.Machine
end

section
/-! While FAULT = 1 ENC, DEC and PUSH are rejected, and a query answers as it would without the fault
(60_exceptions.md R213, 43_host_interface.md R188). -/

namespace Sys2Proof.Machine

/-- The engine with FAULT set or cleared by hand. -/
def State.withFault (s : State) (b : Bool) : State := { s with fault := b }

section WithFault
variable (s : State) (b : Bool)

@[simp] theorem withFault_cfg : (s.withFault b).cfg = s.cfg := rfl
@[simp] theorem withFault_tree : (s.withFault b).tree = s.tree := rfl

theorem withFault_self : s.withFault s.fault = s := rfl

end WithFault

/-- RDSTAT alone reads FAULT: every other query answers the same with another value of it (R188). -/
theorem exec_query_withFault {i : Instr} {s t : State} (b : Bool) (hq : isQuery i = true) (hi : i ≠ .rdstat)
    (h : exec i s = .next t) : ∃ u, exec i (s.withFault b) = .next u ∧ t.resp = u.resp := by
  cases i with
  | reset | enc _ | dec | push _ _ => cases hq
  | rdstat => exact absurd rfl hi
  | rdroot | rdnyt | rdlast | rdsym _ => cases h; exact ⟨_, rfl, rfl⟩
  | rdnode k =>
    obtain ⟨hk, rfl⟩ | ⟨hk, nd, hn, rfl⟩ := execRdnode_cases h
    · exact ⟨_, execRdnode_unallocated (s := s.withFault b) hk, by simp⟩
    · exact ⟨_, execRdnode_allocated (s := s.withFault b) hk hn, rfl⟩
  | code k =>
    obtain ⟨hw, ⟨hl, rfl⟩ | ⟨hl, out, ho, rfl⟩⟩ := execCode_cases h
    · exact ⟨_, execCode_not_live (s := s.withFault b) hw hl, by simp⟩
    · exact ⟨_, execCode_live (s := s.withFault b) hw hl ho, rfl⟩
  | rdnum k =>
    obtain ⟨hk, he⟩ | ⟨hk, he⟩ := execRdnum_cases k s <;> cases he.symm.trans h
    · exact ⟨_, if_pos hk, by simp⟩
    · exact ⟨_, if_neg (Nat.not_lt.2 hk), rfl⟩

theorem query_resp_ne_rejected {i : Instr} {s t : State} (hq : isQuery i = true) (h : exec i s = .next t) :
    t.resp ≠ some .rejected := by
  obtain ⟨r, rfl, -, hr⟩ | ⟨c, -, rfl⟩ := exec_query_answers_or_faults hq h
  · exact fun he => hr (Option.some.inj he)
  · exact fun he => nomatch (raise_resp ..).symm.trans he

/-- Settles O14: the coders and PUSH test FAULT first, RESET and the queries do not read it, and a raise keeps the
first fault. -/
theorem faultedEngineRejectsCodersAndPush : Obligations.FaultedEngineRejectsCodersAndPush := by
  intro s hf
  refine ⟨fun _ => if_pos hf, if_pos hf, fun _ _ => if_pos hf, rfl, ⟨_, rfl⟩, fun i t hq hi h => ?_,
    fun i u hq hi h => ?_, fun w ws why hs hcmds hw => ?_⟩
  · exact ⟨query_resp_ne_rejected hq h, exec_query_withFault false hq hi h⟩
  · obtain ⟨t, ht, hresp⟩ := exec_query_withFault true hq hi h
    have hself : State.withFault { s with fault := false } true = s := hf ▸ withFault_self s
    exact ⟨t, hself ▸ ht, hresp.symm⟩
  · exact (step_illegal hs hcmds hw).trans (congrArg _ (raise_of_faulted (s := { s with cmds := ws }) hf _ _))

end Sys2Proof.Machine
end

section
/-! The states that commands produce are those that meet the invariant: every run answers, and a run of ENC and
PUSH commands with one more word for the recorded fault leads to each of them (60_exceptions.md R220,
92_eei_decisions.md D26; log entries 5 and 13). -/

namespace Sys2Proof.Machine

/-- Any words run from a state that meets the invariant to another one (R220, R227). -/
theorem runWords_inv : ∀ (words : List Word) {s : State}, s.inv = true →
    ∃ t, runWords words s = .next t ∧ t.inv = true
  | [], s, hs => ⟨s, rfl, hs⟩
  | w :: words, s, hs => by
    have hissued : State.inv { s with cmds := w :: s.cmds } = true := hs
    obtain ⟨t, ht, -⟩ := step_isNext hissued rfl
    obtain ⟨u, hu, hinv⟩ := runWords_inv words (everyStepKeepsTheInvariant _ t hissued ht)
    exact ⟨u, by rw [runWords, issue, ht]; exact hu, hinv⟩

theorem runWords_append {words : List Word} (words' : List Word) {s t : State} (h : runWords words s = .next t) :
    runWords (words ++ words') s = runWords words' t := by
  induction words generalizing s with
  | nil => cases h; rfl
  | cons w words ih =>
    rw [runWords] at h
    rw [List.cons_append, runWords]
    cases hw : issue w s with
    | next u => rw [hw] at h; exact ih h
    | fault _ | refused _ => rw [hw] at h; cases h

theorem runWords_singleton {w : Word} {s t : State} (h : issue w s = .next t) : runWords [w] s = .next t := by
  rw [runWords, h]
  rfl

/-- Every code that can be recorded is a fault's (R210). -/
theorem exists_fault_of_code {code : BitVec 4} (h1 : 1 ≤ code.toNat) (h7 : code.toNat ≤ 7) :
    ∃ c : Fault, c.code = code := by
  have hlisted : ∀ b : BitVec 4, 1 ≤ b.toNat → b.toNat ≤ 7 → ∃ c ∈ [Fault.illegalCmd, .incompleteStream,
    .dupSymbol, .countSaturated, .inOverflow, .badHandle, .badNumber], c.code = b := by decide
  obtain ⟨c, -, hc⟩ := hlisted code h1 h7
  exact ⟨c, hc⟩

/-- Each entry of SYMMAP names the leaf of a symbol (R26). -/
theorem treeWf_symbol_of_symMap_ne_nil {cfg : Config} {t : CodeTree} (hw : treeWf cfg t = true)
    (hnil : t.symMap ≠ []) : ∃ sym, t.symEntry sym ≠ NONE := by
  obtain ⟨-, -, -, -, hmap, -⟩ := (treeWf_iff _ _).1 hw
  obtain ⟨e, m, he⟩ := List.exists_cons_of_ne_nil hnil
  obtain ⟨nd, hn, hv, -⟩ := (wfSymMap_iff t).1 hmap e (he ▸ List.mem_cons_self)
  exact ⟨nd.sym, treeWf_symEntry_of_leaf hw hn hv ▸ treeWf_ne_none hw hn⟩

/-- ENC of each of a session's symbols makes the session's tree and LAST (R100, R169). -/
theorem runWords_encs : ∀ (syms : List Symbol) {s : State} {q : CodeTree × Handle}, s.inv = true →
    s.fault = false → codeSession s.cfg syms (s.tree, s.last) = some q →
    ∃ r, runWords (syms.map fun sym => encode (.enc sym)) s = .next
      { s with tree := q.1, last := q.2, coded := s.coded ++ syms, resp := r }
  | [], s, q, _, _, h => by
    cases h
    exact ⟨s.resp, by rw [List.append_nil]; rfl⟩
  | sym :: syms, s, q, hs, hf, h => by
    obtain ⟨-, -, hw, -⟩ := (inv_iff s).1 hs
    obtain ⟨hsat, m, hm, hrest⟩ := codeSession_cons.1 h
    have hr : Ready s := ⟨hf, hw, hsat⟩
    obtain ⟨out, ho, -⟩ := treeWf_codeword hw sym
    have hissue := (issue_encode (i := .enc sym) hs rfl).trans (hr.execEnc_eq ho hm)
    obtain ⟨r, hrun⟩ := runWords_encs syms (s := respond (okBitsOf out) (commitSymbol sym m.1 m.2 s))
      (inv_commitSymbol hs hr hm) hf hrest
    refine ⟨r, ?_⟩
    rw [List.map_cons, runWords, hissue]
    simpa using hrun

/-- The engine of `s` before any fault, with `fifo` in IN_FIFO and no word to come. -/
def State.cleared (s : State) (fifo : Bits) (r : Option Response) : State :=
  { s with fault := false, errCode := 0, inFifo := fifo, cmds := [], resp := r }

/-- A word raises `c` on the engine of `s` before its fault, from some FIFO, and leaves the FIFO of `s`. -/
def Raisable (s : State) (c : Fault) : Prop :=
  ∃ fifo w n, fifo.length ≤ s.cfg.inDepth ∧
    ∀ r, issue w (s.cleared fifo r) = .next (raise c n (s.cleared s.inFifo r))

section Produced
variable {s : State} (hs : s.inv = true)
include hs

theorem inv_cleared {fifo : Bits} {r : Option Response} (hfifo : fifo.length ≤ s.cfg.inDepth) :
    (s.cleared fifo r).inv = true := by
  obtain ⟨-, -, hw, hlast, -, hsession⟩ := (inv_iff s).1 hs
  exact (inv_iff _).2 ⟨hfifo, rfl, hw, hlast, rfl, hsession⟩

/-- ENC of the coded symbols and PUSHS of the bits lead from power-on to the engine without the fault. -/
theorem runWords_cleared {fifo : Bits} (hfifo : fifo.length ≤ s.cfg.inDepth) :
    ∃ words r, runWords words (State.init s.cfg) = .next (s.cleared fifo r) := by
  obtain ⟨-, -, hw, -, -, hsession⟩ := (inv_iff s).1 hs
  obtain ⟨hcfg, -⟩ := (treeWf_iff _ _).1 hw
  obtain ⟨r, henc⟩ := runWords_encs s.coded (initialStateMeetsTheInvariant s.cfg hcfg) rfl
    ((wfSession_iff s).1 hsession)
  have hpush := pushsAppendsTheWholeString (s.cleared [] r) fifo (inv_cleared hs (Nat.zero_le _)) rfl
    (le_of_eq_of_le (Nat.zero_add _) hfifo)
  exact ⟨_, _, (runWords_append _ henc).trans hpush⟩

theorem raisable_of_exec {c : Fault} {i : Instr} {n : Nat} {fifo : Bits} (hi : i.wellFormed = true)
    (hfifo : fifo.length ≤ s.cfg.inDepth)
    (h : ∀ r, exec i (s.cleared fifo r) = .next (raise c n (s.cleared s.inFifo r))) : Raisable s c :=
  ⟨fifo, encode i, n, hfifo, fun r => (issue_encode (inv_cleared hs hfifo) hi).trans (h r)⟩

/-- The word 0 is illegal in every state (R225). -/
theorem raisable_illegalCmd : Raisable s .illegalCmd := by
  obtain ⟨hfifo, -⟩ := (inv_iff s).1 hs
  exact ⟨s.inFifo, 0, 0, hfifo, fun r => step_illegal (why := .opcode) (inv_cleared hs hfifo (r := r)) rfl rfl⟩

/-- The handle 1023 is never allocated (R22, R185). -/
theorem raisable_badHandle : Raisable s .badHandle := by
  obtain ⟨hfifo, -⟩ := (inv_iff s).1 hs
  exact raisable_of_exec hs (i := .rdnode NONE) rfl hfifo fun _ =>
    execRdnode_unallocated (Nat.le_of_lt_succ s.tree.nextHandle.isLt)

/-- The number 1023 is above every legal MAX_NUMBER (R7, R186). -/
theorem raisable_badNumber : Raisable s .badNumber := by
  obtain ⟨hfifo, -, hw, -⟩ := (inv_iff s).1 hs
  obtain ⟨hcfg, -⟩ := (treeWf_iff _ _).1 hw
  obtain ⟨-, hmax, -⟩ := (config_wf_iff _).1 hcfg
  exact raisable_of_exec hs (i := .rdnum 1023) rfl hfifo fun _ => if_pos (Nat.lt_succ_of_le hmax)

theorem raisable_countSaturated (hsat : saturated s.cfg s.tree = true) : Raisable s .countSaturated := by
  obtain ⟨hfifo, -, hw, -⟩ := (inv_iff s).1 hs
  exact raisable_of_exec hs (i := .dec) rfl hfifo fun r =>
    execDec_saturated (s := s.cleared s.inFifo r) hw rfl hsat

theorem raisable_inOverflow (hfull : s.cfg.inDepth < s.inFifo.length + 8) : Raisable s .inOverflow := by
  obtain ⟨hfifo, -⟩ := (inv_iff s).1 hs
  exact raisable_of_exec hs (i := .push 8 0) rfl hfifo fun _ => if_pos hfull

/-- DEC of the NYT's path-code before a short payload, for which every FIFO has room (R7, R112, R165). -/
theorem raisable_incompleteStream (hsat : saturated s.cfg s.tree = false) (hshort : s.inFifo.length < 8) :
    Raisable s .incompleteStream := by
  obtain ⟨-, -, hw, -⟩ := (inv_iff s).1 hs
  obtain ⟨hcfg, -⟩ := (treeWf_iff _ _).1 hw
  obtain ⟨-, -, -, hdepth, -⟩ := (config_wf_iff _).1 hcfg
  obtain ⟨nd, hn, -⟩ := treeWf_nyt_leaf hw
  obtain ⟨path, hpath, hlen⟩ := treeWf_codePath hw hn
  have hsize := treeWf_length_le hw
  refine raisable_of_exec hs (i := .dec) (n := path.length) (fifo := path ++ s.inFifo) rfl
    (by rw [List.length_append]; omega) fun r => ?_
  have hready : Ready (s.cleared (path ++ s.inFifo) r) := ⟨rfl, hw, hsat⟩
  exact (hready.execDec_escape hpath rfl).trans (if_pos hshort)

/-- DEC of an escape of a symbol that has a leaf, for which the invariant leaves room (R113). -/
theorem raisable_dupSymbol (hsat : saturated s.cfg s.tree = false) (hnil : s.tree.symMap ≠ [])
    (hfit : escapeFitted s = true) : Raisable s .dupSymbol := by
  obtain ⟨-, -, hw, -⟩ := (inv_iff s).1 hs
  obtain ⟨path, hpath, hroom⟩ := (Option.any_eq_true _ _).1 hfit
  have hroom : path.length + 8 + s.inFifo.length ≤ s.cfg.inDepth := of_decide_eq_true hroom
  obtain ⟨sym, hsym⟩ := treeWf_symbol_of_symMap_ne_nil hw hnil
  refine raisable_of_exec hs (i := .dec) (n := path.length + 8) (fifo := path ++ (bitsMsb8 sym ++ s.inFifo)) rfl
    (by rw [List.length_append, List.length_append, bitsMsb8_length]; omega) fun r => ?_
  have hready : Ready (s.cleared (path ++ (bitsMsb8 sym ++ s.inFifo)) r) := ⟨rfl, hw, hsat⟩
  exact (hready.execDec_escape hpath rfl).trans ((decEscape_payload ..).trans (if_pos hsym))

/-- The recorded fault of a state that meets the invariant can have been raised there (log entry 5). -/
theorem raisable_of_errCode {c : Fault} (hc : c.code = s.errCode) : Raisable s c := by
  obtain ⟨-, -, -, -, hfirst, -⟩ := (inv_iff s).1 hs
  rw [wfFirstFault, ← hc] at hfirst
  cases c with
  | illegalCmd => exact raisable_illegalCmd hs
  | incompleteStream =>
    obtain ⟨hsat, hshort⟩ : saturated s.cfg s.tree = false ∧ s.inFifo.length < 8 := by
      simpa [Fault.code] using hfirst
    exact raisable_incompleteStream hs hsat hshort
  | dupSymbol =>
    obtain ⟨⟨hsat, hnil⟩, hfit⟩ : (saturated s.cfg s.tree = false ∧ s.tree.symMap ≠ []) ∧
        escapeFitted s = true := by simpa [Fault.code] using hfirst
    exact raisable_dupSymbol hs hsat hnil hfit
  | countSaturated => exact raisable_countSaturated hs hfirst
  | inOverflow => exact raisable_inOverflow hs (of_decide_eq_true hfirst)
  | badHandle => exact raisable_badHandle hs
  | badNumber => exact raisable_badNumber hs

end Produced

/-- Settles O45: ENC of the coded symbols and PUSHS lead to the engine without its fault, with the FIFO that it has
or that the raise of its fault starts from. -/
theorem everyAdmittedStateIsProducedByCommands : Obligations.EveryAdmittedStateIsProducedByCommands := by
  refine ⟨fun s hs => ?_, fun cfg words hcfg => runWords_inv words (initialStateMeetsTheInvariant cfg hcfg)⟩
  obtain ⟨hfifo, hstatus, -⟩ := (inv_iff s).1 hs
  cases hf : s.fault
  case false =>
    have hcode : s.errCode = 0 := by simpa [wfStatus, hf] using hstatus
    obtain ⟨words, r, hrun⟩ := runWords_cleared hs hfifo
    exact ⟨words, _, hrun, by simp [State.cleared, hcode]⟩
  case true =>
    obtain ⟨h1, h7⟩ : 1 ≤ s.errCode.toNat ∧ s.errCode.toNat ≤ 7 := by simpa [wfStatus, hf] using hstatus
    obtain ⟨c, hc⟩ := exists_fault_of_code h1 h7
    obtain ⟨fifo, w, n, hfits, hissue⟩ := raisable_of_errCode hs hc
    obtain ⟨words, r, hrun⟩ := runWords_cleared hs hfits
    refine ⟨words ++ [w], _, (runWords_append _ hrun).trans (runWords_singleton (hissue r)), ?_⟩
    rw [raise_of_clean rfl]
    simp [State.cleared, hc]

end Sys2Proof.Machine
end

section
/-! The step with no command word delivered: the engine waits (70_reset_and_hazards.md R243; log entry 2). -/

namespace Sys2Proof.Machine

/-- Settles O9: there is no word to take, and on a state that meets the invariant the guard is transparent. -/
theorem stepWithNoWordDeliveredWaits : Obligations.StepWithNoWordDeliveredWaits := by
  intro s hinv hcmds
  rw [step, takeWord_nil hcmds]
  exact ifMeaningful_of_inv hinv

end Sys2Proof.Machine
end
